-- ==== Sys2Proof/Word.lean ====
section
/-! DEFINITION. The machine word and the byte of ZX16 (spec/00_scope.md R6: XLEN 16, the byte is the addressable unit). -/

namespace Sys2Proof

/-- A 16-bit word: register contents, addresses, instruction words (R6). -/
abbrev Word := BitVec 16

/-- A byte, the addressable unit of memory (R21). -/
abbrev Byte := BitVec 8

end Sys2Proof
end

