-- ==== Sys2Proof/Config.lean ====
section
/-! DEFINITION. The constants the ISA fixes (R6, R41) and the free values it leaves open (R274, R44). -/

namespace Sys2Proof

/-- The width of a data access: `n` of `MemRead` and `MemWrite` is 1 or 2 bytes (R36, R37). -/
inductive Width where
  | byte
  | word
  deriving DecidableEq, Repr

/-- One entry of the event trace (R22, R44, R201): an access to the MMIO device, in program order,
or the I/O that an environment service performed. -/
inductive Event where
  /-- A load of `n` bytes from the device at `addr` (R36, R48). -/
  | mmioRead (addr : Word) (n : Width)
  /-- A store of the low `8n` bits `v` to the device at `addr` (R37, R44). -/
  | mmioWrite (addr : Word) (n : Width) (v : Word)
  /-- An output of service `svc` (R201). -/
  | serviceOutput (svc : BitVec 10) (v : Word)
  /-- Service `svc` took a value from outside the machine (R201; log 7). -/
  | serviceInput (svc : BitVec 10)
  deriving DecidableEq, Repr

namespace Config

/-- The value of the program counter after reset (R6, R24). -/
def resetPc : Word := 0x0000#16

/-- First address of the MMIO window 0xF000–0xFFFF (R6, R41). -/
def mmioBase : Word := 0xF000#16

/-- The address of vector table entry `k`, the two bytes at `2k` (R42). -/
def vectorEntry (k : Fin 16) : Word := BitVec.ofNat 16 (2 * k.val)

/-- The stack pointer that start-up software loads by convention (R6, R45); no hardware rule uses it. -/
def conventionalStackTop : Word := 0xEFFE#16

/-- The byte of a storage address that is neither in the image nor ever stored to: "any value"
(R274, U16). A free value, one per address, so that a read is idempotent (R40). Log 3. -/
opaque unspecifiedByte : Nat → Byte

/-- What the MMIO device answers to a load where no device model says more: "any value (a fresh draw each
time, under no law)" (R44, U12). A free value of the history of events before the load, the address and the width;
every access lengthens the history, so no two loads of a run share an answer by law. Log 4. -/
opaque mmioRead : List Event → Word → Width → Word

/-- The `k`-th value that a service or a supplied device model takes from outside the machine after the
events so far: a free value (R44, R201; logs 4, 7). -/
opaque outsideValue : List Event → Nat → Word

/-- What a register of a supplied device model holds before anything has written it: a free value, one per
register (R44; log 28). -/
opaque unspecifiedDeviceRegister : Nat → Word

end Config

end Sys2Proof
end

