-- ==== Sys2Proof/Syntax.lean ====
section
/-! DEFINITION. The 41 instructions of ZX16 as syntax, one constructor per row of spec/opcode_table.json
(R80), with the operands in assembled form (R69–R76). -/

namespace Sys2Proof

/-- The eight general registers (R10); none is hardwired (R11). -/
inductive Reg where
  | x0 | x1 | x2 | x3 | x4 | x5 | x6 | x7
  deriving DecidableEq, Repr

/-- The instructions. `rd` is the field `w[8:6]` of the R, I, L, J and U formats, `rs2` the field
`w[11:9]` (R61–R67); fields that an instruction ignores (R87) are no operands. Branch and jump
offsets carry their implied bit 0 (R72, R74). -/
inductive Instr where
  -- R-type (R100–R112)
  | add (rd rs2 : Reg)
  | sub (rd rs2 : Reg)
  | slt (rd rs2 : Reg)
  | sltu (rd rs2 : Reg)
  | sll (rd rs2 : Reg)
  | srl (rd rs2 : Reg)
  | sra (rd rs2 : Reg)
  | or (rd rs2 : Reg)
  | and (rd rs2 : Reg)
  | xor (rd rs2 : Reg)
  | mv (rd rs2 : Reg)
  | jr (rd : Reg)
  | jalr (rd rs2 : Reg)
  -- I-type (R120–R129)
  | addi (rd : Reg) (imm : BitVec 7)
  | slti (rd : Reg) (imm : BitVec 7)
  | sltui (rd : Reg) (imm : BitVec 7)
  | slli (rd : Reg) (shamt : BitVec 4)
  | srli (rd : Reg) (shamt : BitVec 4)
  | srai (rd : Reg) (shamt : BitVec 4)
  | ori (rd : Reg) (imm : BitVec 7)
  | andi (rd : Reg) (imm : BitVec 7)
  | xori (rd : Reg) (imm : BitVec 7)
  | li (rd : Reg) (imm : BitVec 7)
  -- B-type (R141–R148)
  | beq (rs1 rs2 : Reg) (off : BitVec 5)
  | bne (rs1 rs2 : Reg) (off : BitVec 5)
  | bz (rs1 : Reg) (off : BitVec 5)
  | bnz (rs1 : Reg) (off : BitVec 5)
  | blt (rs1 rs2 : Reg) (off : BitVec 5)
  | bge (rs1 rs2 : Reg) (off : BitVec 5)
  | bltu (rs1 rs2 : Reg) (off : BitVec 5)
  | bgeu (rs1 rs2 : Reg) (off : BitVec 5)
  -- S-type (R161, R162): data register, offset, base register
  | sb (rs2 : Reg) (off : BitVec 4) (rs1 : Reg)
  | sw (rs2 : Reg) (off : BitVec 4) (rs1 : Reg)
  -- L-type (R171–R173): destination, offset, base register
  | lb (rd : Reg) (off : BitVec 4) (rs2 : Reg)
  | lw (rd : Reg) (off : BitVec 4) (rs2 : Reg)
  | lbu (rd : Reg) (off : BitVec 4) (rs2 : Reg)
  -- J-type (R181, R182)
  | j (off : BitVec 10)
  | jal (rd : Reg) (off : BitVec 10)
  -- U-type (R191, R192)
  | lui (rd : Reg) (imm9 : BitVec 9)
  | auipc (rd : Reg) (imm9 : BitVec 9)
  -- SYS-type (R200)
  | ecall (svc : BitVec 10)
  deriving DecidableEq, Repr

end Sys2Proof
end

