-- ==== Sys2Proof/WellFormed.lean ====
section
/-! DEFINITION. Which terms of `Instr` are instructions: branch and jump offsets have bit 0 equal to 0
(R72, R74, R212). Every other operand's range is its type. -/

namespace Sys2Proof

/-- A branch offset is even: "imm[0] = 0" (R63, R72). -/
def evenBranchOffset (off : BitVec 5) : Bool := !off.getLsbD 0

/-- A jump offset is even: "imm[0] = 0" (R66, R74). -/
def evenJumpOffset (off : BitVec 10) : Bool := !off.getLsbD 0

/-- The instruction can be encoded without losing a bit of an operand (R212). -/
def wellFormed : Instr → Bool
  | .add _ _ => true
  | .sub _ _ => true
  | .slt _ _ => true
  | .sltu _ _ => true
  | .sll _ _ => true
  | .srl _ _ => true
  | .sra _ _ => true
  | .or _ _ => true
  | .and _ _ => true
  | .xor _ _ => true
  | .mv _ _ => true
  | .jr _ => true
  | .jalr _ _ => true
  | .addi _ _ => true
  | .slti _ _ => true
  | .sltui _ _ => true
  | .slli _ _ => true
  | .srli _ _ => true
  | .srai _ _ => true
  | .ori _ _ => true
  | .andi _ _ => true
  | .xori _ _ => true
  | .li _ _ => true
  | .beq _ _ off => evenBranchOffset off
  | .bne _ _ off => evenBranchOffset off
  | .bz _ off => evenBranchOffset off
  | .bnz _ off => evenBranchOffset off
  | .blt _ _ off => evenBranchOffset off
  | .bge _ _ off => evenBranchOffset off
  | .bltu _ _ off => evenBranchOffset off
  | .bgeu _ _ off => evenBranchOffset off
  | .sb _ _ _ => true
  | .sw _ _ _ => true
  | .lb _ _ _ => true
  | .lw _ _ _ => true
  | .lbu _ _ _ => true
  | .j off => evenJumpOffset off
  | .jal _ off => evenJumpOffset off
  | .lui _ _ => true
  | .auipc _ _ => true
  | .ecall _ => true

end Sys2Proof
end

