-- ==== Sys2Proof/Decode.lean ====
section
/-! DEFINITION. Decoding a 16-bit word (R60–R89) and, after it, encoding an instruction. The opcode map
is a table whose rows are those of R80; decoding depends on the word alone (R81). -/

namespace Sys2Proof

/-- The register with a given number (R69). -/
def Reg.ofBits (b : BitVec 3) : Reg :=
  if b = 0#3 then .x0 else if b = 1#3 then .x1 else if b = 2#3 then .x2 else if b = 3#3 then .x3
  else if b = 4#3 then .x4 else if b = 5#3 then .x5 else if b = 6#3 then .x6 else .x7

/-- The number of a register in plain binary (R69). -/
def Reg.bits : Reg → BitVec 3
  | .x0 => 0#3
  | .x1 => 1#3
  | .x2 => 2#3
  | .x3 => 3#3
  | .x4 => 4#3
  | .x5 => 5#3
  | .x6 => 6#3
  | .x7 => 7#3

/-- The primary opcode `w[2:0]` (R60). -/
def fieldOpcode (w : Word) : BitVec 3 := w.extractLsb' 0 3

/-- `w[5:3]`: func3 (R61–R65, R68). -/
def fieldFunc3 (w : Word) : BitVec 3 := w.extractLsb' 3 3

/-- `w[15:12]`: funct4 of the R format (R61). -/
def fieldFunct4 (w : Word) : BitVec 4 := w.extractLsb' 12 4

/-- `w[15:13]`: the shift type of an I-type shift (R71). -/
def fieldShiftType (w : Word) : BitVec 3 := w.extractLsb' 13 3

/-- `w[8:6]`: rd/rs1 of R and I, rs1 of B and S, rd of L, J and U (R61–R67). -/
def fieldRd (w : Word) : Reg := Reg.ofBits (w.extractLsb' 6 3)

/-- `w[11:9]`: rs2 of R, B, S and L (R61, R63–R65). -/
def fieldRs2 (w : Word) : Reg := Reg.ofBits (w.extractLsb' 9 3)

/-- `w[15:9]`: imm7 (R62, R70). -/
def fieldImm7 (w : Word) : BitVec 7 := w.extractLsb' 9 7

/-- `w[12:9]`: the shift amount (R71). -/
def fieldShamt (w : Word) : BitVec 4 := w.extractLsb' 9 4

/-- `w[15:12]`: the 4-bit offset of S and L (R64, R65, R73). -/
def fieldImm4 (w : Word) : BitVec 4 := w.extractLsb' 12 4

/-- `{w[15:12], 0}`: the branch offset with its implied bit 0 (R63, R72). -/
def fieldBranchOffset (w : Word) : BitVec 5 := w.extractLsb' 12 4 ++ 0#1

/-- `{w[14:9], w[5:3], 0}`: the jump offset with its implied bit 0 (R66, R74). -/
def fieldJumpOffset (w : Word) : BitVec 10 := w.extractLsb' 9 6 ++ w.extractLsb' 3 3 ++ 0#1

/-- `{w[14:9], w[5:3]}`: imm9 of the U format (R67, R75). -/
def fieldImm9 (w : Word) : BitVec 9 := w.extractLsb' 9 6 ++ w.extractLsb' 3 3

/-- `w[15:6]`: the service number (R68, R76). -/
def fieldSvc (w : Word) : BitVec 10 := w.extractLsb' 6 10

/-- A row of the opcode map (R80): a word `w` is the instruction when `w & mask = pattern`. -/
structure OpcodeRow where
  mnemonic : String
  mask : Word
  pattern : Word
  build : Word → Instr

/-- `w & mask = match` (R80). -/
def OpcodeRow.matches (r : OpcodeRow) (w : Word) : Bool := (w &&& r.mask) == r.pattern

/-- R-Type (R61, R100–R112). -/
def rTypeRows : List OpcodeRow :=
  [ ⟨"ADD", 0xF03F#16, 0x0000#16, fun w => .add (fieldRd w) (fieldRs2 w)⟩
  , ⟨"SUB", 0xF03F#16, 0x1000#16, fun w => .sub (fieldRd w) (fieldRs2 w)⟩
  , ⟨"SLT", 0xF03F#16, 0x2008#16, fun w => .slt (fieldRd w) (fieldRs2 w)⟩
  , ⟨"SLTU", 0xF03F#16, 0x3010#16, fun w => .sltu (fieldRd w) (fieldRs2 w)⟩
  , ⟨"SLL", 0xF03F#16, 0x4018#16, fun w => .sll (fieldRd w) (fieldRs2 w)⟩
  , ⟨"SRL", 0xF03F#16, 0x5018#16, fun w => .srl (fieldRd w) (fieldRs2 w)⟩
  , ⟨"SRA", 0xF03F#16, 0x6018#16, fun w => .sra (fieldRd w) (fieldRs2 w)⟩
  , ⟨"OR", 0xF03F#16, 0x7020#16, fun w => .or (fieldRd w) (fieldRs2 w)⟩
  , ⟨"AND", 0xF03F#16, 0x8028#16, fun w => .and (fieldRd w) (fieldRs2 w)⟩
  , ⟨"XOR", 0xF03F#16, 0x9030#16, fun w => .xor (fieldRd w) (fieldRs2 w)⟩
  , ⟨"MV", 0xF03F#16, 0xA038#16, fun w => .mv (fieldRd w) (fieldRs2 w)⟩
  , ⟨"JR", 0xF03F#16, 0xB000#16, fun w => .jr (fieldRd w)⟩
  , ⟨"JALR", 0xF03F#16, 0xC000#16, fun w => .jalr (fieldRd w) (fieldRs2 w)⟩ ]

/-- I-Type (R62, R120–R129). -/
def iTypeRows : List OpcodeRow :=
  [ ⟨"ADDI", 0x003F#16, 0x0001#16, fun w => .addi (fieldRd w) (fieldImm7 w)⟩
  , ⟨"SLTI", 0x003F#16, 0x0009#16, fun w => .slti (fieldRd w) (fieldImm7 w)⟩
  , ⟨"SLTUI", 0x003F#16, 0x0011#16, fun w => .sltui (fieldRd w) (fieldImm7 w)⟩
  , ⟨"SLLI", 0xE03F#16, 0x2019#16, fun w => .slli (fieldRd w) (fieldShamt w)⟩
  , ⟨"SRLI", 0xE03F#16, 0x4019#16, fun w => .srli (fieldRd w) (fieldShamt w)⟩
  , ⟨"SRAI", 0xE03F#16, 0x8019#16, fun w => .srai (fieldRd w) (fieldShamt w)⟩
  , ⟨"ORI", 0x003F#16, 0x0021#16, fun w => .ori (fieldRd w) (fieldImm7 w)⟩
  , ⟨"ANDI", 0x003F#16, 0x0029#16, fun w => .andi (fieldRd w) (fieldImm7 w)⟩
  , ⟨"XORI", 0x003F#16, 0x0031#16, fun w => .xori (fieldRd w) (fieldImm7 w)⟩
  , ⟨"LI", 0x003F#16, 0x0039#16, fun w => .li (fieldRd w) (fieldImm7 w)⟩ ]

/-- B-Type (R63, R141–R148). -/
def bTypeRows : List OpcodeRow :=
  [ ⟨"BEQ", 0x003F#16, 0x0002#16, fun w => .beq (fieldRd w) (fieldRs2 w) (fieldBranchOffset w)⟩
  , ⟨"BNE", 0x003F#16, 0x000A#16, fun w => .bne (fieldRd w) (fieldRs2 w) (fieldBranchOffset w)⟩
  , ⟨"BZ", 0x003F#16, 0x0012#16, fun w => .bz (fieldRd w) (fieldBranchOffset w)⟩
  , ⟨"BNZ", 0x003F#16, 0x001A#16, fun w => .bnz (fieldRd w) (fieldBranchOffset w)⟩
  , ⟨"BLT", 0x003F#16, 0x0022#16, fun w => .blt (fieldRd w) (fieldRs2 w) (fieldBranchOffset w)⟩
  , ⟨"BGE", 0x003F#16, 0x002A#16, fun w => .bge (fieldRd w) (fieldRs2 w) (fieldBranchOffset w)⟩
  , ⟨"BLTU", 0x003F#16, 0x0032#16, fun w => .bltu (fieldRd w) (fieldRs2 w) (fieldBranchOffset w)⟩
  , ⟨"BGEU", 0x003F#16, 0x003A#16, fun w => .bgeu (fieldRd w) (fieldRs2 w) (fieldBranchOffset w)⟩ ]

/-- S-Type (R64, R161, R162). -/
def sTypeRows : List OpcodeRow :=
  [ ⟨"SB", 0x003F#16, 0x0003#16, fun w => .sb (fieldRs2 w) (fieldImm4 w) (fieldRd w)⟩
  , ⟨"SW", 0x003F#16, 0x000B#16, fun w => .sw (fieldRs2 w) (fieldImm4 w) (fieldRd w)⟩ ]

/-- L-Type (R65, R171–R173). -/
def lTypeRows : List OpcodeRow :=
  [ ⟨"LB", 0x003F#16, 0x0004#16, fun w => .lb (fieldRd w) (fieldImm4 w) (fieldRs2 w)⟩
  , ⟨"LW", 0x003F#16, 0x000C#16, fun w => .lw (fieldRd w) (fieldImm4 w) (fieldRs2 w)⟩
  , ⟨"LBU", 0x003F#16, 0x0024#16, fun w => .lbu (fieldRd w) (fieldImm4 w) (fieldRs2 w)⟩ ]

/-- J-Type (R66, R181, R182). -/
def jTypeRows : List OpcodeRow :=
  [ ⟨"J", 0x8007#16, 0x0005#16, fun w => .j (fieldJumpOffset w)⟩
  , ⟨"JAL", 0x8007#16, 0x8005#16, fun w => .jal (fieldRd w) (fieldJumpOffset w)⟩ ]

/-- U-Type (R67, R191, R192). -/
def uTypeRows : List OpcodeRow :=
  [ ⟨"LUI", 0x8007#16, 0x0006#16, fun w => .lui (fieldRd w) (fieldImm9 w)⟩
  , ⟨"AUIPC", 0x8007#16, 0x8006#16, fun w => .auipc (fieldRd w) (fieldImm9 w)⟩ ]

/-- SYS-Type (R68, R200). -/
def sysTypeRows : List OpcodeRow :=
  [ ⟨"ECALL", 0x003F#16, 0x0007#16, fun w => .ecall (fieldSvc w)⟩ ]

/-- The complete instruction set, 41 rows (R80). -/
def opcodeTable : List OpcodeRow :=
  rTypeRows ++ iTypeRows ++ bTypeRows ++ sTypeRows ++ lTypeRows ++ jTypeRows ++ uTypeRows ++ sysTypeRows

/-- Why a word is no instruction (R82–R86), or why bytes do not hold one word. -/
inductive Illegal where
  /-- An R-type word whose (funct4, func3) pair is not one of the 13 (R82). -/
  | rTypeFunct
  /-- An I-type shift whose type is not 001, 010 or 100 (R83). -/
  | shiftType
  /-- An S-type word with func3 010 to 111 (R84). -/
  | sTypeFunc3
  /-- An L-type word with func3 010, 011, 101, 110 or 111 (R85). -/
  | lTypeFunc3
  /-- A SYS-type word with `w[5:3] ≠ 000` (R86). -/
  | sysTypeFunc3
  /-- Fewer than the two bytes of an instruction (R60). -/
  | truncated
  deriving DecidableEq, Repr

/-- The reserved set an unlisted word falls in, by its primary opcode (R81: illegal words exist only
in the R, I, S, L and SYS formats). -/
def illegalReason (w : Word) : Illegal :=
  if fieldOpcode w = 0b000#3 then .rTypeFunct
  else if fieldOpcode w = 0b001#3 then .shiftType
  else if fieldOpcode w = 0b011#3 then .sTypeFunc3
  else if fieldOpcode w = 0b100#3 then .lTypeFunc3
  else .sysTypeFunc3

/-- Decode one instruction word (R81). -/
def decode (w : Word) : Except Illegal Instr :=
  match opcodeTable.find? (fun r => r.matches w) with
  | some r => .ok (r.build w)
  | none => .error (illegalReason w)

/-- `{hi, lo}`: the word of two bytes, the low byte at the lower address (R30, R31). -/
def wordOfBytes (lo hi : Byte) : Word := hi ++ lo

/-- `w[7:0]` (R30). -/
def lowByte (w : Word) : Byte := w.extractLsb' 0 8

/-- `w[15:8]` (R30). -/
def highByte (w : Word) : Byte := w.extractLsb' 8 8

/-- Decode the instruction at the front of a byte sequence, low byte first (R31, R60); answers the
rest of the sequence. Total on any bytes. -/
def decodeBytes : List Byte → Except Illegal (Instr × List Byte)
  | lo :: hi :: rest =>
    match decode (wordOfBytes lo hi) with
    | .ok i => .ok (i, rest)
    | .error e => .error e
  | [_] => .error .truncated
  | [] => .error .truncated

/-- The instruction word that the low `nbits` bits of `w` give, every bit above them 0. -/
def tableWord (nbits w : Nat) : Word := BitVec.ofNat 16 (w % 2 ^ nbits)

/-- The instruction the decoder reads from the bits `w` of a row of spec/opcode_table.json, laid out as
the hardware stores them. -/
def decodeTableWord (nbits w : Nat) : Option Instr :=
  match decodeBytes [lowByte (tableWord nbits w), highByte (tableWord nbits w)] with
  | .ok (i, _) => some i
  | .error _ => none

/-- The R format (R61). -/
def encodeR (funct4 : BitVec 4) (rs2 rd : Reg) (func3 : BitVec 3) : Word :=
  funct4 ++ rs2.bits ++ rd.bits ++ func3 ++ 0b000#3

/-- The I format (R62). -/
def encodeI (imm : BitVec 7) (rd : Reg) (func3 : BitVec 3) : Word :=
  imm ++ rd.bits ++ func3 ++ 0b001#3

/-- The I format of the three shifts: type and amount (R71). -/
def encodeShift (type : BitVec 3) (shamt : BitVec 4) (rd : Reg) : Word :=
  type ++ shamt ++ rd.bits ++ 0b011#3 ++ 0b001#3

/-- The B format (R63): the offset without its bit 0. -/
def encodeB (off : BitVec 5) (rs2 rs1 : Reg) (func3 : BitVec 3) : Word :=
  off.extractLsb' 1 4 ++ rs2.bits ++ rs1.bits ++ func3 ++ 0b010#3

/-- The S format (R64). -/
def encodeS (off : BitVec 4) (rs2 rs1 : Reg) (func3 : BitVec 3) : Word :=
  off ++ rs2.bits ++ rs1.bits ++ func3 ++ 0b011#3

/-- The L format (R65). -/
def encodeL (off : BitVec 4) (rs2 rd : Reg) (func3 : BitVec 3) : Word :=
  off ++ rs2.bits ++ rd.bits ++ func3 ++ 0b100#3

/-- The J format (R66): the offset without its bit 0, split. -/
def encodeJ (link : BitVec 1) (off : BitVec 10) (rd : Reg) : Word :=
  link ++ off.extractLsb' 4 6 ++ rd.bits ++ off.extractLsb' 1 3 ++ 0b101#3

/-- The U format (R67): the immediate split. -/
def encodeU (flag : BitVec 1) (imm9 : BitVec 9) (rd : Reg) : Word :=
  flag ++ imm9.extractLsb' 3 6 ++ rd.bits ++ imm9.extractLsb' 0 3 ++ 0b110#3

/-- The SYS format (R68). -/
def encodeSys (svc : BitVec 10) : Word := svc ++ 0b000#3 ++ 0b111#3

/-- The word of an instruction; a field the instruction does not use is assembled as 000 (R87). -/
def encode : Instr → Word
  | .add rd rs2 => encodeR 0b0000#4 rs2 rd 0b000#3
  | .sub rd rs2 => encodeR 0b0001#4 rs2 rd 0b000#3
  | .slt rd rs2 => encodeR 0b0010#4 rs2 rd 0b001#3
  | .sltu rd rs2 => encodeR 0b0011#4 rs2 rd 0b010#3
  | .sll rd rs2 => encodeR 0b0100#4 rs2 rd 0b011#3
  | .srl rd rs2 => encodeR 0b0101#4 rs2 rd 0b011#3
  | .sra rd rs2 => encodeR 0b0110#4 rs2 rd 0b011#3
  | .or rd rs2 => encodeR 0b0111#4 rs2 rd 0b100#3
  | .and rd rs2 => encodeR 0b1000#4 rs2 rd 0b101#3
  | .xor rd rs2 => encodeR 0b1001#4 rs2 rd 0b110#3
  | .mv rd rs2 => encodeR 0b1010#4 rs2 rd 0b111#3
  | .jr rd => encodeR 0b1011#4 .x0 rd 0b000#3
  | .jalr rd rs2 => encodeR 0b1100#4 rs2 rd 0b000#3
  | .addi rd imm => encodeI imm rd 0b000#3
  | .slti rd imm => encodeI imm rd 0b001#3
  | .sltui rd imm => encodeI imm rd 0b010#3
  | .slli rd shamt => encodeShift 0b001#3 shamt rd
  | .srli rd shamt => encodeShift 0b010#3 shamt rd
  | .srai rd shamt => encodeShift 0b100#3 shamt rd
  | .ori rd imm => encodeI imm rd 0b100#3
  | .andi rd imm => encodeI imm rd 0b101#3
  | .xori rd imm => encodeI imm rd 0b110#3
  | .li rd imm => encodeI imm rd 0b111#3
  | .beq rs1 rs2 off => encodeB off rs2 rs1 0b000#3
  | .bne rs1 rs2 off => encodeB off rs2 rs1 0b001#3
  | .bz rs1 off => encodeB off .x0 rs1 0b010#3
  | .bnz rs1 off => encodeB off .x0 rs1 0b011#3
  | .blt rs1 rs2 off => encodeB off rs2 rs1 0b100#3
  | .bge rs1 rs2 off => encodeB off rs2 rs1 0b101#3
  | .bltu rs1 rs2 off => encodeB off rs2 rs1 0b110#3
  | .bgeu rs1 rs2 off => encodeB off rs2 rs1 0b111#3
  | .sb rs2 off rs1 => encodeS off rs2 rs1 0b000#3
  | .sw rs2 off rs1 => encodeS off rs2 rs1 0b001#3
  | .lb rd off rs2 => encodeL off rs2 rd 0b000#3
  | .lw rd off rs2 => encodeL off rs2 rd 0b001#3
  | .lbu rd off rs2 => encodeL off rs2 rd 0b100#3
  | .j off => encodeJ 0b0#1 off .x0
  | .jal rd off => encodeJ 0b1#1 off rd
  | .lui rd imm9 => encodeU 0b0#1 imm9 rd
  | .auipc rd imm9 => encodeU 0b1#1 imm9 rd
  | .ecall svc => encodeSys svc

end Sys2Proof
end

