-- ==== Sys2Proof/Machine/Operands.lean ====
section
/-! DEFINITION. Operand values: sign and zero extension, immediates, shift amounts, effective addresses and
targets (R8, R70–R77). -/

namespace Sys2Proof.Machine

/-- `sext_7`: the I-type immediate (R70). -/
def immI (imm : BitVec 7) : Word := imm.signExtend 16

/-- `imm9 << 7`: the U-type value (R75). -/
def immU (imm9 : BitVec 9) : Word := imm9 ++ 0#7

/-- `sext_5`: the branch offset (R72). -/
def branchOffset (off : BitVec 5) : Word := off.signExtend 16

/-- `sext_10`: the jump offset (R74). -/
def jumpOffset (off : BitVec 10) : Word := off.signExtend 16

/-- `sext_4`: the byte offset of a load or store (R73). -/
def byteOffset (off : BitVec 4) : Word := off.signExtend 16

/-- `(base + sext_4(imm4)) mod 2^16` (R46). -/
def effectiveAddress (base : Word) (off : BitVec 4) : Word := base + byteOffset off

/-- `x[s][3:0]`: the shift amount of a register shift (R104–R106). -/
def shiftAmount (v : Word) : Nat := (v &&& 0xF#16).toNat

/-- `sext_8` of bits 7:0 (R171). -/
def signExtendByte (v : Word) : Word := (lowByte v).signExtend 16

/-- `zext_8` of bits 7:0 (R173). -/
def zeroExtendByte (v : Word) : Word := (lowByte v).setWidth 16

/-- Bit 0 of an address (R17, R33). -/
def isOdd (a : Word) : Bool := a.getLsbD 0

/-- The address lies in the MMIO window 0xF000–0xFFFF (R41). -/
def inMmio (a : Word) : Bool := decide (Config.mmioBase ≤ a)

end Sys2Proof.Machine
end

