-- ==== Sys2Proof/Machine/Flags.lean ====
section
/-! DEFINITION. ZX16 has no flags and no condition codes (R18); conditions are computed from registers each
time. Here are the comparisons (R102, R103, R141–R148) and the shifts and sums the ALU computes. -/

namespace Sys2Proof.Machine

/-- Exact signed comparison, two's complement (R102, R145; K2). -/
def lessSigned (a b : Word) : Bool := a.slt b

/-- Comparison of the patterns read as 0…65535 (R103, R147). -/
def lessUnsigned (a b : Word) : Bool := a.ult b

/-- The word 1 or 0 that a comparison writes (R102, R103). -/
def conditionWord (c : Bool) : Word := if c then 0x0001#16 else 0x0000#16

/-- `SLT` (R102). -/
def setLessSigned (a b : Word) : Word := conditionWord (lessSigned a b)

/-- `SLTU` (R103). -/
def setLessUnsigned (a b : Word) : Word := conditionWord (lessUnsigned a b)

/-- Logical left shift: zeros enter at bit 0 (R104; K3). -/
def shiftLeft (v : Word) (n : Nat) : Word := v <<< n

/-- Logical right shift: zeros enter at bit 15 (R105; K3). -/
def shiftRightLogical (v : Word) (n : Nat) : Word := v >>> n

/-- Arithmetic right shift: copies of bit 15 enter at bit 15 (R106; K1). -/
def shiftRightArithmetic (v : Word) (n : Nat) : Word := v.sshiftRight n

end Sys2Proof.Machine
end

