-- ==== Sys2Proof/Machine/ResetValues.lean ====
section
/-! DEFINITION. The value the model gives the general registers at reset, in a file of its own: the spec
gives none. -/

namespace Sys2Proof.Machine

/-- DESIGN CHOICE, unsafe, log 1. What each of x0–x7 holds right after reset. The spec says
"undefined" (R24, R271) and "A model must not choose zero" (R25); no statement rests on this value. -/
def resetRegister : Word := 0x5A5A#16

end Sys2Proof.Machine
end

