-- ==== Sys2Proof/Machine/Tables.lean ====
section
/-! DEFINITION. Tables of numbered values, in which the storage and a device model's registers are kept, and the
image that is loaded at reset (R21, R274). -/

namespace Sys2Proof.Machine

/-- Values listed by number, the numbers strictly rising. -/
abbrev Table (β : Type) := List (Nat × β)

/-- The value listed for a number. -/
def Table.lookup {β : Type} : Table β → Nat → Option β
  | [], _ => none
  | (b, v) :: rest, a => if a = b then some v else Table.lookup rest a

/-- List a value for a number, keeping the numbers strictly rising. -/
def Table.write {β : Type} : Table β → Nat → β → Table β
  | [], a, v => [(a, v)]
  | (b, x) :: rest, a, v =>
    if a < b then (a, v) :: (b, x) :: rest
    else if a = b then (a, v) :: rest
    else (b, x) :: Table.write rest a v

/-- Every number is at least `lo`, below `hi`, and above the one before it. -/
def Table.wfFrom {β : Type} (lo hi : Nat) : Table β → Bool
  | [] => true
  | (a, _) :: rest => decide (lo ≤ a) && decide (a < hi) && Table.wfFrom (a + 1) hi rest

/-- The table of a finite map given as pairs in any order; of two pairs for one number the later counts. -/
def Table.ofList {β : Type} (l : List (Word × β)) : Table β :=
  l.foldl (fun t e => t.write e.1.toNat e.2) []

/-- The storage bytes that the image or a store has given a value, as (address, byte) pairs with
strictly rising addresses (R21, R41); an address that is not listed is unspecified (R274). -/
abbrev Memory := Table Byte

/-- The parameter `IMAGE` (R7, R274): a finite map from addresses in 0x0000–0xEFFF to bytes, as pairs
(log 23). -/
abbrev Image := List (Word × Byte)

/-- The storage after the image is loaded (R271). The MMIO window is no storage (R41): a pair for an address of
it is no byte of an image, and is left out (log 23). -/
def Memory.ofImage (image : Image) : Memory :=
  Table.ofList (image.filter (fun c => decide (c.1 < Config.mmioBase)))

/-- Bytes in a row from an address on. -/
def Image.bytes (a : Word) : List Byte → Image
  | [] => []
  | b :: bs => (a, b) :: Image.bytes (a + 1#16) bs

/-- Instruction or data words in a row from an address on, each low byte first (R31, R274). -/
def Image.words (a : Word) : List Word → Image
  | [] => []
  | w :: ws => (a, lowByte w) :: (a + 1#16, highByte w) :: Image.words (a + 2#16) ws

end Sys2Proof.Machine
end

