-- ==== Sys2Proof/Machine/State.lean ====
section
/-! DEFINITION. The state of the machine as plain data (spec/10_state.md), the reasons a step can stop
(R240, R201), and the state after reset (R271). -/

namespace Sys2Proof.Machine

/-- The eight general registers, 16 bits each (R10). -/
structure RegFile where
  x0 : Word
  x1 : Word
  x2 : Word
  x3 : Word
  x4 : Word
  x5 : Word
  x6 : Word
  x7 : Word
  deriving DecidableEq, Repr

/-- The "written since reset" mark of each general register (R22, R25). -/
structure WrittenMarks where
  x0 : Bool
  x1 : Bool
  x2 : Bool
  x3 : Bool
  x4 : Bool
  x5 : Bool
  x6 : Bool
  x7 : Bool
  deriving DecidableEq, Repr

/-- A read-only range of storage, both ends included: one element of `ROM_RANGES` (R7, R43). -/
structure RomRange where
  first : Word
  last : Word
  deriving DecidableEq, Repr

/-- The operations of the environment's programs, modulo 2^16; a comparison answers 1 or 0. -/
inductive Operator where
  | add | sub | mul | and | or | xor
  | shiftLeft | shiftRight
  | equal | below | lessSigned
  deriving DecidableEq, Repr

/-- A value that a program of the execution environment computes, from what it may read: the named sources
`α` and the regions `ρ`. Log 7. -/
inductive ProgramExpr (α ρ : Type) where
  | const (v : Word)
  | source (x : α)
  /-- The entry of a region at an index. -/
  | peek (r : ρ) (index : ProgramExpr α ρ)
  /-- The program's own scratch cell at an index; 0 until it is set. -/
  | cell (index : ProgramExpr α ρ)
  | op (o : Operator) (a b : ProgramExpr α ρ)
  deriving DecidableEq, Repr

/-- An action of the execution environment as plain data: a program over the sources `α`, the targets `β`
and the regions `ρ`. It expresses every function of what it reads (obligation
EnvironmentProgramsExpressEveryAction). Log 7. -/
inductive Program (α β ρ : Type) where
  | skip
  | seq (p q : Program α β ρ)
  /-- `p` where the value is not 0, else `q`. -/
  | cond (c : ProgramExpr α ρ) (p q : Program α β ρ)
  /-- `p` as often as the value says. -/
  | loop (times : ProgramExpr α ρ) (p : Program α β ρ)
  | setCell (index v : ProgramExpr α ρ)
  /-- Take a value from outside the machine into a scratch cell. -/
  | ask (index : ProgramExpr α ρ)
  /-- Give a target a value. -/
  | set (t : β) (v : ProgramExpr α ρ)
  /-- Give the entry of a region at an index a value. -/
  | store (r : ρ) (index v : ProgramExpr α ρ)
  /-- Give the run no meaning from here (R44: "A model may instead refuse"; R201: a partial function). -/
  | refuse
  deriving DecidableEq, Repr

/-- One effect of a program, its values computed. -/
inductive Effect (β ρ : Type) where
  | set (t : β) (v : Word)
  | store (r : ρ) (index v : Word)
  | asked
  deriving DecidableEq, Repr

/-- What a service reads by name: registers and the pc of the ECALL (R201, row "input"). -/
inductive ServiceSource where
  | reg (r : Reg)
  | pc
  deriving DecidableEq, Repr

/-- What a service gives a value by name (R201, row "output"; R202). -/
inductive ServiceTarget where
  | reg (r : Reg)
  /-- Append the value to the event trace. -/
  | output
  /-- Declare the run ended, where the value is not 0. -/
  | endRun
  deriving DecidableEq, Repr

/-- What a service reads and writes by address: the storage, one byte at an address, of a value written its
low byte (R201). -/
inductive ServiceRegion where
  | storage
  deriving DecidableEq, Repr

/-- One entry of `ECALL_SERVICE` (R201): its number and its action. -/
structure Service where
  svc : BitVec 10
  action : Program ServiceSource ServiceTarget ServiceRegion
  deriving DecidableEq, Repr

/-- What a device model is given: `addr`, `n` (1 or 2) and, at a write, `v[8n-1:0]` (R44). -/
inductive DeviceSource where
  | address
  | width
  | value
  deriving DecidableEq, Repr

/-- What a device model names: the answer of a read (R44). -/
inductive DeviceTarget where
  | answer
  deriving DecidableEq, Repr

/-- What a device model reads and writes by index: its own registers and, since it "may do anything the
device model says except change the core's registers or pc" (R40), the storage. -/
inductive DeviceRegion where
  | register
  | storage
  deriving DecidableEq, Repr

/-- A device model, the parameter `MMIO` (R7, R44): `MMIO.read(addr, n)` and `MMIO.write(addr, n, v)`, and its own
initial state (R271). Log 28. -/
structure Device where
  /-- What its registers hold after reset, as pairs of a register and its value; of two pairs for one register the
  later counts, and a register without a pair holds a free value. -/
  initial : List (Word × Word)
  read : Program DeviceSource DeviceTarget DeviceRegion
  write : Program DeviceSource DeviceTarget DeviceRegion
  deriving DecidableEq, Repr

/-- The parameter `UNDEF_REG_READ` (R7, R25): what reading a register never written since reset does. -/
inductive UndefRegRead where
  /-- Raise `UndefinedRegisterRead` (R247): the spec's default. -/
  | fault
  /-- Read the one value that the register holds. -/
  | anyValue
  deriving DecidableEq, Repr

/-- The parameters of R7 that the platform supplies as data: `UNDEF_REG_READ`, `ROM_RANGES`, `ECALL_SERVICE`
and `MMIO`, the last one none where no device model is supplied. No step changes them. `IMAGE` is an argument of
`State.resetOn`. -/
structure Platform where
  undefRegRead : UndefRegRead
  romRanges : List RomRange
  services : List Service
  device : Option Device
  deriving DecidableEq, Repr

/-- The defaults of R7: a never-written register may not be read, no ROM, no service, no device model. -/
def Platform.specDefault : Platform :=
  { undefRegRead := .fault, romRanges := [], services := [], device := none }

/-- DESIGN CHOICE, unsafe, log 2. The platform of `State.reset`: the defaults of R7, but `any value` for
`UNDEF_REG_READ`, the other value that R25 allows, so that a program can run from reset. -/
def Platform.default : Platform := { Platform.specDefault with undefRegRead := .anyValue }

/-- The run state (R271, R276): running, or ended by a service (R202). -/
inductive RunState where
  | running
  | halted (svc : BitVec 10)
  deriving DecidableEq, Repr

/-- The whole state of the machine. -/
structure State where
  /-- x0–x7 (R10). -/
  regs : RegFile
  /-- Which general registers have been written since reset (R22, R25). -/
  written : WrittenMarks
  /-- The program counter (R13): between steps, the address of the next instruction. -/
  pc : Word
  /-- The storage 0x0000–0xEFFF (R21, R41). -/
  mem : Memory
  /-- The event trace (R22, R44, R201), in program order. -/
  trace : List Event
  /-- The registers of the supplied device model (R44), those that hold a given value. Log 28. -/
  deviceRegs : Table Word
  /-- The run state (R271, R276). -/
  runState : RunState
  /-- The platform's parameters (R7). -/
  platform : Platform
  deriving DecidableEq, Repr

/-- The faults (R240): each ends the run, changes no state, and is safe (a claim about a result is not
proved by a run that faults). -/
inductive Fault where
  /-- Raised by the fetch when `pc[0] = 1` (R243). Safe. -/
  | misalignedFetch (pc : Word)
  /-- Raised by the fetch when `pc` is in 0xF000–0xFFFF (R246). Safe. -/
  | fetchFromMmio (pc : Word)
  /-- Raised by decode when the word `w` matches no row (R242). Safe. -/
  | illegalInstruction (pc w : Word)
  /-- Raised by the operand read when `reg` has not been written since reset and `UNDEF_REG_READ = fault`
  (R247). Safe. -/
  | undefinedRegisterRead (pc : Word) (reg : Reg)
  /-- Raised by LW and SW when the effective address is odd (R244). Safe. -/
  | misalignedAccess (pc addr : Word)
  /-- Raised by SB and SW when a byte of the store lies in `ROM_RANGES` (R245). Safe. -/
  | storeToRom (pc addr : Word)
  deriving DecidableEq, Repr

/-- The refusals: the model gives the run no meaning from there (R9, R201). -/
inductive Refusal where
  /-- Raised by an arm of `exec` without a meaning. Safe. -/
  | notModelled (mnemonic : String)
  /-- Raised by ECALL when the platform's table does not define service `svc` (R201). Safe. -/
  | unmodelledService (svc : BitVec 10)
  /-- Raised by ECALL when the service's action refuses, or reaches beyond what R201 grants it: a
  storage byte of the MMIO window, or a write to one of ROM. Safe, log 7. -/
  | serviceNotPermitted (svc : BitVec 10)
  /-- Raised by a load or store in the MMIO window when the supplied device model refuses the access
  (R44), or reaches for a storage byte of the window or writes one of ROM. Safe, log 28. -/
  | deviceRefused (addr : Word)
  deriving DecidableEq, Repr

/-- The registers after reset (log 1). -/
def RegFile.reset : RegFile :=
  { x0 := resetRegister, x1 := resetRegister, x2 := resetRegister, x3 := resetRegister
    x4 := resetRegister, x5 := resetRegister, x6 := resetRegister, x7 := resetRegister }

/-- The marks after reset: no register has been written (R25). -/
def WrittenMarks.reset : WrittenMarks :=
  { x0 := false, x1 := false, x2 := false, x3 := false, x4 := false, x5 := false, x6 := false, x7 := false }

/-- The device registers after reset: the device model's own initial state (R271); none is listed where no device
model is supplied. -/
def Platform.initialDeviceRegs (p : Platform) : Table Word :=
  match p.device with
  | none => []
  | some d => Table.ofList d.initial

/-- The machine right after reset on a platform, with an image in its storage (R24, R271, R274). -/
def State.resetOn (p : Platform) (image : Image) : State :=
  { regs := RegFile.reset
    written := WrittenMarks.reset
    pc := Config.resetPc
    mem := Memory.ofImage image
    trace := []
    deviceRegs := p.initialDeviceRegs
    runState := .running
    platform := p }

/-- The machine right after reset, with the parameters the model names (log 2) and no image (R7: `IMAGE` has no
default; log 23). -/
def State.reset : State := State.resetOn Platform.default []

end Sys2Proof.Machine
end

