-- ==== Sys2Proof/Machine/Program.lean ====
section
/-! DEFINITION. What a program of the execution environment does: its values and its effects in order (R44,
R201; log 7). -/

namespace Sys2Proof.Machine

/-- Why an access, or a program of the environment, does not complete. -/
inductive Stop where
  | fault (f : Fault)
  | refusal (r : Refusal)
  deriving DecidableEq, Repr

/-- What a program reads while it runs: the state at the ECALL or at the access (R16), which it does not
change before its end. -/
structure ProgramEnv (α ρ : Type) where
  source : α → Except Stop Word
  /-- A stop where the program may not read. -/
  peek : ρ → Word → Except Stop Word
  /-- How the program refuses. -/
  refusal : Stop
  /-- The `k`-th value from outside the machine. -/
  outside : Nat → Word

/-- How far a program has come. -/
structure Progress (β ρ : Type) where
  effects : List (Effect β ρ)
  cells : Table Word

/-- Nothing done yet. -/
def Progress.start {β ρ : Type} : Progress β ρ := { effects := [], cells := [] }

/-- Add one effect. -/
def Progress.add {β ρ : Type} (p : Progress β ρ) (e : Effect β ρ) : Progress β ρ :=
  { p with effects := p.effects ++ [e] }

/-- Set a scratch cell. -/
def Progress.setCell {β ρ : Type} (p : Progress β ρ) (i v : Word) : Progress β ρ :=
  { p with cells := p.cells.write i.toNat v }

/-- The effect is a value taken from outside. -/
def Effect.isAsked {β ρ : Type} : Effect β ρ → Bool
  | .set _ _ => false
  | .store _ _ _ => false
  | .asked => true

/-- How many values have been taken from outside. -/
def Progress.asks {β ρ : Type} (p : Progress β ρ) : Nat := p.effects.countP Effect.isAsked

/-- What an operator computes. -/
def Operator.apply : Operator → Word → Word → Word
  | .add, a, b => a + b
  | .sub, a, b => a - b
  | .mul, a, b => a * b
  | .and, a, b => a &&& b
  | .or, a, b => a ||| b
  | .xor, a, b => a ^^^ b
  | .shiftLeft, a, b => Machine.shiftLeft a b.toNat
  | .shiftRight, a, b => Machine.shiftRightLogical a b.toNat
  | .equal, a, b => conditionWord (a == b)
  | .below, a, b => setLessUnsigned a b
  | .lessSigned, a, b => setLessSigned a b

/-- The value of an expression; a stop where it reads what the program may not read. -/
def ProgramExpr.eval {α ρ : Type} (env : ProgramEnv α ρ) (cells : Table Word) :
    ProgramExpr α ρ → Except Stop Word
  | .const v => .ok v
  | .source x => env.source x
  | .peek r i =>
    match i.eval env cells with
    | .ok a => env.peek r a
    | .error e => .error e
  | .cell i =>
    match i.eval env cells with
    | .ok a => .ok ((cells.lookup a.toNat).getD 0#16)
    | .error e => .error e
  | .op o a b =>
    match a.eval env cells with
    | .ok x =>
      match b.eval env cells with
      | .ok y => .ok (o.apply x y)
      | .error e => .error e
    | .error e => .error e

/-- `f`, `n` times over. -/
def repeatProgram {σ : Type} (f : σ → Except Stop σ) : Nat → σ → Except Stop σ
  | 0, p => .ok p
  | n + 1, p =>
    match f p with
    | .ok q => repeatProgram f n q
    | .error e => .error e

/-- What a program does from where it stands; a stop where it refuses or may not read. -/
def Program.run {α β ρ : Type} (env : ProgramEnv α ρ) :
    Program α β ρ → Progress β ρ → Except Stop (Progress β ρ)
  | .skip, p => .ok p
  | .seq a b, p =>
    match a.run env p with
    | .ok q => b.run env q
    | .error e => .error e
  | .cond c a b, p =>
    match c.eval env p.cells with
    | .ok v => if v = 0#16 then b.run env p else a.run env p
    | .error e => .error e
  | .loop n a, p =>
    match n.eval env p.cells with
    | .ok v => repeatProgram (fun q => a.run env q) v.toNat p
    | .error e => .error e
  | .setCell i x, p =>
    match i.eval env p.cells with
    | .ok a =>
      match x.eval env p.cells with
      | .ok v => .ok (p.setCell a v)
      | .error e => .error e
    | .error e => .error e
  | .ask i, p =>
    match i.eval env p.cells with
    | .ok a => .ok ((p.setCell a (env.outside p.asks)).add .asked)
    | .error e => .error e
  | .set t x, p =>
    match x.eval env p.cells with
    | .ok v => .ok (p.add (.set t v))
    | .error e => .error e
  | .store r i x, p =>
    match i.eval env p.cells with
    | .ok a =>
      match x.eval env p.cells with
      | .ok v => .ok (p.add (.store r a v))
      | .error e => .error e
    | .error e => .error e
  | .refuse, _ => .error env.refusal

/-- The effects of a program in order; a stop where it refuses or reads what it may not. -/
def Program.effects {α β ρ : Type} (p : Program α β ρ) (env : ProgramEnv α ρ) :
    Except Stop (List (Effect β ρ)) :=
  match p.run env Progress.start with
  | .ok q => .ok q.effects
  | .error e => .error e

end Sys2Proof.Machine
end

