-- ==== Sys2Proof/Machine/Ops.lean ====
section
/-! DEFINITION. The named operations over registers, memory and devices, and raising a fault or a refusal. -/

namespace Sys2Proof.Machine

/-- Read a general register (R12). -/
def RegFile.get (f : RegFile) : Reg → Word
  | .x0 => f.x0
  | .x1 => f.x1
  | .x2 => f.x2
  | .x3 => f.x3
  | .x4 => f.x4
  | .x5 => f.x5
  | .x6 => f.x6
  | .x7 => f.x7

/-- Write a general register (R11, R12). -/
def RegFile.set (f : RegFile) (r : Reg) (v : Word) : RegFile :=
  match r with
  | .x0 => { f with x0 := v }
  | .x1 => { f with x1 := v }
  | .x2 => { f with x2 := v }
  | .x3 => { f with x3 := v }
  | .x4 => { f with x4 := v }
  | .x5 => { f with x5 := v }
  | .x6 => { f with x6 := v }
  | .x7 => { f with x7 := v }

/-- The mark of a register (R25). -/
def WrittenMarks.get (m : WrittenMarks) : Reg → Bool
  | .x0 => m.x0
  | .x1 => m.x1
  | .x2 => m.x2
  | .x3 => m.x3
  | .x4 => m.x4
  | .x5 => m.x5
  | .x6 => m.x6
  | .x7 => m.x7

/-- Set the mark of a register (R25). -/
def WrittenMarks.mark (m : WrittenMarks) : Reg → WrittenMarks
  | .x0 => { m with x0 := true }
  | .x1 => { m with x1 := true }
  | .x2 => { m with x2 := true }
  | .x3 => { m with x3 := true }
  | .x4 => { m with x4 := true }
  | .x5 => { m with x5 := true }
  | .x6 => { m with x6 := true }
  | .x7 => { m with x7 := true }

/-- A register has been written since reset (R25). -/
def State.isWritten (s : State) (r : Reg) : Bool := s.written.get r

/-- `x[i]` (R8). -/
def State.reg (s : State) (r : Reg) : Word := s.regs.get r

/-- `x[i] <- v` (R8); the register is then written (R25: "set by every register write"). -/
def State.setReg (s : State) (r : Reg) (v : Word) : State :=
  { s with regs := s.regs.set r v, written := s.written.mark r }

/-- An instruction may read the register (R25): any register under `UNDEF_REG_READ = any value`, a written
one under `fault`. -/
def State.readable (s : State) (r : Reg) : Bool :=
  match s.platform.undefRegRead with
  | .fault => s.isWritten r
  | .anyValue => true

/-- `pc <- target` (R8). -/
def State.setPc (s : State) (target : Word) : State := { s with pc := target }

/-- `pc <- pc + 2 mod 2^16` (R15). -/
def State.advance (s : State) : State := s.setPc (s.pc + 2#16)

/-- Append an event to the trace (R44). -/
def State.emit (s : State) (e : Event) : State := { s with trace := s.trace ++ [e] }

/-- Replace the storage. -/
def State.setMem (s : State) (m : Memory) : State := { s with mem := m }

/-- Replace the device model's registers. -/
def State.setDeviceRegs (s : State) (d : Table Word) : State := { s with deviceRegs := d }

/-- Read one byte: the listed one, or the address's unspecified byte (R40, R274; log 3). -/
def Memory.readByte (m : Memory) (a : Nat) : Byte :=
  (m.lookup a).getD (Config.unspecifiedByte a)

/-- The canonical form: addresses strictly rising, all of them storage (R41). An unlisted address has
no specified byte, so no listed byte equals what it holds (log 3). -/
def Memory.wf (m : Memory) : Bool := Table.wfFrom 0 Config.mmioBase.toNat m

/-- Read a register of the device model: the listed value, or its unspecified one (log 28). -/
def readDeviceReg (d : Table Word) (i : Word) : Word :=
  (d.lookup i.toNat).getD (Config.unspecifiedDeviceRegister i.toNat)

/-- The same canonical form for the device model's registers, 65,536 of them (log 28). -/
def deviceRegsWf (d : Table Word) : Bool := Table.wfFrom 0 65536 d

/-- The storage byte at a machine address. -/
def State.byteAt (s : State) (a : Word) : Byte := s.mem.readByte a.toNat

/-- The little-endian word at a machine address: `{Mem[a + 1], Mem[a]}` (R30, R36). -/
def State.wordAt (s : State) (a : Word) : Word := wordOfBytes (s.byteAt a) (s.byteAt (a + 1#16))

/-- The address lies in one of the platform's read-only ranges (R43). -/
def Platform.inRom (p : Platform) (a : Word) : Bool :=
  p.romRanges.any (fun r => decide (r.first ≤ a) && decide (a ≤ r.last))

/-- The store would write a byte of ROM: `addr in ROM_RANGES or (n = 2 and addr + 1 in ROM_RANGES)`
(R37). -/
def State.storeHitsRom (s : State) (addr : Word) : Width → Bool
  | .byte => s.platform.inRom addr
  | .word => s.platform.inRom addr || s.platform.inRom (addr + 1#16)

/-- `raise F(info)` (R240): the step stops, nothing is changed, saved or entered. The one way an
instruction takes an exception: the machine has no trap entry and no return from one (R251, R253). -/
def raise (f : Fault) : Host.Outcome State Fault Refusal := .fault f

/-- The operand read (R23, step 5): `rest`, unless one of the registers `l` that the instruction reads, `w[8:6]`
before `w[11:9]` (R248), may not be read; the first such raises `UndefinedRegisterRead` (R247). -/
def readOperands (l : List Reg) (s : State) (rest : Host.Outcome State Fault Refusal) :
    Host.Outcome State Fault Refusal :=
  match l.find? (fun r => !s.readable r) with
  | some r => raise (.undefinedRegisterRead s.pc r)
  | none => rest

/-- The outcome of an access that does not complete. -/
def stop : Stop → Host.Outcome State Fault Refusal
  | .fault f => raise f
  | .refusal r => .refused r

/-- A storage byte that the program itself could write (R201, row "output"): neither in the MMIO
window nor in ROM. -/
def State.storable (s : State) (a : Word) : Bool := !inMmio a && !s.platform.inRom a

/-- The storage byte that a program of the environment reads, zero-extended; `refusal` in the MMIO window, which
is a device's and not memory (R44; log 7). -/
def State.peekStorage (s : State) (refusal : Stop) (a : Word) : Except Stop Word :=
  if inMmio a then .error refusal else .ok ((s.byteAt a).setWidth 16)

/-- The low `8n` bits of a value (R37). -/
def lowBits : Width → Word → Word
  | .byte, v => zeroExtendByte v
  | .word, v => v

/-- A word access at an odd address (R33, R34). -/
def misaligned (addr : Word) : Width → Bool
  | .byte => false
  | .word => isOdd addr

/-- The storage after the `n` bytes of `v` are written at `addr`, little-endian (R37). -/
def State.storeBytes (s : State) (addr : Word) (v : Word) : Width → State
  | .byte => s.setMem (s.mem.write addr.toNat (lowByte v))
  | .word => s.setMem ((s.mem.write addr.toNat (lowByte v)).write (addr + 1#16).toNat (highByte v))

/-- `n` as a number (R36). -/
def widthBytes : Width → Word
  | .byte => 1#16
  | .word => 2#16

/-- What a device model reads: the access, its registers and the storage, never the core's registers. -/
def deviceEnv (s : State) (addr : Word) (n : Width) (v : Word) : ProgramEnv DeviceSource DeviceRegion :=
  { source := fun
      | .address => .ok addr
      | .width => .ok (widthBytes n)
      | .value => .ok v
    peek := fun
      | .register => fun i => .ok (readDeviceReg s.deviceRegs i)
      | .storage => s.peekStorage (.refusal (.deviceRefused addr))
    refusal := .refusal (.deviceRefused addr)
    outside := Config.outsideValue s.trace }

/-- A device model may have this effect (R40, R43): it writes no byte of ROM or of the window. -/
def State.deviceMay (s : State) : Effect DeviceTarget DeviceRegion → Bool
  | .set _ _ => true
  | .store .register _ _ => true
  | .store .storage a _ => s.storable a
  | .asked => true

/-- One effect of a device model on the state. -/
def applyDeviceEffect (t : State) : Effect DeviceTarget DeviceRegion → State
  | .set _ _ => t
  | .store .register i v => t.setDeviceRegs (t.deviceRegs.write i.toNat v)
  | .store .storage a v => t.storeBytes a v .byte
  | .asked => t

/-- The effect is a given answer. -/
def answerIn : Effect DeviceTarget DeviceRegion → Option Word
  | .set .answer v => some v
  | .store _ _ _ => none
  | .asked => none

/-- The last answer a device model gives, or `default` (R44: any value). -/
def answerOf (default : Word) (es : List (Effect DeviceTarget DeviceRegion)) : Word :=
  (es.filterMap answerIn).getLast?.getD default

/-- Run a program of the supplied device model for the access at `addr`: its effects, and the state after
them; it may refuse (R44). -/
def runDevice (p : Program DeviceSource DeviceTarget DeviceRegion) (s : State) (addr : Word) (n : Width) (v : Word) :
    Except Stop (List (Effect DeviceTarget DeviceRegion) × State) :=
  match p.effects (deviceEnv s addr n v) with
  | .ok es =>
    if es.all s.deviceMay then .ok (es, es.foldl applyDeviceEffect s)
    else .error (.refusal (.deviceRefused addr))
  | .error _ => .error (.refusal (.deviceRefused addr))

/-- `MMIO.read(addr, n)` (R44): the supplied device model, or any value; one event. -/
def deviceRead (s : State) (addr : Word) (n : Width) : Except Stop (Word × State) :=
  match s.platform.device with
  | none => .ok (lowBits n (Config.mmioRead s.trace addr n), s.emit (.mmioRead addr n))
  | some d =>
    match runDevice d.read s addr n 0#16 with
    | .ok (es, t) => .ok (lowBits n (answerOf (Config.mmioRead s.trace addr n) es), t.emit (.mmioRead addr n))
    | .error e => .error e

/-- `MMIO.write(addr, n, v)` (R44), `v` its low `8n` bits: the supplied device model, or no effect; one
event. -/
def deviceWrite (s : State) (addr : Word) (n : Width) (v : Word) : Except Stop State :=
  match s.platform.device with
  | none => .ok (s.emit (.mmioWrite addr n v))
  | some d =>
    match runDevice d.write s addr n v with
    | .ok (_, t) => .ok (t.emit (.mmioWrite addr n v))
    | .error e => .error e

/-- `MemRead(addr, n)` (R36): the value, an unsigned `8n`-bit number, and the state after the access. -/
def memRead (s : State) (addr : Word) (n : Width) : Except Stop (Word × State) :=
  if misaligned addr n then .error (.fault (.misalignedAccess s.pc addr))
  else if inMmio addr then deviceRead s addr n
  else match n with
    | .byte => .ok ((s.byteAt addr).setWidth 16, s)
    | .word => .ok (s.wordAt addr, s)

/-- `MemWrite(addr, n, v)` (R37): alignment, then the device, then ROM, then storage. -/
def memWrite (s : State) (addr : Word) (n : Width) (v : Word) : Except Stop State :=
  if misaligned addr n then .error (.fault (.misalignedAccess s.pc addr))
  else if inMmio addr then deviceWrite s addr n (lowBits n v)
  else if s.storeHitsRom addr n then .error (.fault (.storeToRom s.pc addr))
  else .ok (s.storeBytes addr v n)

/-- The fetch (R23, steps 1 to 3): the word at `pc`, or the fault. -/
def fetch (s : State) : Except Fault Word :=
  if isOdd s.pc then .error (.misalignedFetch s.pc)
  else if inMmio s.pc then .error (.fetchFromMmio s.pc)
  else .ok (s.wordAt s.pc)

/-- Place one instruction word in storage where the fetch reads it, low byte first (R31, R274). -/
def State.placeAtPc (s : State) (w : Word) : State :=
  s.setMem ((s.mem.write s.pc.toNat (lowByte w)).write (s.pc + 1#16).toNat (highByte w))

/-- `x[d] <- v`, then the next instruction (R15): the end of every instruction whose only result is a
register. -/
def writeReg (rd : Reg) (v : Word) (s : State) : Host.Outcome State Fault Refusal :=
  .next (s.setReg rd v).advance

/-- Two-operand register ALU: `x[d] <- f(x[d], x[s])`, reads before the write (R16, R100–R109). -/
def aluReg (f : Word → Word → Word) (rd rs2 : Reg) (s : State) : Host.Outcome State Fault Refusal :=
  readOperands [rd, rs2] s (writeReg rd (f (s.reg rd) (s.reg rs2)) s)

/-- ALU with an immediate: `x[d] <- f(x[d], v)` (R120–R128). -/
def aluImm {β : Type} (f : Word → β → Word) (rd : Reg) (v : β) (s : State) : Host.Outcome State Fault Refusal :=
  readOperands [rd] s (writeReg rd (f (s.reg rd) v) s)

/-- Conditional branch on the registers `l`, relative to the branch's own address (R14, R140). -/
def branchIf (l : List Reg) (cond : Bool) (off : BitVec 5) (s : State) : Host.Outcome State Fault Refusal :=
  readOperands l s (.next (s.setPc (if cond then s.pc + branchOffset off else s.pc + 2#16)))

/-- Load `n` bytes at an address and put `extend` of them in `x[d]` (R170). -/
def loadAt (n : Width) (extend : Word → Word) (rd : Reg) (addr : Word) (s : State) :
    Host.Outcome State Fault Refusal :=
  match memRead s addr n with
  | .ok (v, t) => .next (t.setReg rd (extend v)).advance
  | .error e => stop e

/-- Store the low `n` bytes of `v` at an address (R160). -/
def storeAt (n : Width) (v addr : Word) (s : State) : Host.Outcome State Fault Refusal :=
  match memWrite s addr n v with
  | .ok t => .next t.advance
  | .error e => stop e

/-- A load: the base is read, and the address uses its old value (R16, R170). -/
def load (n : Width) (extend : Word → Word) (rd : Reg) (off : BitVec 4) (base : Reg) (s : State) :
    Host.Outcome State Fault Refusal :=
  readOperands [base] s (loadAt n extend rd (effectiveAddress (s.reg base) off) s)

/-- A store: the base is read before the data (R160, R248). -/
def store (n : Width) (data : Reg) (off : BitVec 4) (base : Reg) (s : State) :
    Host.Outcome State Fault Refusal :=
  readOperands [base, data] s (storeAt n (s.reg data) (effectiveAddress (s.reg base) off) s)

end Sys2Proof.Machine
end

