-- ==== Sys2Proof/Machine/BType.lean ====
section
/-! DEFINITION. The meanings of the B-type instructions (spec/42_b_type.md). -/

namespace Sys2Proof.Machine

/-- BEQ (R141). -/
def execBeq (rs1 rs2 : Reg) (off : BitVec 5) (s : State) : Host.Outcome State Fault Refusal :=
  branchIf [rs1, rs2] (s.reg rs1 == s.reg rs2) off s

/-- BNE (R142). -/
def execBne (rs1 rs2 : Reg) (off : BitVec 5) (s : State) : Host.Outcome State Fault Refusal :=
  branchIf [rs1, rs2] (s.reg rs1 != s.reg rs2) off s

/-- BZ: the rs2 field is ignored (R143, R87). -/
def execBz (rs1 : Reg) (off : BitVec 5) (s : State) : Host.Outcome State Fault Refusal :=
  branchIf [rs1] (s.reg rs1 == 0#16) off s

/-- BNZ: the rs2 field is ignored (R144, R87). -/
def execBnz (rs1 : Reg) (off : BitVec 5) (s : State) : Host.Outcome State Fault Refusal :=
  branchIf [rs1] (s.reg rs1 != 0#16) off s

/-- BLT, signed (R145). -/
def execBlt (rs1 rs2 : Reg) (off : BitVec 5) (s : State) : Host.Outcome State Fault Refusal :=
  branchIf [rs1, rs2] (lessSigned (s.reg rs1) (s.reg rs2)) off s

/-- BGE, signed: the exact negation of BLT's condition (R146). -/
def execBge (rs1 rs2 : Reg) (off : BitVec 5) (s : State) : Host.Outcome State Fault Refusal :=
  branchIf [rs1, rs2] (!lessSigned (s.reg rs1) (s.reg rs2)) off s

/-- BLTU, unsigned (R147). -/
def execBltu (rs1 rs2 : Reg) (off : BitVec 5) (s : State) : Host.Outcome State Fault Refusal :=
  branchIf [rs1, rs2] (lessUnsigned (s.reg rs1) (s.reg rs2)) off s

/-- BGEU, unsigned: the exact negation of BLTU's condition (R148). -/
def execBgeu (rs1 rs2 : Reg) (off : BitVec 5) (s : State) : Host.Outcome State Fault Refusal :=
  branchIf [rs1, rs2] (!lessUnsigned (s.reg rs1) (s.reg rs2)) off s

end Sys2Proof.Machine
end

