-- ==== Sys2Proof/Machine/IType.lean ====
section
/-! DEFINITION. The meanings of the I-type instructions (spec/41_i_type.md). -/

namespace Sys2Proof.Machine

/-- ADDI: `x[d] <- (x[d] + sext_7(imm7)) mod 2^16` (R120). -/
def execAddi (rd : Reg) (imm : BitVec 7) (s : State) : Host.Outcome State Fault Refusal :=
  aluImm (fun a b => a + b) rd (immI imm) s

/-- SLTI: 1 if `x[d] < sext_7(imm7)` signed, else 0 (R121). -/
def execSlti (rd : Reg) (imm : BitVec 7) (s : State) : Host.Outcome State Fault Refusal :=
  aluImm setLessSigned rd (immI imm) s

/-- SLTUI: 1 if `x[d] < sext_7(imm7)`, both read unsigned, else 0 (R122, conflict C6). -/
def execSltui (rd : Reg) (imm : BitVec 7) (s : State) : Host.Outcome State Fault Refusal :=
  aluImm setLessUnsigned rd (immI imm) s

/-- SLLI: `x[d] << shamt` (R123). -/
def execSlli (rd : Reg) (shamt : BitVec 4) (s : State) : Host.Outcome State Fault Refusal :=
  aluImm shiftLeft rd shamt.toNat s

/-- SRLI: `x[d] >>u shamt` (R124). -/
def execSrli (rd : Reg) (shamt : BitVec 4) (s : State) : Host.Outcome State Fault Refusal :=
  aluImm shiftRightLogical rd shamt.toNat s

/-- SRAI: `x[d] >>s shamt` (R125). -/
def execSrai (rd : Reg) (shamt : BitVec 4) (s : State) : Host.Outcome State Fault Refusal :=
  aluImm shiftRightArithmetic rd shamt.toNat s

/-- ORI: `x[d] | sext_7(imm7)` (R126). -/
def execOri (rd : Reg) (imm : BitVec 7) (s : State) : Host.Outcome State Fault Refusal :=
  aluImm (fun a b => a ||| b) rd (immI imm) s

/-- ANDI: `x[d] & sext_7(imm7)` (R127). -/
def execAndi (rd : Reg) (imm : BitVec 7) (s : State) : Host.Outcome State Fault Refusal :=
  aluImm (fun a b => a &&& b) rd (immI imm) s

/-- XORI: `x[d] ^ sext_7(imm7)` (R128). -/
def execXori (rd : Reg) (imm : BitVec 7) (s : State) : Host.Outcome State Fault Refusal :=
  aluImm (fun a b => a ^^^ b) rd (immI imm) s

/-- LI: `x[d] <- sext_7(imm7)`; `x[d]` is not read (R129). -/
def execLi (rd : Reg) (imm : BitVec 7) (s : State) : Host.Outcome State Fault Refusal :=
  writeReg rd (immI imm) s

end Sys2Proof.Machine
end

