-- ==== Sys2Proof/Machine/JType.lean ====
section
/-! DEFINITION. The meanings of the J-type instructions (spec/45_j_type.md). -/

namespace Sys2Proof.Machine

/-- J: `pc <- pc + sext_10(offset)` (R181). -/
def execJ (off : BitVec 10) (s : State) : Host.Outcome State Fault Refusal :=
  .next (s.setPc (s.pc + jumpOffset off))

/-- JAL: link `pc + 2` in `x[d]`, target relative to the JAL's own address (R182). -/
def execJal (rd : Reg) (off : BitVec 10) (s : State) : Host.Outcome State Fault Refusal :=
  .next ((s.setReg rd (s.pc + 2#16)).setPc (s.pc + jumpOffset off))

end Sys2Proof.Machine
end

