-- ==== Sys2Proof/Machine/LType.lean ====
section
/-! DEFINITION. The meanings of the L-type instructions (spec/44_l_type.md). -/

namespace Sys2Proof.Machine

/-- LB: the byte, sign-extended (R171). -/
def execLb (rd : Reg) (off : BitVec 4) (rs2 : Reg) (s : State) : Host.Outcome State Fault Refusal :=
  load .byte signExtendByte rd off rs2 s

/-- LW: the word, even address (R172). -/
def execLw (rd : Reg) (off : BitVec 4) (rs2 : Reg) (s : State) : Host.Outcome State Fault Refusal :=
  load .word id rd off rs2 s

/-- LBU: the byte, zero-extended (R173). -/
def execLbu (rd : Reg) (off : BitVec 4) (rs2 : Reg) (s : State) : Host.Outcome State Fault Refusal :=
  load .byte zeroExtendByte rd off rs2 s

end Sys2Proof.Machine
end

