-- ==== Sys2Proof/Machine/RType.lean ====
section
/-! DEFINITION. The meanings of the R-type instructions (spec/40_r_type.md). -/

namespace Sys2Proof.Machine

/-- ADD: `x[d] <- (x[d] + x[s]) mod 2^16` (R100). -/
def execAdd (rd rs2 : Reg) (s : State) : Host.Outcome State Fault Refusal :=
  aluReg (fun a b => a + b) rd rs2 s

/-- SUB: `x[d] <- (x[d] - x[s]) mod 2^16` (R101). -/
def execSub (rd rs2 : Reg) (s : State) : Host.Outcome State Fault Refusal :=
  aluReg (fun a b => a - b) rd rs2 s

/-- SLT: 1 if `x[d] < x[s]` signed, else 0 (R102). -/
def execSlt (rd rs2 : Reg) (s : State) : Host.Outcome State Fault Refusal :=
  aluReg setLessSigned rd rs2 s

/-- SLTU: 1 if `x[d] < x[s]` unsigned, else 0 (R103). -/
def execSltu (rd rs2 : Reg) (s : State) : Host.Outcome State Fault Refusal :=
  aluReg setLessUnsigned rd rs2 s

/-- SLL: `x[d] << x[s][3:0]` (R104). -/
def execSll (rd rs2 : Reg) (s : State) : Host.Outcome State Fault Refusal :=
  aluReg (fun a b => shiftLeft a (shiftAmount b)) rd rs2 s

/-- SRL: `x[d] >>u x[s][3:0]` (R105). -/
def execSrl (rd rs2 : Reg) (s : State) : Host.Outcome State Fault Refusal :=
  aluReg (fun a b => shiftRightLogical a (shiftAmount b)) rd rs2 s

/-- SRA: `x[d] >>s x[s][3:0]` (R106). -/
def execSra (rd rs2 : Reg) (s : State) : Host.Outcome State Fault Refusal :=
  aluReg (fun a b => shiftRightArithmetic a (shiftAmount b)) rd rs2 s

/-- OR (R107). -/
def execOr (rd rs2 : Reg) (s : State) : Host.Outcome State Fault Refusal :=
  aluReg (fun a b => a ||| b) rd rs2 s

/-- AND (R108). -/
def execAnd (rd rs2 : Reg) (s : State) : Host.Outcome State Fault Refusal :=
  aluReg (fun a b => a &&& b) rd rs2 s

/-- XOR (R109). -/
def execXor (rd rs2 : Reg) (s : State) : Host.Outcome State Fault Refusal :=
  aluReg (fun a b => a ^^^ b) rd rs2 s

/-- MV: `x[d] <- x[s]`; `x[d]` is not read (R110). -/
def execMv (rd rs2 : Reg) (s : State) : Host.Outcome State Fault Refusal :=
  readOperands [rs2] s (writeReg rd (s.reg rs2) s)

/-- JR: `pc <- x[d]`, all 16 bits, bit 0 not cleared (R111). -/
def execJr (rd : Reg) (s : State) : Host.Outcome State Fault Refusal :=
  readOperands [rd] s (.next (s.setPc (s.reg rd)))

/-- JALR: the target is the old `x[s]`, the link `pc + 2` goes to `x[d]` (R112, R16; log 15). -/
def execJalr (rd rs2 : Reg) (s : State) : Host.Outcome State Fault Refusal :=
  readOperands [rs2] s (.next ((s.setReg rd (s.pc + 2#16)).setPc (s.reg rs2)))

end Sys2Proof.Machine
end

