-- ==== Sys2Proof/Machine/SType.lean ====
section
/-! DEFINITION. The meanings of the S-type instructions (spec/43_s_type.md). -/

namespace Sys2Proof.Machine

/-- SB: bits 7:0 of `x[t]` to one byte (R161). -/
def execSb (rs2 : Reg) (off : BitVec 4) (rs1 : Reg) (s : State) : Host.Outcome State Fault Refusal :=
  store .byte rs2 off rs1 s

/-- SW: all 16 bits of `x[t]`, even address (R162). -/
def execSw (rs2 : Reg) (off : BitVec 4) (rs1 : Reg) (s : State) : Host.Outcome State Fault Refusal :=
  store .word rs2 off rs1 s

end Sys2Proof.Machine
end

