-- ==== Sys2Proof/Machine/SysType.lean ====
section
/-! DEFINITION. ECALL and the service interface of the execution environment (spec/47_sys_type.md). -/

namespace Sys2Proof.Machine

/-- What service `svc` reads (R201, row "input"): registers, the pc of the ECALL and storage, all as they were
at the ECALL (R16); a never-written register as any instruction does (R201, R247). -/
def serviceEnv (svc : BitVec 10) (s : State) : ProgramEnv ServiceSource ServiceRegion :=
  { source := fun
      | .reg r => if s.readable r then .ok (s.reg r) else .error (.fault (.undefinedRegisterRead s.pc r))
      | .pc => .ok s.pc
    peek := fun
      | .storage => s.peekStorage (.refusal (.serviceNotPermitted svc))
    refusal := .refusal (.serviceNotPermitted svc)
    outside := Config.outsideValue s.trace }

/-- The effects of a service in the state at the ECALL; a stop where its action refuses or reads a register
that may not be read. -/
def Service.effects (v : Service) (s : State) : Except Stop (List (Effect ServiceTarget ServiceRegion)) :=
  v.action.effects (serviceEnv v.svc s)

/-- R201 grants a service this effect (row "output"). -/
def State.serviceMay (s : State) : Effect ServiceTarget ServiceRegion → Bool
  | .set _ _ => true
  | .store .storage a _ => s.storable a
  | .asked => true

/-- One effect of service `svc` on the state (R201). -/
def applyServiceEffect (svc : BitVec 10) (t : State) : Effect ServiceTarget ServiceRegion → State
  | .set (.reg r) v => t.setReg r v
  | .set .output v => t.emit (.serviceOutput svc v)
  | .set .endRun _ => t
  | .store .storage a v => t.storeBytes a v .byte
  | .asked => t.emit (.serviceInput svc)

/-- The effect declares the run ended (R202). -/
def endsRun : Effect ServiceTarget ServiceRegion → Bool
  | .set .endRun v => v != 0#16
  | .set (.reg _) _ => false
  | .set .output _ => false
  | .store _ _ _ => false
  | .asked => false

/-- `ECALL_SERVICE(svc)`: the first entry of the platform's table with that number (R201). -/
def Platform.service (p : Platform) (svc : BitVec 10) : Option Service :=
  p.services.find? (fun v => v.svc == svc)

/-- The end of a service: the run ends with `pc` still the ECALL's, or the next instruction follows
(R202). -/
def finishService (ends : Bool) (svc : BitVec 10) (t : State) : State :=
  if ends then { t with runState := .halted svc } else t.advance

/-- ECALL: the environment performs service `svc`; a service the table does not define is refused (R200–R202,
R249; log 6), and one that reads a never-written register may fault (R201, R247). -/
def execEcall (svc : BitVec 10) (s : State) : Host.Outcome State Fault Refusal :=
  match s.platform.service svc with
  | none => .refused (.unmodelledService svc)
  | some v =>
    match v.effects s with
    | .error e => stop e
    | .ok es =>
      if es.all s.serviceMay then
        .next (finishService (es.any endsRun) svc (es.foldl (applyServiceEffect svc) s))
      else .refused (.serviceNotPermitted svc)

end Sys2Proof.Machine
end

