-- ==== Sys2Proof/Machine/UType.lean ====
section
/-! DEFINITION. The meanings of the U-type instructions (spec/46_u_type.md). -/

namespace Sys2Proof.Machine

/-- LUI: `x[d] <- imm9 << 7` (R191). -/
def execLui (rd : Reg) (imm9 : BitVec 9) (s : State) : Host.Outcome State Fault Refusal :=
  writeReg rd (immU imm9) s

/-- AUIPC: `x[d] <- pc + (imm9 << 7)`, `pc` the AUIPC's own address (R192). -/
def execAuipc (rd : Reg) (imm9 : BitVec 9) (s : State) : Host.Outcome State Fault Refusal :=
  writeReg rd (s.pc + immU imm9) s

end Sys2Proof.Machine
end

