-- ==== Sys2Proof/Machine/Dispatch.lean ====
section
/-! DEFINITION. The meaning of an instruction: one arm per constructor, each a direct call (R80). -/

namespace Sys2Proof.Machine

def exec (i : Instr) (s : State) : Host.Outcome State Fault Refusal :=
  match i with
  | .add rd rs2 => Sys2Proof.Machine.execAdd rd rs2 s
  | .sub rd rs2 => Sys2Proof.Machine.execSub rd rs2 s
  | .slt rd rs2 => Sys2Proof.Machine.execSlt rd rs2 s
  | .sltu rd rs2 => Sys2Proof.Machine.execSltu rd rs2 s
  | .sll rd rs2 => Sys2Proof.Machine.execSll rd rs2 s
  | .srl rd rs2 => Sys2Proof.Machine.execSrl rd rs2 s
  | .sra rd rs2 => Sys2Proof.Machine.execSra rd rs2 s
  | .or rd rs2 => Sys2Proof.Machine.execOr rd rs2 s
  | .and rd rs2 => Sys2Proof.Machine.execAnd rd rs2 s
  | .xor rd rs2 => Sys2Proof.Machine.execXor rd rs2 s
  | .mv rd rs2 => Sys2Proof.Machine.execMv rd rs2 s
  | .jr rd => Sys2Proof.Machine.execJr rd s
  | .jalr rd rs2 => Sys2Proof.Machine.execJalr rd rs2 s
  | .addi rd imm => Sys2Proof.Machine.execAddi rd imm s
  | .slti rd imm => Sys2Proof.Machine.execSlti rd imm s
  | .sltui rd imm => Sys2Proof.Machine.execSltui rd imm s
  | .slli rd shamt => Sys2Proof.Machine.execSlli rd shamt s
  | .srli rd shamt => Sys2Proof.Machine.execSrli rd shamt s
  | .srai rd shamt => Sys2Proof.Machine.execSrai rd shamt s
  | .ori rd imm => Sys2Proof.Machine.execOri rd imm s
  | .andi rd imm => Sys2Proof.Machine.execAndi rd imm s
  | .xori rd imm => Sys2Proof.Machine.execXori rd imm s
  | .li rd imm => Sys2Proof.Machine.execLi rd imm s
  | .beq rs1 rs2 off => Sys2Proof.Machine.execBeq rs1 rs2 off s
  | .bne rs1 rs2 off => Sys2Proof.Machine.execBne rs1 rs2 off s
  | .bz rs1 off => Sys2Proof.Machine.execBz rs1 off s
  | .bnz rs1 off => Sys2Proof.Machine.execBnz rs1 off s
  | .blt rs1 rs2 off => Sys2Proof.Machine.execBlt rs1 rs2 off s
  | .bge rs1 rs2 off => Sys2Proof.Machine.execBge rs1 rs2 off s
  | .bltu rs1 rs2 off => Sys2Proof.Machine.execBltu rs1 rs2 off s
  | .bgeu rs1 rs2 off => Sys2Proof.Machine.execBgeu rs1 rs2 off s
  | .sb rs2 off rs1 => Sys2Proof.Machine.execSb rs2 off rs1 s
  | .sw rs2 off rs1 => Sys2Proof.Machine.execSw rs2 off rs1 s
  | .lb rd off rs2 => Sys2Proof.Machine.execLb rd off rs2 s
  | .lw rd off rs2 => Sys2Proof.Machine.execLw rd off rs2 s
  | .lbu rd off rs2 => Sys2Proof.Machine.execLbu rd off rs2 s
  | .j off => Sys2Proof.Machine.execJ off s
  | .jal rd off => Sys2Proof.Machine.execJal rd off s
  | .lui rd imm9 => Sys2Proof.Machine.execLui rd imm9 s
  | .auipc rd imm9 => Sys2Proof.Machine.execAuipc rd imm9 s
  | .ecall svc => Sys2Proof.Machine.execEcall svc s

end Sys2Proof.Machine
end

