-- ==== Sys2Proof/Machine/Step.lean ====
section
/-! DEFINITION. One step of the machine: the instruction cycle (R23). -/

namespace Sys2Proof.Machine

/-- Decode and execute a fetched word (R23, steps 4 to 7). -/
def execWord (w : Word) (s : State) : Host.Outcome State Fault Refusal :=
  match decode w with
  | .ok i => exec i s
  | .error _ => raise (.illegalInstruction s.pc w)

/-- One step while the run goes on (R23). -/
def stepRunning (s : State) : Host.Outcome State Fault Refusal :=
  match fetch s with
  | .ok w => execWord w s
  | .error f => raise f

/-- One step. A run that a service has ended stays in the state the service left (R202, R276; log 8). No
interrupt is sampled (R252). -/
def step (s : State) : Host.Outcome State Fault Refusal :=
  match s.runState with
  | .running => stepRunning s
  | .halted _ => .next s

/-- `s` with the instruction whose bits are `w` stored where the next fetch reads it, the run going on. -/
def State.withFetchWord (s : State) (nbits w : Nat) : State :=
  { s.placeAtPc (tableWord nbits w) with runState := .running }

end Sys2Proof.Machine
end

