-- ==== Sys2Proof/Machine/Assembly.lean ====
section
/-! DEFINITION. What the spec says of software: operand ranges, the 13 pseudo-instructions as expansions into
instructions, and the calling convention (spec/48_assembler_and_pseudo.md). None of it adds hardware
behaviour; log 26. -/

namespace Sys2Proof.Machine

/-- The ABI name of a register (R10, R232). -/
def abiName : Reg → String
  | .x0 => "t0"
  | .x1 => "ra"
  | .x2 => "sp"
  | .x3 => "s0"
  | .x4 => "s1"
  | .x5 => "t1"
  | .x6 => "a0"
  | .x7 => "a1"

/-- How a call treats a register (R233). -/
inductive CallRole where
  | callerSaved
  | calleeSaved
  | special
  deriving DecidableEq, Repr

/-- The calling convention's table (R233). -/
def callRole : Reg → CallRole
  | .x0 => .callerSaved
  | .x1 => .special
  | .x2 => .special
  | .x3 => .calleeSaved
  | .x4 => .calleeSaved
  | .x5 => .callerSaved
  | .x6 => .callerSaved
  | .x7 => .callerSaved

/-- A signed number as an `n`-bit field, none where it does not fit (R212). -/
def signedField (n : Nat) (v : Int) : Option (BitVec n) :=
  if -(2 ^ (n - 1)) ≤ v ∧ v < 2 ^ (n - 1) then some (BitVec.ofInt n v) else none

/-- An unsigned number as an `n`-bit field, none where it does not fit (R212). -/
def unsignedField (n : Nat) (v : Int) : Option (BitVec n) :=
  if 0 ≤ v ∧ v < 2 ^ n then some (BitVec.ofInt n v) else none

/-- I-type immediate, −64…+63 (R212). -/
def asmImmI (v : Int) : Option (BitVec 7) := signedField 7 v

/-- S- and L-type offset, −8…+7 (R212). -/
def asmByteOffset (v : Int) : Option (BitVec 4) := signedField 4 v

/-- Shift amount, 0…15 (R212). -/
def asmShamt (v : Int) : Option (BitVec 4) := unsignedField 4 v

/-- U-type immediate, 0…511 (R212). -/
def asmImm9 (v : Int) : Option (BitVec 9) := unsignedField 9 v

/-- Service number, 0…1023 (R212). -/
def asmSvc (v : Int) : Option (BitVec 10) := unsignedField 10 v

/-- Branch distance, −16…+14 and even (R212). -/
def asmBranch (v : Int) : Option (BitVec 5) := if v % 2 = 0 then signedField 5 v else none

/-- Jump distance, −512…+510 and even (R212, conflict C7). -/
def asmJump (v : Int) : Option (BitVec 10) := if v % 2 = 0 then signedField 10 v else none

/-- `label − address_of_the_instruction`, modulo 2^16 and read as signed (R212, R219). -/
def labelDistance (label here : Word) : Int := (label - here).toInt

/-- The upper part of a 16-bit constant: `v[15:7]`, one more (modulo 512) where `v[6]` is set (R214, D27). -/
def upperPart (v : Word) : BitVec 9 :=
  if v.getLsbD 6 then v.extractLsb' 7 9 + 1#9 else v.extractLsb' 7 9

/-- The lower part of a 16-bit constant, the ADDI's field `v[6:0]` (R214). -/
def lowerPart (v : Word) : BitVec 7 := v.extractLsb' 0 7

/-- The 13 pseudo-instructions (R213). -/
inductive Pseudo where
  | li16 (rd : Reg) (imm16 : Word)
  | la (rd : Reg) (label : Word)
  | lj (label : Word)
  | push (rd : Reg)
  | pop (rd : Reg)
  | call (label : Word)
  | ret
  | inc (rd : Reg)
  | dec (rd : Reg)
  | neg (rd : Reg)
  | not (rd : Reg)
  | clr (rd : Reg)
  | nop
  deriving DecidableEq, Repr

/-- The two instructions of LI16 (R214). -/
def expandLi16 (rd : Reg) (v : Word) : List Instr := [.lui rd (upperPart v), .addi rd (lowerPart v)]

/-- The two instructions of LA; `here` is the address of the AUIPC (R215). -/
def expandLa (rd : Reg) (label here : Word) : List Instr :=
  [.auipc rd (upperPart (label - here)), .addi rd (lowerPart (label - here))]

/-- The instruction of CALL, none where the label is out of reach or at an odd distance (R219, R212). -/
def expandCall (label here : Word) : Option (List Instr) :=
  match asmJump (labelDistance label here) with
  | some off => some [.jal .x1 off]
  | none => none

/-- The real instructions of a pseudo-instruction placed at address `here` (R213–R226). -/
def expand (here : Word) : Pseudo → Option (List Instr)
  | .li16 rd v => some (expandLi16 rd v)
  | .la rd label => some (expandLa rd label here)
  | .lj label => some (expandLi16 .x0 label ++ [.jr .x0])
  | .push rd => some [.addi .x2 (-2 : BitVec 7), .sw rd 0#4 .x2]
  | .pop rd => some [.lw rd 0#4 .x2, .addi .x2 2#7]
  | .call label => expandCall label here
  | .ret => some [.jr .x1]
  | .inc rd => some [.addi rd 1#7]
  | .dec rd => some [.addi rd (-1 : BitVec 7)]
  | .neg rd => some [.xori rd (-1 : BitVec 7), .addi rd 1#7]
  | .not rd => some [.xori rd (-1 : BitVec 7)]
  | .clr rd => some [.xor rd rd]
  | .nop => some [.ori .x0 0#7]

/-- Instructions executed one after another, stopping at the first fault or refusal. -/
def execAll : List Instr → State → Host.Outcome State Fault Refusal
  | [], s => .next s
  | i :: rest, s =>
    match exec i s with
    | .next t => execAll rest t
    | .fault f => .fault f
    | .refused r => .refused r

end Sys2Proof.Machine
end

