-- ==== Sys2Proof/Safety.lean ====
section
/-! DEFINITION. What counts as a good run, the invariant, and the terms in which claims are stated: frames,
completion, the read and write sets of R12. -/

namespace Sys2Proof.Machine

/-- How a run stands after some steps (R276). -/
inductive RunOutcome where
  /-- A step raised a fault; never a final state (R240). -/
  | fault (f : Fault)
  /-- A service ended the run; the state it left is final (R202). -/
  | halted (svc : BitVec 10) (final : State)
  /-- The run has no meaning from there (R201). -/
  | refused (r : Refusal)
  /-- Still running. -/
  | running (s : State)

/-- The outcome of a run of `n` steps (R276). -/
def runOutcome (n : Nat) (s : State) : RunOutcome :=
  match Host.Core.run core n s with
  | .next t =>
    match State.runState t with
    | .halted svc => .halted svc t
    | .running => .running t
  | .fault f => .fault f
  | .refused r => .refused r

/-- No fault and no refusal within `n` steps. -/
def SafeFor (n : Nat) (s : State) : Prop := ∃ t, Host.Core.run core n s = .next t

/-- The invariant: the storage is in canonical form, and no byte of the MMIO window is storage (R41, R44);
the registers of the device model are in canonical form (log 28). -/
def StorageInv (s : State) : Prop := s.mem.wf = true ∧ deviceRegsWf s.deviceRegs = true

/-- `i` executes at `s`, and the state it leaves satisfies `post`. -/
def Completes (i : Instr) (s : State) (post : State → Prop) : Prop := ∃ t, exec i s = .next t ∧ post t

/-- The same for a sequence of instructions. -/
def AllComplete (is : List Instr) (s : State) (post : State → Prop) : Prop :=
  ∃ t, execAll is s = .next t ∧ post t

/-- Every byte of memory reads as before. -/
def SameMemory (s t : State) : Prop := ∀ a : Nat, t.mem.readByte a = s.mem.readByte a

/-- Every register but those listed reads as before, and its mark is as before (R25). -/
def SameRegsBut (l : List Reg) (s t : State) : Prop :=
  ∀ r, r ∉ l → t.reg r = s.reg r ∧ t.isWritten r = s.isWritten r

/-- Every register of the list may be read: under `UNDEF_REG_READ = fault`, each has been written since reset
(R25, R247). -/
def CanRead (s : State) (l : List Reg) : Prop :=
  s.platform.undefRegRead = .fault → ∀ r ∈ l, s.isWritten r = true

/-- The first register of the list that may not be read is `r` (R247, R248). -/
def FirstUndefined (s : State) (l : List Reg) (r : Reg) : Prop :=
  s.platform.undefRegRead = .fault ∧
    ∃ pre post, l = pre ++ r :: post ∧ (∀ q ∈ pre, s.isWritten q = true) ∧ s.isWritten r = false

/-- The event trace, the device model's registers, the run state and the platform are as before. -/
def SameWorld (s t : State) : Prop :=
  t.trace = s.trace ∧ t.deviceRegs = s.deviceRegs ∧ t.runState = s.runState ∧ t.platform = s.platform

/-- Only register `rd` and the pc may have changed. -/
def OnlyReg (rd : Reg) (s t : State) : Prop := SameRegsBut [rd] s t ∧ SameMemory s t ∧ SameWorld s t

/-- Only the pc may have changed. -/
def OnlyPc (s t : State) : Prop := SameRegsBut [] s t ∧ SameMemory s t ∧ SameWorld s t

/-- The next instruction is the one at `pc + 2`, modulo 2^16 (R15). -/
def NextInSequence (s t : State) : Prop := t.pc.toNat = (s.pc.toNat + 2) % 65536

/-- The address lies in a read-only range of the platform, both ends included (R43). -/
def InRom (p : Platform) (a : Word) : Prop :=
  ∃ r ∈ p.romRanges, r.first.toNat ≤ a.toNat ∧ a.toNat ≤ r.last.toNat

/-- The general registers an instruction reads (R12), the field `w[8:6]` before `w[11:9]` (R248); ECALL reads
what its service reads. -/
def reads : Instr → List Reg
  | .add rd rs2 => [rd, rs2]
  | .sub rd rs2 => [rd, rs2]
  | .slt rd rs2 => [rd, rs2]
  | .sltu rd rs2 => [rd, rs2]
  | .sll rd rs2 => [rd, rs2]
  | .srl rd rs2 => [rd, rs2]
  | .sra rd rs2 => [rd, rs2]
  | .or rd rs2 => [rd, rs2]
  | .and rd rs2 => [rd, rs2]
  | .xor rd rs2 => [rd, rs2]
  | .mv _ rs2 => [rs2]
  | .jr rd => [rd]
  | .jalr _ rs2 => [rs2]
  | .addi rd _ => [rd]
  | .slti rd _ => [rd]
  | .sltui rd _ => [rd]
  | .slli rd _ => [rd]
  | .srli rd _ => [rd]
  | .srai rd _ => [rd]
  | .ori rd _ => [rd]
  | .andi rd _ => [rd]
  | .xori rd _ => [rd]
  | .li _ _ => []
  | .beq rs1 rs2 _ => [rs1, rs2]
  | .bne rs1 rs2 _ => [rs1, rs2]
  | .bz rs1 _ => [rs1]
  | .bnz rs1 _ => [rs1]
  | .blt rs1 rs2 _ => [rs1, rs2]
  | .bge rs1 rs2 _ => [rs1, rs2]
  | .bltu rs1 rs2 _ => [rs1, rs2]
  | .bgeu rs1 rs2 _ => [rs1, rs2]
  | .sb rs2 _ rs1 => [rs1, rs2]
  | .sw rs2 _ rs1 => [rs1, rs2]
  | .lb _ _ rs2 => [rs2]
  | .lw _ _ rs2 => [rs2]
  | .lbu _ _ rs2 => [rs2]
  | .j _ => []
  | .jal _ _ => []
  | .lui _ _ => []
  | .auipc _ _ => []
  | .ecall _ => []

/-- The general registers an instruction writes (R12); ECALL writes what its service writes. -/
def writes : Instr → List Reg
  | .add rd _ => [rd]
  | .sub rd _ => [rd]
  | .slt rd _ => [rd]
  | .sltu rd _ => [rd]
  | .sll rd _ => [rd]
  | .srl rd _ => [rd]
  | .sra rd _ => [rd]
  | .or rd _ => [rd]
  | .and rd _ => [rd]
  | .xor rd _ => [rd]
  | .mv rd _ => [rd]
  | .jr _ => []
  | .jalr rd _ => [rd]
  | .addi rd _ => [rd]
  | .slti rd _ => [rd]
  | .sltui rd _ => [rd]
  | .slli rd _ => [rd]
  | .srli rd _ => [rd]
  | .srai rd _ => [rd]
  | .ori rd _ => [rd]
  | .andi rd _ => [rd]
  | .xori rd _ => [rd]
  | .li rd _ => [rd]
  | .beq _ _ _ => []
  | .bne _ _ _ => []
  | .bz _ _ => []
  | .bnz _ _ => []
  | .blt _ _ _ => []
  | .bge _ _ _ => []
  | .bltu _ _ _ => []
  | .bgeu _ _ _ => []
  | .sb _ _ _ => []
  | .sw _ _ _ => []
  | .lb rd _ _ => [rd]
  | .lw rd _ _ => [rd]
  | .lbu rd _ _ => [rd]
  | .j _ => []
  | .jal rd _ => [rd]
  | .lui rd _ => [rd]
  | .auipc rd _ => [rd]
  | .ecall _ => []

/-- The instruction is an ECALL, whose effects are its service's. -/
def isEcall : Instr → Bool
  | .ecall _ => true
  | _ => false

/-- The instruction jumps to an address held in a register (R111, R112). -/
def isRegisterJump : Instr → Bool
  | .jr _ => true
  | .jalr _ _ => true
  | _ => false

end Sys2Proof.Machine
end

