-- ==== Sys2Proof/Certificates/Slice0/Obligations.lean ====
section
/-! DEFINITION. The statements for the provers, made from the numbered rules of spec/. The terms they use
stand first; frames, completion and the invariant are in Sys2Proof/Safety.lean. -/

namespace Sys2Proof.Statements

open Sys2Proof.Machine

/-- A register number shifted to a field: `r<<k` in the rules' encoding formulas. -/
def regAt (r : Reg) (k : Nat) : Word := r.bits.setWidth 16 <<< k

/-- `base | s<<9 | d<<6` (R100–R112). -/
def rWord (base : Word) (s d : Reg) : Word := base ||| regAt s 9 ||| regAt d 6

/-- `base | (imm7 & 0x7F)<<9 | d<<6` (R120–R129). -/
def iWord (base : Word) (imm : BitVec 7) (d : Reg) : Word := base ||| (imm.setWidth 16 <<< 9) ||| regAt d 6

/-- `base | shamt<<9 | d<<6` (R123–R125). -/
def shiftWord (base : Word) (shamt : BitVec 4) (d : Reg) : Word :=
  base ||| (shamt.setWidth 16 <<< 9) ||| regAt d 6

/-- `base | (offset>>1 & 0xF)<<12 | b<<9 | a<<6` (R141–R148). -/
def bWord (base : Word) (off : BitVec 5) (b a : Reg) : Word :=
  base ||| (((off.setWidth 16 >>> 1) &&& 0xF#16) <<< 12) ||| regAt b 9 ||| regAt a 6

/-- `base | (offset & 0xF)<<12 | x<<9 | y<<6` (R161–R173). -/
def memWord (base : Word) (off : BitVec 4) (x y : Reg) : Word :=
  base ||| (off.setWidth 16 <<< 12) ||| regAt x 9 ||| regAt y 6

/-- `base | o[9:4]<<9 | d<<6 | o[3:1]<<3` (R181, R182). -/
def jWord (base : Word) (o : BitVec 10) (d : Reg) : Word :=
  base ||| ((o.extractLsb' 4 6).setWidth 16 <<< 9) ||| regAt d 6 ||| ((o.extractLsb' 1 3).setWidth 16 <<< 3)

/-- `base | imm9[8:3]<<9 | d<<6 | imm9[2:0]<<3` (R191, R192). -/
def uWord (base : Word) (imm9 : BitVec 9) (d : Reg) : Word :=
  base ||| ((imm9.extractLsb' 3 6).setWidth 16 <<< 9) ||| regAt d 6 |||
    ((imm9.extractLsb' 0 3).setWidth 16 <<< 3)

/-- Where its operands may be read (R247), `i` completes, its one result is a value of register `d` with
property `P`, which is then written (R25), and the next instruction in sequence follows. -/
def WritesRegister (i : Instr) (s : State) (d : Reg) (P : Word → Prop) : Prop :=
  CanRead s (reads i) →
    Completes i s (fun t => P (t.reg d) ∧ t.isWritten d = true ∧ NextInSequence s t ∧ OnlyReg d s t)

/-- Where its operands may be read (R247), `i` completes, changing the pc only: to `pc + offset` where `cond`
holds, else to `pc + 2`, both modulo 2^16 (R140). -/
def BranchesWhen (i : Instr) (s : State) (cond : Prop) (off : BitVec 5) : Prop :=
  CanRead s (reads i) →
    Completes i s (fun t =>
      (cond → (t.pc.toNat : Int) = ((s.pc.toNat : Int) + off.toInt) % 65536) ∧
      (¬ cond → NextInSequence s t) ∧ OnlyPc s t)

/-- What the step after a register jump does where the target is odd, or even and in the MMIO window
(R111, R112, R243, R246). -/
def TargetCheckedByNextFetch (s t : State) (target : Word) : Prop :=
  s.runState = .running →
    (target.toNat % 2 = 1 → step t = .fault (.misalignedFetch target)) ∧
    (target.toNat % 2 = 0 → 0xF000 ≤ target.toNat → step t = .fault (.fetchFromMmio target))

/-- `addr = (x[base] + sext_4(imm4)) mod 2^16` (R46). -/
def AddressFormula (s : State) (base : Reg) (off : BitVec 4) (addr : Word) : Prop :=
  (addr.toNat : Int) = (((s.reg base).toNat : Int) + off.toInt) % 65536

/-- What every completed access of the device leaves as it was, and the next instruction in sequence. -/
def AccessFrame (l : List Reg) (s t : State) : Prop :=
  SameRegsBut l s t ∧ t.runState = s.runState ∧ t.platform = s.platform ∧ NextInSequence s t

/-- What a supplied device model may do beside its own registers: write a storage byte outside ROM and the
MMIO window (R40, R43; log 28). -/
def DeviceMay (s : State) : Effect DeviceTarget DeviceRegion → Prop
  | .set _ _ => True
  | .store .register _ _ => True
  | .store .storage a _ => a.toNat < 0xF000 ∧ ¬ InRom s.platform a
  | .asked => True

/-- From `s` to `t` the effects `es` of a device model are done, and no other: the last store to a storage
byte or to a register of the device stands, and what no effect stores to reads as before. -/
def DeviceEffectsDone (es : List (Effect DeviceTarget DeviceRegion)) (s t : State) : Prop :=
  (∀ b : Nat, (∀ a x, Effect.store .storage a x ∈ es → a.toNat ≠ b) → t.mem.readByte b = s.mem.readByte b) ∧
  (∀ a x pre post, es = pre ++ .store .storage a x :: post → (∀ y, Effect.store .storage a y ∉ post) →
    (t.mem.readByte a.toNat).toNat = x.toNat % 256) ∧
  (∀ i, (∀ x, Effect.store .register i x ∉ es) →
    readDeviceReg t.deviceRegs i = readDeviceReg s.deviceRegs i) ∧
  (∀ i x pre post, es = pre ++ .store .register i x :: post → (∀ y, Effect.store .register i y ∉ post) →
    readDeviceReg t.deviceRegs i = x)

/-- `x` is the last answer that the effects give, or `default` where they give none. -/
def AnswerIs (es : List (Effect DeviceTarget DeviceRegion)) (default x : Word) : Prop :=
  (∀ y pre post, es = pre ++ .set .answer y :: post → (∀ z, Effect.set .answer z ∉ post) → x = y) ∧
  ((∀ y, Effect.set .answer y ∉ es) → x = default)

/-- A store reaches the device (R37, R44). No device model supplied: one event, no storage byte and no
device register changed. A device model supplied: its write program runs on the address, the width and the
low `8n` bits; it has its effects and one event is appended, or the access is refused. -/
def DeviceStored (i : Instr) (s : State) (addr : Word) (n : Width) (v : Nat) : Prop :=
  ∀ w : Word, w.toNat = v →
    (s.platform.device = none → Completes i s (fun t =>
      t.trace = s.trace ++ [.mmioWrite addr n w] ∧ SameMemory s t ∧ t.deviceRegs = s.deviceRegs ∧
        AccessFrame [] s t)) ∧
    (∀ d, s.platform.device = some d →
      (∀ es, d.write.effects (deviceEnv s addr n w) = .ok es → (∀ e ∈ es, DeviceMay s e) →
        Completes i s (fun t =>
          t.trace = s.trace ++ [.mmioWrite addr n w] ∧ DeviceEffectsDone es s t ∧ AccessFrame [] s t)) ∧
      ((∀ es, d.write.effects (deviceEnv s addr n w) = .ok es → ∃ e ∈ es, ¬ DeviceMay s e) →
        exec i s = .refused (.deviceRefused addr)))

/-- A load reaches the device (R36, R44): one event, and `P` relates the answer to the register's new value.
No device model supplied: the answer is free, no storage byte and no device register changed. A device model
supplied: its read program runs on the address and the width; it has its effects and answers the last answer
it gives, else a free one, or the access is refused. -/
def DeviceLoaded (i : Instr) (s : State) (r : Reg) (addr : Word) (n : Width) (P : Word → Word → Prop) : Prop :=
  (s.platform.device = none → Completes i s (fun t =>
    P (Config.mmioRead s.trace addr n) (t.reg r) ∧ t.trace = s.trace ++ [.mmioRead addr n] ∧ SameMemory s t ∧
      t.deviceRegs = s.deviceRegs ∧ AccessFrame [r] s t)) ∧
  (∀ d, s.platform.device = some d →
    (∀ es, d.read.effects (deviceEnv s addr n 0#16) = .ok es → (∀ e ∈ es, DeviceMay s e) →
      Completes i s (fun t =>
        (∃ x, AnswerIs es (Config.mmioRead s.trace addr n) x ∧ P x (t.reg r)) ∧
          t.trace = s.trace ++ [.mmioRead addr n] ∧ DeviceEffectsDone es s t ∧ AccessFrame [r] s t)) ∧
    ((∀ es, d.read.effects (deviceEnv s addr n 0#16) = .ok es → ∃ e ∈ es, ¬ DeviceMay s e) →
      exec i s = .refused (.deviceRefused addr)))

/-- The reserved sets of R82 to R86, by the bits of the word. -/
def Reserved (w : Word) : Prop :=
  let op := w.toNat % 8
  let func3 := w.toNat / 8 % 8
  let funct4 := w.toNat / 4096
  (op = 0 ∧ (funct4, func3) ∉ [(0, 0), (1, 0), (2, 1), (3, 2), (4, 3), (5, 3), (6, 3), (7, 4), (8, 5), (9, 6),
    (10, 7), (11, 0), (12, 0)]) ∨
  (op = 1 ∧ func3 = 3 ∧ w.toNat / 8192 ∉ [1, 2, 4]) ∨
  (op = 3 ∧ func3 ∉ [0, 1]) ∨
  (op = 4 ∧ func3 ∉ [0, 1, 4]) ∨
  (op = 7 ∧ func3 ≠ 0)

/-- The bits of the fields an instruction ignores (R87): rs2 of JR, BZ and BNZ, rd of J. -/
def ignoredBits : Instr → Word
  | .jr _ => 0x0E00#16
  | .bz _ _ => 0x0E00#16
  | .bnz _ _ => 0x0E00#16
  | .j _ => 0x01C0#16
  | _ => 0x0000#16

/-- The effective address of a load or store (R38, R46). -/
def accessAddress (s : State) : Instr → Option Word
  | .sb _ off rs1 => some (effectiveAddress (s.reg rs1) off)
  | .sw _ off rs1 => some (effectiveAddress (s.reg rs1) off)
  | .lb _ off rs2 => some (effectiveAddress (s.reg rs2) off)
  | .lw _ off rs2 => some (effectiveAddress (s.reg rs2) off)
  | .lbu _ off rs2 => some (effectiveAddress (s.reg rs2) off)
  | _ => none

/-- `i` accesses address `a` of the MMIO window, and a device model is supplied (R7, R44). -/
def ReachesDeviceModel (s : State) (i : Instr) (a : Word) : Prop :=
  s.platform.device ≠ none ∧ accessAddress s i = some a ∧ 0xF000 ≤ a.toNat

/-- The accesses an instruction other than ECALL makes to the device (R36, R37, R38, R48). -/
def deviceEvents (s : State) : Instr → List Event
  | .sb rs2 off rs1 =>
    let a := effectiveAddress (s.reg rs1) off
    if 0xF000 ≤ a.toNat then [.mmioWrite a .byte (BitVec.ofNat 16 ((s.reg rs2).toNat % 256))] else []
  | .sw rs2 off rs1 =>
    let a := effectiveAddress (s.reg rs1) off
    if 0xF000 ≤ a.toNat then [.mmioWrite a .word (s.reg rs2)] else []
  | .lb _ off rs2 =>
    let a := effectiveAddress (s.reg rs2) off
    if 0xF000 ≤ a.toNat then [.mmioRead a .byte] else []
  | .lw _ off rs2 =>
    let a := effectiveAddress (s.reg rs2) off
    if 0xF000 ≤ a.toNat then [.mmioRead a .word] else []
  | .lbu _ off rs2 =>
    let a := effectiveAddress (s.reg rs2) off
    if 0xF000 ≤ a.toNat then [.mmioRead a .byte] else []
  | _ => []

/-- `v` is the entry of the platform's table for service `svc`. -/
def IsServiceOf (s : State) (svc : BitVec 10) (v : Service) : Prop :=
  s.platform.services.find? (fun x => x.svc == svc) = some v

/-- The faults that follow the operand read (R244, R245), in the order of R248: an odd address of LW or SW,
then a byte of ROM that SB or SW would write; of an ECALL, a never-written register that its service reads
(R201, R247). -/
def RaisesLater (s : State) (f : Fault) : Instr → Prop
  | .lw _ off rs2 =>
    let a := effectiveAddress (s.reg rs2) off
    a.toNat % 2 = 1 ∧ f = .misalignedAccess s.pc a
  | .sw _ off rs1 =>
    let a := effectiveAddress (s.reg rs1) off
    (a.toNat % 2 = 1 ∧ f = .misalignedAccess s.pc a) ∨
    (a.toNat % 2 = 0 ∧ a.toNat < 0xF000 ∧ (InRom s.platform a ∨ InRom s.platform (a + 1#16)) ∧
      f = .storeToRom s.pc a)
  | .sb _ off rs1 =>
    let a := effectiveAddress (s.reg rs1) off
    a.toNat < 0xF000 ∧ InRom s.platform a ∧ f = .storeToRom s.pc a
  | .ecall svc =>
    ∃ v r, IsServiceOf s svc v ∧ v.effects s = .error (.fault (.undefinedRegisterRead s.pc r)) ∧
      s.platform.undefRegRead = .fault ∧ s.isWritten r = false ∧ f = .undefinedRegisterRead s.pc r
  | _ => False

/-- The faults an instruction can raise once decoded (R240), in the order of R248: a register that it reads and
that may not be read (R247), the field `w[8:6]` before `w[11:9]`, then those of `RaisesLater`. -/
def RaisesFault (s : State) (f : Fault) (i : Instr) : Prop :=
  (∃ r, FirstUndefined s (reads i) r ∧ f = .undefinedRegisterRead s.pc r) ∨
  (CanRead s (reads i) ∧ RaisesLater s f i)

/-- The outcome with a next state replaced. -/
def mapNext (g : State → State) : Host.Outcome State Fault Refusal → Host.Outcome State Fault Refusal
  | .next t => .next (g t)
  | .fault f => .fault f
  | .refused r => .refused r

/-- The instruction does not transfer control and is not ECALL (R15, first row of its table). -/
def isSequential : Instr → Bool
  | .jr _ => false
  | .jalr _ _ => false
  | .beq _ _ _ => false
  | .bne _ _ _ => false
  | .bz _ _ => false
  | .bnz _ _ => false
  | .blt _ _ _ => false
  | .bge _ _ _ => false
  | .bltu _ _ _ => false
  | .bgeu _ _ _ => false
  | .j _ => false
  | .jal _ _ => false
  | .ecall _ => false
  | _ => true

/-- The instruction writes memory: SB, SW, or an ECALL whose service may (R12). -/
def mayStore : Instr → Bool
  | .sb _ _ _ => true
  | .sw _ _ _ => true
  | .ecall _ => true
  | _ => false

/-- What R201 lets a service do (row "output"): it writes only bytes the program itself could write. -/
def Permitted (s : State) : Effect ServiceTarget ServiceRegion → Prop
  | .set _ _ => True
  | .store .storage a _ => a.toNat < 0xF000 ∧ ¬ InRom s.platform a
  | .asked => True

/-- A later effect `l` gives a new value to what the effect `e` gave one. -/
def Overwrites (l e : Effect ServiceTarget ServiceRegion) : Prop :=
  match l, e with
  | .set (.reg q) _, .set (.reg r) _ => q = r
  | .store .storage b _, .store .storage a _ => b = a
  | _, _ => False

/-- The event that an effect of service `svc` leaves in the trace. -/
def eventOf (svc : BitVec 10) : Effect ServiceTarget ServiceRegion → Option Event
  | .set .output x => some (.serviceOutput svc x)
  | .set _ _ => none
  | .store _ _ _ => none
  | .asked => some (.serviceInput svc)

/-- The effect of service `svc` shows in the state `t` after the ECALL. -/
def Stands (svc : BitVec 10) (s t : State) : Effect ServiceTarget ServiceRegion → Prop
  | .set (.reg r) x => t.reg r = x ∧ t.isWritten r = true
  | .set .output x => ∃ pre post, t.trace = s.trace ++ pre ++ .serviceOutput svc x :: post
  | .set .endRun x => x ≠ 0#16 → t.pc = s.pc ∧ t.runState = .halted svc
  | .store .storage a x => (t.mem.readByte a.toNat).toNat = x.toNat % 256
  | .asked => ∃ pre post, t.trace = s.trace ++ pre ++ .serviceInput svc :: post

/-- Every effect that no later one overwrites shows in `t`, and the trace has grown by exactly their events,
in order. -/
def EffectsStand (svc : BitVec 10) (es : List (Effect ServiceTarget ServiceRegion)) (s t : State) : Prop :=
  (∀ e pre post, es = pre ++ e :: post → (∀ l ∈ post, ¬ Overwrites l e) → Stands svc s t e) ∧
  t.trace = s.trace ++ es.filterMap (eventOf svc)

/-- Commands one after the other. -/
def inOrder {α β ρ : Type} : List (Program α β ρ) → Program α β ρ
  | [] => .skip
  | c :: cs => .seq c (inOrder cs)

/-- The effect of a command that gives a register, an output, the end of the run or a byte the value of an
expression, each read in the state at the ECALL of service `svc` (R16). -/
def plainEffect (svc : BitVec 10) (s : State) :
    Program ServiceSource ServiceTarget ServiceRegion → Option (Effect ServiceTarget ServiceRegion)
  | .set t e =>
    match e.eval (serviceEnv svc s) [] with
    | .ok x => some (.set t x)
    | .error _ => none
  | .store r i e =>
    match i.eval (serviceEnv svc s) [], e.eval (serviceEnv svc s) [] with
    | .ok a, .ok x => some (.store r a x)
    | _, _ => none
  | _ => none

/-- The scratch cells after `k` values have been taken from outside: cell `j` holds the `j`-th. -/
def outsideCells (outside : Nat → Word) : Nat → Table Word
  | 0 => []
  | k + 1 => (outsideCells outside k).write (BitVec.ofNat 16 k).toNat (outside k)

/-- The value of the storage byte at an address. -/
def byteValue (s : State) (a : Nat) : Nat := (s.mem.readByte a).toNat

/-- The last pair for `k` gives the value `v`. -/
def GivesLast {β : Type} (l : List (Word × β)) (k : Word) (v : β) : Prop :=
  ∃ pre post, l = pre ++ (k, v) :: post ∧ ∀ w, (k, w) ∉ post

/-- The storage is the image where the image has bytes, and unspecified elsewhere (R271, R274). -/
def HoldsImage (image : Image) (s : State) : Prop :=
  (∀ a b, GivesLast image a b → a.toNat < 0xF000 → s.mem.readByte a.toNat = b) ∧
  ∀ a : Nat, (∀ e ∈ image, e.1.toNat < 0xF000 → e.1.toNat ≠ a) → s.mem.readByte a = Config.unspecifiedByte a

/-- The device registers are in the device model's own initial state (R271; log 28). -/
def HoldsInitialDevice (p : Platform) (s : State) : Prop :=
  (∀ d, p.device = some d → ∀ i v, GivesLast d.initial i v → readDeviceReg s.deviceRegs i = v) ∧
  ∀ i, (∀ d v, p.device = some d → (i, v) ∉ d.initial) →
    readDeviceReg s.deviceRegs i = Config.unspecifiedDeviceRegister i.toNat

end Sys2Proof.Statements

open Sys2Proof Sys2Proof.Machine Sys2Proof.Statements

/-! The machine as a whole -/

/-- R23, steps 1 to 4, in the order of R248, and the execution of the decoded instruction, whose operand
read and memory access raise the faults that FaultsOfDecodedInstructionsAreExact gives. The two fetch
faults and the illegal-word fault are the spec's decisions (logs 11, 12, 13), as is the byte order of the
fetch (log 18). -/
def Obligations.StepFollowsTheInstructionCycle : Prop :=
  ∀ s : State, s.runState = .running →
    (s.pc.toNat % 2 = 1 → step s = .fault (.misalignedFetch s.pc)) ∧
    (s.pc.toNat % 2 = 0 → 0xF000 ≤ s.pc.toNat → step s = .fault (.fetchFromMmio s.pc)) ∧
    (s.pc.toNat % 2 = 0 → s.pc.toNat < 0xF000 →
      ∀ w : Word, w.toNat = byteValue s s.pc.toNat + 256 * byteValue s (s.pc.toNat + 1) →
        (∀ i, decode w = .ok i → wellFormed i = true → step s = exec i s) ∧
        (∀ e, decode w = .error e → step s = .fault (.illegalInstruction s.pc w)))

/-- R31, R272, R274: a well-formed instruction placed in storage at an even storage pc is what the very next
step runs; nothing but the two bytes (and the run state) is changed by placing it. The byte order of the fetch
is the spec's decision D23 (log 18); that `withFetchWord` stands for a load, and sets the run going, is the
model's choice (log 23). -/
def Obligations.PlacedInstructionRunsNext : Prop :=
  ∀ (i : Instr) (s : State), wellFormed i = true → s.pc.toNat % 2 = 0 → s.pc.toNat < 0xF000 →
    let t := s.withFetchWord 16 (encode i).toNat
    decodeTableWord 16 (encode i).toNat = some i ∧
    step t = exec i t ∧ t.runState = .running ∧ t.pc = s.pc ∧ SameRegsBut [] s t ∧ t.trace = s.trace ∧
    t.deviceRegs = s.deviceRegs ∧ t.platform = s.platform ∧
    (∀ a : Nat, a ≠ s.pc.toNat → a ≠ s.pc.toNat + 1 → t.mem.readByte a = s.mem.readByte a)

/-- R24, R25, R271, R272, R274: what reset leaves on any platform with any image, but for the registers' values,
to which the spec gives none; no register counts as written (its decision D3, log 2); the words of an image are
little-endian. That the image's word at 0x0000 is executed, as the first to run, is the spec's decision D19 (log
21), the byte order of that fetch its decision D23 (log 18). That an unlisted storage byte reads as one free
value per address is the model's choice (log 3). `State.reset` is on R7's default platform but for
`UNDEF_REG_READ`, the model's choice (log 2), and has no image. That a pair of an image for the MMIO window is
left out, and of two pairs for one byte the later counts, is the model's choice (log 23), as are the form of a
device model's initial state and the free value of a register it does not name (log 28). -/
def Obligations.ResetLeavesPcZeroAndTheImage : Prop :=
  (∀ (p : Platform) (image : Image),
    let s := State.resetOn p image
    s.pc.toNat = 0 ∧ s.trace = [] ∧ s.runState = .running ∧ s.platform = p ∧
    (∀ r : Reg, s.isWritten r = false) ∧ HoldsImage image s ∧ HoldsInitialDevice p s ∧
    (∀ (lo hi : Byte) (w : Word) (i : Instr), GivesLast image 0x0000#16 lo → GivesLast image 0x0001#16 hi →
      w.toNat = lo.toNat + 256 * hi.toNat → decode w = .ok i → step s = exec i s)) ∧
  (∀ (p : Platform) (a : Word) (ws : List Word) (k : Nat) (w : Word), ws[k]? = some w →
    a.toNat + 2 * ws.length ≤ 0xF000 →
    byteValue (State.resetOn p (Image.words a ws)) (a.toNat + 2 * k) = w.toNat % 256 ∧
    byteValue (State.resetOn p (Image.words a ws)) (a.toNat + 2 * k + 1) = w.toNat / 256) ∧
  (Platform.specDefault.undefRegRead = .fault ∧ Platform.specDefault.romRanges = [] ∧
    Platform.specDefault.services = [] ∧ Platform.specDefault.device = none) ∧
  State.reset = State.resetOn { Platform.specDefault with undefRegRead := .anyValue } []

/-- The invariant holds at reset, on every platform and with every image; the list forms are the model's choice
(logs 3, 28). -/
def Obligations.ResetSatisfiesInvariant : Prop :=
  StorageInv State.reset ∧ ∀ (p : Platform) (image : Image), StorageInv (State.resetOn p image)

/-- Words written out from the spec's encodings (R80, spec/95_test_vectors.md 2.8), one or more a format.
0xBA40, 0x7E52 and 0x7EFD have a non-zero ignored field, which for JR and J is the spec's decision (log 14);
that 0xFFFF is illegal is its decision too (log 13). -/
def Obligations.SampleWordsDecode : Prop :=
  decode 0x0440#16 = .ok (.add .x1 .x2) ∧ decode 0xC240#16 = .ok (.jalr .x1 .x1) ∧
  decode 0xBA40#16 = .ok (.jr .x1) ∧ decode 0xFE41#16 = .ok (.addi .x1 0x7F#7) ∧
  decode 0x8659#16 = .ok (.srai .x1 3#4) ∧ decode 0xE44A#16 = .ok (.bne .x1 .x2 0b11100#5) ∧
  decode 0x8283#16 = .ok (.sb .x1 0b1000#4 .x2) ∧ decode 0xF464#16 = .ok (.lbu .x1 0b1111#4 .x2) ∧
  decode 0x7E52#16 = .ok (.bz .x1 14#5) ∧ decode 0x7EFD#16 = .ok (.j 0x3FE#10) ∧
  decode 0x8255#16 = .ok (.jal .x1 20#10) ∧
  decode 0x7886#16 = .ok (.lui .x2 0x1E0#9) ∧
  decode 0x0287#16 = .ok (.ecall 10#10) ∧
  decode 0xFFFF#16 = .error .sysTypeFunc3

/-- R60–R87: every well-formed instruction, with every operand at every value, decodes from its own word. That the
encoder writes 0 in the unused fields is the spec's decision D12 (log 14). -/
def Obligations.DecodeOfEncodeIsIdentity : Prop :=
  ∀ i : Instr, wellFormed i = true → decode (encode i) = .ok i

/-- R80, R87: a word that decodes gives a well-formed instruction, whose own word is that word with the ignored
fields cleared. That JR and J ignore a field is the spec's decision D12 (log 14), as is what else is illegal
(D10, D11, D13, D14, log 13). -/
def Obligations.EncodeOfDecodeClearsIgnoredFields : Prop :=
  ∀ (w : Word) (i : Instr), decode w = .ok i →
    wellFormed i = true ∧ encode i = w &&& ~~~ ignoredBits i

/-- R81–R86: the words that match no row are exactly those of the reserved sets; the sets are the spec's decisions
D10, D11, D13, D14 (log 13). -/
def Obligations.IllegalWordsAreTheReservedSets : Prop :=
  ∀ w : Word, (∃ e, decode w = .error e) ↔ Reserved w

/-- R21, R41, R44: a step keeps the storage canonical and never turns a byte of the MMIO window into
storage; it keeps the device model's registers canonical. The list forms are the model's choice (logs 3, 28). -/
def Obligations.StepKeepsInvariant : Prop :=
  ∀ s t : State, StorageInv s → step s = .next t → StorageInv t

/-- R43, R7: over any run from any state, the platform's parameters and every byte in `ROM_RANGES` stay; over a
run from reset such a byte holds the image's. That a store there faults is the spec's decision D6 (log 9); that
of two pairs of an image for one byte the later counts is the model's choice (log 23). -/
def Obligations.RunKeepsRomAndPlatform : Prop :=
  (∀ (n : Nat) (s t : State), Host.Core.run core n s = .next t →
    t.platform = s.platform ∧
    ∀ a : Word, InRom s.platform a → t.mem.readByte a.toNat = s.mem.readByte a.toNat) ∧
  ∀ (n : Nat) (p : Platform) (image : Image) (t : State), Host.Core.run core n (State.resetOn p image) = .next t →
    ∀ a b, InRom p a → GivesLast image a b → a.toNat < 0xF000 → t.mem.readByte a.toNat = b

/-- R48 (3), the spec's decision D21 (log 22): an access to the device is appended in program order, exactly
once. That the accesses stand in the trace is R44's default for stores (log 5); the events of loads are the
model's addition (log 4). ECALL is left out: its events are its service's. -/
def Obligations.TraceGrowsByTheDeviceAccess : Prop :=
  ∀ (i : Instr) (s t : State), isEcall i = false → exec i s = .next t →
    t.trace = s.trace ++ deviceEvents s i

/-- R17: only JR and JALR can make an even pc odd. That offsets count from the instruction's own address is the
spec's derived reading D1 (log 16), the wrap its decision D2 (log 17), that a service does not move the pc its
decision D16 (log 6). -/
def Obligations.PcStaysEvenExceptRegisterJumps : Prop :=
  ∀ (i : Instr) (s t : State), wellFormed i = true → isRegisterJump i = false → s.pc.toNat % 2 = 0 →
    exec i s = .next t → t.pc.toNat % 2 = 0

/-- R201, R240, R244, R245, R247, R248, R113 (b), R130 (d): the faults of a decoded instruction, exactly, under
either value of `UNDEF_REG_READ`; under `any value` the read fault never occurs. The faults are the spec's
decisions (logs 9, 10); that `State.reset` takes `any value` is the model's choice (log 2), as is which of several
reads by a service is the one reported (log 7). -/
def Obligations.FaultsOfDecodedInstructionsAreExact : Prop :=
  ∀ (i : Instr) (s : State) (f : Fault), exec i s = .fault f ↔ RaisesFault s f i

/-- R201, R44, R276: an instruction is refused only where the environment refuses it: an ECALL, or a load or
store in the MMIO window where a device model is supplied (R44: "A model may instead refuse"; log 28). That a
missing service is refused is the spec's decision D16 (log 6); the refusal of what a service may not do is the
model's choice (log 7). -/
def Obligations.OnlyTheEnvironmentRefuses : Prop :=
  ∀ (i : Instr) (s : State) (r : Refusal), exec i s = .refused r →
    (∃ svc, i = .ecall svc ∧ (r = .unmodelledService svc ∨ r = .serviceNotPermitted svc)) ∨
    (∃ a, ReachesDeviceModel s i a ∧ r = .deviceRefused a)

/-- R12: a register that an instruction does not read has no influence on it, nor has its mark (log 2). That the
register of an unused field is not read is, for JR and J, the spec's decision D12 (R87, log 14). -/
def Obligations.UnreadRegistersDoNotMatter : Prop :=
  ∀ (i : Instr) (s : State) (r : Reg) (v : Word), isEcall i = false → r ∉ reads i →
    exec i (s.setReg r v) = mapNext (fun t => if r ∈ writes i then t else t.setReg r v) (exec i s)

/-- R12: an instruction changes no register but those it writes, and only SB, SW and ECALL change memory,
unless the access reaches a supplied device model, which may (R40; log 28). R25: a write sets the register's
mark, and nothing clears one; that the marks are kept under either value of `UNDEF_REG_READ` is the model's choice
(log 2). -/
def Obligations.OnlyNamedDestinationsChange : Prop :=
  ∀ (i : Instr) (s t : State), exec i s = .next t →
    (isEcall i = false → SameRegsBut (writes i) s t ∧ t.runState = s.runState) ∧
    (∀ r, r ∈ writes i ∨ s.isWritten r = true → t.isWritten r = true) ∧
    (mayStore i = false → (∀ a, ¬ ReachesDeviceModel s i a) → SameMemory s t) ∧
    ((∀ a, ¬ ReachesDeviceModel s i a) → t.deviceRegs = s.deviceRegs) ∧ t.platform = s.platform

/-- R15: an instruction that does not transfer control is followed by the one at `pc + 2`; the wrap is the spec's
decision D2 (log 17). -/
def Obligations.SequentialInstructionsAdvanceByTwo : Prop :=
  ∀ (i : Instr) (s t : State), isSequential i = true → exec i s = .next t → NextInSequence s t

/-- The model's choice, log 8 (R276 says the state a service left is final): a halted run stays as it is. -/
def Obligations.HaltedRunStays : Prop :=
  ∀ (s : State) (svc : BitVec 10) (n : Nat), s.runState = .halted svc →
    step s = .next s ∧ Host.Core.run core n s = .next s

/-- R51: a word stored by SW is what a later fetch at its address reads: the spec's decision D22 (log 19). That
it is the very word stored rests on the byte order of the fetch, the spec's decision D23 (R31, log 18). -/
def Obligations.StoredWordIsSeenByFetch : Prop :=
  ∀ (t a : Reg) (off : BitVec 4) (s : State),
    let ea := effectiveAddress (s.reg a) off
    CanRead s [a, t] →
    ea.toNat % 2 = 0 → ea.toNat < 0xF000 → ¬ InRom s.platform ea → ¬ InRom s.platform (ea + 1#16) →
    Completes (.sw t off a) s (fun u => fetch (u.setPc ea) = .ok (s.reg t))

/-- R32: the bytes of a stored word as the byte loads see them, and a word after a byte store. -/
def Obligations.MixedWidthAccessesAgree : Prop :=
  ∀ (v b d : Reg) (s : State), CanRead s [b, v] →
    (s.reg b).toNat % 2 = 0 → (s.reg b).toNat < 0xF000 → ¬ InRom s.platform (s.reg b) →
    ¬ InRom s.platform (s.reg b + 1#16) →
    AllComplete [.sw v 0#4 b, .lbu d 0#4 b] s (fun t => (t.reg d).toNat = (s.reg v).toNat % 256) ∧
    AllComplete [.sw v 0#4 b, .lbu d 1#4 b] s (fun t => (t.reg d).toNat = (s.reg v).toNat / 256) ∧
    AllComplete [.sw v 0#4 b, .lb d 0#4 b] s (fun t =>
      (t.reg d).toInt % 256 = ((s.reg v).toNat : Int) % 256 ∧ -128 ≤ (t.reg d).toInt ∧ (t.reg d).toInt < 128) ∧
    AllComplete [.sb v 0#4 b, .lw d 0#4 b] s (fun t =>
      (t.reg d).toNat = (s.reg v).toNat % 256 + 256 * byteValue s ((s.reg b).toNat + 1)) ∧
    AllComplete [.sb v 1#4 b, .lw d 0#4 b] s (fun t =>
      (t.reg d).toNat = byteValue s (s.reg b).toNat + 256 * ((s.reg v).toNat % 256))

/-- R181, R276: `J 0` leaves the whole state unchanged. That it comes back to itself rests on offsets that count
from the jump's own address, the spec's derived reading D1 (R14, log 16). -/
def Obligations.SelfLoopLeavesStateUnchanged : Prop :=
  ∀ s : State, decode 0x0005#16 = .ok (.j 0#10) ∧ exec (.j 0#10) s = .next s

/-- R225, R226: NOP, the word 0x0021, only advances the pc; the all-zero word is `ADD x0, x0`, not NOP. NOP reads
x0: where x0 may not be read it faults, and where it may, x0 counts as written afterwards; both are the spec's
decision D3 (R25, R247), and that the state keeps the marks under either value of `UNDEF_REG_READ` is the model's
choice (log 2). -/
def Obligations.NopOnlyAdvancesPc : Prop :=
  ∀ s : State, expand s.pc .nop = some [.ori .x0 0#7] ∧ encode (.ori .x0 0#7) = 0x0021#16 ∧
    decode 0x0000#16 = .ok (.add .x0 .x0) ∧
    (CanRead s [.x0] → Completes (.ori .x0 0#7) s (fun t =>
      NextInSequence s t ∧ t.reg .x0 = s.reg .x0 ∧ OnlyReg .x0 s t ∧
        t = { s.setPc t.pc with written := s.written.mark .x0 } ∧
        (s.isWritten .x0 = true → t = s.setPc t.pc))) ∧
    (¬ CanRead s [.x0] → exec (.ori .x0 0#7) s = .fault (.undefinedRegisterRead s.pc .x0))

/-! R-type -/

/-- R100, R101; the wrap modulo 2^16 is the spec's inference from the register width (log 17). -/
def Obligations.AddAndSubAreModulo : Prop :=
  ∀ (d r : Reg) (s : State),
    decode (rWord 0x0000#16 r d) = .ok (.add d r) ∧
    WritesRegister (.add d r) s d (fun v => v.toNat = ((s.reg d).toNat + (s.reg r).toNat) % 65536) ∧
    decode (rWord 0x1000#16 r d) = .ok (.sub d r) ∧
    WritesRegister (.sub d r) s d (fun v =>
      (v.toNat : Int) = (((s.reg d).toNat : Int) - (s.reg r).toNat) % 65536)

/-- R102, R103; two's complement is the spec's general knowledge (log 24). -/
def Obligations.SetLessThanComparesExactly : Prop :=
  ∀ (d r : Reg) (s : State),
    decode (rWord 0x2008#16 r d) = .ok (.slt d r) ∧
    WritesRegister (.slt d r) s d (fun v => v.toNat = if (s.reg d).toInt < (s.reg r).toInt then 1 else 0) ∧
    decode (rWord 0x3010#16 r d) = .ok (.sltu d r) ∧
    WritesRegister (.sltu d r) s d (fun v => v.toNat = if (s.reg d).toNat < (s.reg r).toNat then 1 else 0)

/-- R104, R105, R106: the amount is `x[s][3:0]`; SRA is the floor of the signed quotient, which the spec
takes from general knowledge (log 24). -/
def Obligations.RegisterShiftsUseLowFourBits : Prop :=
  ∀ (d r : Reg) (s : State),
    decode (rWord 0x4018#16 r d) = .ok (.sll d r) ∧
    WritesRegister (.sll d r) s d (fun v =>
      v.toNat = ((s.reg d).toNat * 2 ^ ((s.reg r).toNat % 16)) % 65536) ∧
    decode (rWord 0x5018#16 r d) = .ok (.srl d r) ∧
    WritesRegister (.srl d r) s d (fun v => v.toNat = (s.reg d).toNat / 2 ^ ((s.reg r).toNat % 16)) ∧
    decode (rWord 0x6018#16 r d) = .ok (.sra d r) ∧
    WritesRegister (.sra d r) s d (fun v => v.toInt = (s.reg d).toInt / 2 ^ ((s.reg r).toNat % 16))

/-- R107, R108, R109. -/
def Obligations.RegisterLogicIsBitwise : Prop :=
  ∀ (d r : Reg) (s : State),
    decode (rWord 0x7020#16 r d) = .ok (.or d r) ∧
    WritesRegister (.or d r) s d (fun v =>
      ∀ k < 16, v.getLsbD k = ((s.reg d).getLsbD k || (s.reg r).getLsbD k)) ∧
    decode (rWord 0x8028#16 r d) = .ok (.and d r) ∧
    WritesRegister (.and d r) s d (fun v =>
      ∀ k < 16, v.getLsbD k = ((s.reg d).getLsbD k && (s.reg r).getLsbD k)) ∧
    decode (rWord 0x9030#16 r d) = .ok (.xor d r) ∧
    WritesRegister (.xor d r) s d (fun v =>
      ∀ k < 16, v.getLsbD k = ((s.reg d).getLsbD k ^^ (s.reg r).getLsbD k))

/-- R110. -/
def Obligations.MoveCopiesSource : Prop :=
  ∀ (d r : Reg) (s : State),
    decode (rWord 0xA038#16 r d) = .ok (.mv d r) ∧ WritesRegister (.mv d r) s d (fun v => v = s.reg r)

/-- R111, R87: all 16 bits, the rs2 field `k` ignored, no register written. That bit 0 is kept and an odd target
faults at the next fetch is the spec's decision D9 (log 11), that one in the MMIO window does its decision D28
(log 12), that the rs2 field is ignored its decision D12 (log 14). -/
def Obligations.JumpRegisterCopiesAllBits : Prop :=
  ∀ (d k : Reg) (s : State),
    decode (rWord 0xB000#16 k d) = .ok (.jr d) ∧
    (CanRead s [d] → Completes (.jr d) s (fun t =>
      t.pc = s.reg d ∧ OnlyPc s t ∧ TargetCheckedByNextFetch s t (s.reg d)))

/-- R112, R16: the target is the register's old value, also where `d = r`: the spec's decision D15 (log 15). That
bit 0 is kept and an odd target faults at the next fetch is its decision D9 (log 11), that one in the MMIO window
does is its decision D28 (log 12); the link counts from the JALR's own address by its derived reading D1 (R14,
log 16) and wraps by its decision D2 (log 17). -/
def Obligations.JumpAndLinkRegisterReadsTargetFirst : Prop :=
  ∀ (d r : Reg) (s : State),
    decode (rWord 0xC000#16 r d) = .ok (.jalr d r) ∧
    (CanRead s [r] → Completes (.jalr d r) s (fun t =>
      t.pc = s.reg r ∧ (t.reg d).toNat = (s.pc.toNat + 2) % 65536 ∧ t.isWritten d = true ∧ OnlyReg d s t ∧
        TargetCheckedByNextFetch s t (s.reg r)))

/-! I-type -/

/-- R120; the wrap as for ADD (log 17). -/
def Obligations.AddImmediateIsModulo : Prop :=
  ∀ (d : Reg) (imm : BitVec 7) (s : State),
    decode (iWord 0x0001#16 imm d) = .ok (.addi d imm) ∧
    WritesRegister (.addi d imm) s d (fun v =>
      (v.toNat : Int) = (((s.reg d).toNat : Int) + imm.toInt) % 65536)

/-- R121, R122: the immediate is sign-extended for both; SLTUI reads the result as unsigned (log 24). -/
def Obligations.SetLessThanImmediateSignExtends : Prop :=
  ∀ (d : Reg) (imm : BitVec 7) (s : State),
    decode (iWord 0x0009#16 imm d) = .ok (.slti d imm) ∧
    WritesRegister (.slti d imm) s d (fun v => v.toNat = if (s.reg d).toInt < imm.toInt then 1 else 0) ∧
    decode (iWord 0x0011#16 imm d) = .ok (.sltui d imm) ∧
    WritesRegister (.sltui d imm) s d (fun v =>
      v.toNat = if ((s.reg d).toNat : Int) < imm.toInt % 65536 then 1 else 0)

/-- R123, R124, R125; SRAI as for SRA (log 24). -/
def Obligations.ImmediateShiftsByShamt : Prop :=
  ∀ (d : Reg) (sh : BitVec 4) (s : State),
    decode (shiftWord 0x2019#16 sh d) = .ok (.slli d sh) ∧
    WritesRegister (.slli d sh) s d (fun v => v.toNat = ((s.reg d).toNat * 2 ^ sh.toNat) % 65536) ∧
    decode (shiftWord 0x4019#16 sh d) = .ok (.srli d sh) ∧
    WritesRegister (.srli d sh) s d (fun v => v.toNat = (s.reg d).toNat / 2 ^ sh.toNat) ∧
    decode (shiftWord 0x8019#16 sh d) = .ok (.srai d sh) ∧
    WritesRegister (.srai d sh) s d (fun v => v.toInt = (s.reg d).toInt / 2 ^ sh.toNat)

/-- R126, R127, R128: bit `k` of the sign-extended immediate is bit `min k 6` of imm7. -/
def Obligations.LogicImmediateSignExtends : Prop :=
  ∀ (d : Reg) (imm : BitVec 7) (s : State),
    decode (iWord 0x0021#16 imm d) = .ok (.ori d imm) ∧
    WritesRegister (.ori d imm) s d (fun v =>
      ∀ k < 16, v.getLsbD k = ((s.reg d).getLsbD k || imm.getLsbD (min k 6))) ∧
    decode (iWord 0x0029#16 imm d) = .ok (.andi d imm) ∧
    WritesRegister (.andi d imm) s d (fun v =>
      ∀ k < 16, v.getLsbD k = ((s.reg d).getLsbD k && imm.getLsbD (min k 6))) ∧
    decode (iWord 0x0031#16 imm d) = .ok (.xori d imm) ∧
    WritesRegister (.xori d imm) s d (fun v =>
      ∀ k < 16, v.getLsbD k = ((s.reg d).getLsbD k ^^ imm.getLsbD (min k 6)))

/-- R129. -/
def Obligations.LoadImmediateSignExtends : Prop :=
  ∀ (d : Reg) (imm : BitVec 7) (s : State),
    decode (iWord 0x0039#16 imm d) = .ok (.li d imm) ∧
    WritesRegister (.li d imm) s d (fun v => v.toInt = imm.toInt)

/-! B-type -/

/-- R140, R141, R142. The target of the path taken counts from the branch's own address by the spec's derived
reading D1 (R14, log 16) and wraps modulo 2^16 by its decision D2 (log 17); the path not taken is its inference
in R140. -/
def Obligations.BranchEqualAndNotEqual : Prop :=
  ∀ (a b : Reg) (off : BitVec 5) (s : State),
    (evenBranchOffset off = true → decode (bWord 0x0002#16 off b a) = .ok (.beq a b off) ∧
      decode (bWord 0x000A#16 off b a) = .ok (.bne a b off)) ∧
    BranchesWhen (.beq a b off) s (s.reg a = s.reg b) off ∧
    BranchesWhen (.bne a b off) s (s.reg a ≠ s.reg b) off

/-- R140, R143, R144: the rs2 field `k` is ignored (R87). The target of the path taken counts from the branch's
own address by the spec's derived reading D1 (R14, log 16) and wraps modulo 2^16 by its decision D2 (log 17);
the path not taken is its inference in R140. -/
def Obligations.BranchZeroIgnoresSecondField : Prop :=
  ∀ (a k : Reg) (off : BitVec 5) (s : State),
    (evenBranchOffset off = true → decode (bWord 0x0012#16 off k a) = .ok (.bz a off) ∧
      decode (bWord 0x001A#16 off k a) = .ok (.bnz a off)) ∧
    BranchesWhen (.bz a off) s ((s.reg a).toNat = 0) off ∧
    BranchesWhen (.bnz a off) s ((s.reg a).toNat ≠ 0) off

/-- R140, R145, R146; two's complement as for SLT (log 24). The target of the path taken counts from the
branch's own address by the spec's derived reading D1 (R14, log 16) and wraps modulo 2^16 by its decision D2
(log 17); the path not taken is its inference in R140. -/
def Obligations.BranchSignedOrder : Prop :=
  ∀ (a b : Reg) (off : BitVec 5) (s : State),
    (evenBranchOffset off = true → decode (bWord 0x0022#16 off b a) = .ok (.blt a b off) ∧
      decode (bWord 0x002A#16 off b a) = .ok (.bge a b off)) ∧
    BranchesWhen (.blt a b off) s ((s.reg a).toInt < (s.reg b).toInt) off ∧
    BranchesWhen (.bge a b off) s ((s.reg b).toInt ≤ (s.reg a).toInt) off

/-- R140, R147, R148. The target of the path taken counts from the branch's own address by the spec's derived
reading D1 (R14, log 16) and wraps modulo 2^16 by its decision D2 (log 17); the path not taken is its inference
in R140. -/
def Obligations.BranchUnsignedOrder : Prop :=
  ∀ (a b : Reg) (off : BitVec 5) (s : State),
    (evenBranchOffset off = true → decode (bWord 0x0032#16 off b a) = .ok (.bltu a b off) ∧
      decode (bWord 0x003A#16 off b a) = .ok (.bgeu a b off)) ∧
    BranchesWhen (.bltu a b off) s ((s.reg a).toNat < (s.reg b).toNat) off ∧
    BranchesWhen (.bgeu a b off) s ((s.reg b).toNat ≤ (s.reg a).toNat) off

/-! S-type -/

/-- R161, R37, R46: storage, ROM (log 9), device (logs 5, 28); the wrap of the address is the spec's decision D24
(log 17). -/
def Obligations.StoreByteWritesOneByte : Prop :=
  ∀ (t a : Reg) (off : BitVec 4) (s : State),
    let ea := effectiveAddress (s.reg a) off
    decode (memWord 0x0003#16 off t a) = .ok (.sb t off a) ∧ AddressFormula s a off ea ∧
    (CanRead s [a, t] → ea.toNat < 0xF000 → ¬ InRom s.platform ea →
      Completes (.sb t off a) s (fun u =>
        byteValue u ea.toNat = (s.reg t).toNat % 256 ∧
        (∀ b : Nat, b ≠ ea.toNat → u.mem.readByte b = s.mem.readByte b) ∧
        SameRegsBut [] s u ∧ SameWorld s u ∧ NextInSequence s u)) ∧
    (CanRead s [a, t] → ea.toNat < 0xF000 → InRom s.platform ea →
      exec (.sb t off a) s = .fault (.storeToRom s.pc ea)) ∧
    (CanRead s [a, t] → 0xF000 ≤ ea.toNat → DeviceStored (.sb t off a) s ea .byte ((s.reg t).toNat % 256))

/-- R162, R37, R46: odd address (a fault by the spec's decision, log 10), storage, ROM (log 9), device (logs 5,
28); the wrap of the address is the spec's decision D24 (log 17). -/
def Obligations.StoreWordIsLittleEndianAndAligned : Prop :=
  ∀ (t a : Reg) (off : BitVec 4) (s : State),
    let ea := effectiveAddress (s.reg a) off
    decode (memWord 0x000B#16 off t a) = .ok (.sw t off a) ∧ AddressFormula s a off ea ∧
    (CanRead s [a, t] → ea.toNat % 2 = 1 → exec (.sw t off a) s = .fault (.misalignedAccess s.pc ea)) ∧
    (CanRead s [a, t] → ea.toNat % 2 = 0 → ea.toNat < 0xF000 → ¬ InRom s.platform ea →
      ¬ InRom s.platform (ea + 1#16) →
      Completes (.sw t off a) s (fun u =>
        byteValue u ea.toNat = (s.reg t).toNat % 256 ∧ byteValue u (ea.toNat + 1) = (s.reg t).toNat / 256 ∧
        (∀ b : Nat, b ≠ ea.toNat → b ≠ ea.toNat + 1 → u.mem.readByte b = s.mem.readByte b) ∧
        SameRegsBut [] s u ∧ SameWorld s u ∧ NextInSequence s u)) ∧
    (CanRead s [a, t] → ea.toNat % 2 = 0 → ea.toNat < 0xF000 →
      (InRom s.platform ea ∨ InRom s.platform (ea + 1#16)) → exec (.sw t off a) s = .fault (.storeToRom s.pc ea)) ∧
    (CanRead s [a, t] → ea.toNat % 2 = 0 → 0xF000 ≤ ea.toNat → DeviceStored (.sw t off a) s ea .word (s.reg t).toNat)

/-! L-type -/

/-- R171, R36, R46: storage, device (whose answer is free, log 4, or a supplied model's, log 28); the wrap of
the address is the spec's decision D24 (log 17). -/
def Obligations.LoadByteSignExtends : Prop :=
  ∀ (d a : Reg) (off : BitVec 4) (s : State),
    let ea := effectiveAddress (s.reg a) off
    decode (memWord 0x0004#16 off a d) = .ok (.lb d off a) ∧ AddressFormula s a off ea ∧
    (ea.toNat < 0xF000 →
      WritesRegister (.lb d off a) s d (fun v => v.toInt = (s.mem.readByte ea.toNat).toInt)) ∧
    (CanRead s [a] → 0xF000 ≤ ea.toNat →
      DeviceLoaded (.lb d off a) s d ea .byte (fun x v => v.toInt = (x.setWidth 8).toInt))

/-- R172, R36, R46: odd address (a fault by the spec's decision, log 10), storage, device (whose answer is free,
log 4, or a supplied model's, log 28); the wrap of the address is the spec's decision D24 (log 17). -/
def Obligations.LoadWordIsLittleEndianAndAligned : Prop :=
  ∀ (d a : Reg) (off : BitVec 4) (s : State),
    let ea := effectiveAddress (s.reg a) off
    decode (memWord 0x000C#16 off a d) = .ok (.lw d off a) ∧ AddressFormula s a off ea ∧
    (CanRead s [a] → ea.toNat % 2 = 1 → exec (.lw d off a) s = .fault (.misalignedAccess s.pc ea)) ∧
    (ea.toNat % 2 = 0 → ea.toNat < 0xF000 →
      WritesRegister (.lw d off a) s d (fun v =>
        v.toNat = byteValue s ea.toNat + 256 * byteValue s (ea.toNat + 1))) ∧
    (CanRead s [a] → ea.toNat % 2 = 0 → 0xF000 ≤ ea.toNat →
      DeviceLoaded (.lw d off a) s d ea .word (fun x v => v = x))

/-- R173, R36, R46: storage, device (whose answer is free, log 4, or a supplied model's, log 28); the wrap of
the address is the spec's decision D24 (log 17). -/
def Obligations.LoadByteZeroExtends : Prop :=
  ∀ (d a : Reg) (off : BitVec 4) (s : State),
    let ea := effectiveAddress (s.reg a) off
    decode (memWord 0x0024#16 off a d) = .ok (.lbu d off a) ∧ AddressFormula s a off ea ∧
    (ea.toNat < 0xF000 →
      WritesRegister (.lbu d off a) s d (fun v => v.toNat = byteValue s ea.toNat)) ∧
    (CanRead s [a] → 0xF000 ≤ ea.toNat →
      DeviceLoaded (.lbu d off a) s d ea .byte (fun x v => v.toNat = x.toNat % 256))

/-! J-type and U-type -/

/-- R181; that the rd field `k` is ignored is the spec's decision (R87, log 14), that the offset is relative
to the J's own address its derived reading D1 (R14, log 16), the wrap modulo 2^16 its decision D2 (log 17). -/
def Obligations.JumpIsRelativeAndWritesNoRegister : Prop :=
  ∀ (off : BitVec 10) (k : Reg) (s : State),
    (evenJumpOffset off = true → decode (jWord 0x0005#16 off k) = .ok (.j off)) ∧
    Completes (.j off) s (fun t =>
      (t.pc.toNat : Int) = ((s.pc.toNat : Int) + off.toInt) % 65536 ∧ OnlyPc s t)

/-- R182; that link and target count from the JAL's own address is the spec's derived reading (R14, log 16),
the wrap modulo 2^16 its decision (D2, log 17). -/
def Obligations.JumpAndLinkUsesItsOwnAddress : Prop :=
  ∀ (off : BitVec 10) (d : Reg) (s : State),
    (evenJumpOffset off = true → decode (jWord 0x8005#16 off d) = .ok (.jal d off)) ∧
    Completes (.jal d off) s (fun t =>
      (t.pc.toNat : Int) = ((s.pc.toNat : Int) + off.toInt) % 65536 ∧
      (t.reg d).toNat = (s.pc.toNat + 2) % 65536 ∧ t.isWritten d = true ∧ OnlyReg d s t)

/-- R191. -/
def Obligations.LoadUpperImmediateShiftsBySeven : Prop :=
  ∀ (d : Reg) (imm9 : BitVec 9) (s : State),
    decode (uWord 0x0006#16 imm9 d) = .ok (.lui d imm9) ∧
    WritesRegister (.lui d imm9) s d (fun v => v.toNat = imm9.toNat * 128)

/-- R192; that the sum is with the AUIPC's own address is the spec's derived reading (R14, log 16), the wrap
its decision (D2, log 17). -/
def Obligations.AddUpperImmediateToOwnAddress : Prop :=
  ∀ (d : Reg) (imm9 : BitVec 9) (s : State),
    decode (uWord 0x8006#16 imm9 d) = .ok (.auipc d imm9) ∧
    WritesRegister (.auipc d imm9) s d (fun v => v.toNat = (s.pc.toNat + imm9.toNat * 128) % 65536)

/-! ECALL -/

/-- R200–R202: an ECALL whose service the table defines performs it: every effect of its action that no later
one overwrites stands, the trace grows by exactly its outputs and inputs in order, what the service does not
mention is unchanged, and the run goes on at `pc + 2` or ends with the ECALL's own pc: the spec's decision D16
(log 6). The shape of a service is the model's choice (log 7), the wrap of `pc + 2` the spec's decision D2 (log
17). -/
def Obligations.EcallPerformsItsService : Prop :=
  ∀ (svc : BitVec 10) (v : Service) (es : List (Effect ServiceTarget ServiceRegion)) (s : State),
    IsServiceOf s svc v → v.effects s = .ok es → (∀ e ∈ es, Permitted s e) →
    Completes (.ecall svc) s (fun t =>
      ((∀ x, Effect.set .endRun x ∈ es → x = 0#16) → NextInSequence s t ∧ t.runState = s.runState) ∧
      ((∃ x, Effect.set .endRun x ∈ es ∧ x ≠ 0#16) → t.pc = s.pc ∧ t.runState = .halted svc) ∧
      EffectsStand svc es s t ∧
      (∀ r : Reg, (∀ x, Effect.set (.reg r) x ∉ es) → t.reg r = s.reg r ∧ t.isWritten r = s.isWritten r) ∧
      (∀ b : Nat, (∀ a x, Effect.store .storage a x ∈ es → a.toNat ≠ b) →
        t.mem.readByte b = s.mem.readByte b) ∧
      t.deviceRegs = s.deviceRegs ∧ t.platform = s.platform)

/-- R201, R16: a service whose action is a list of commands has them all, each value computed in the state at
the ECALL: every register, byte, output and end that no later command overwrites stands: the spec's decision
D16 (log 6). The shape of a service is the model's choice (log 7). -/
def Obligations.EcallCommandsStand : Prop :=
  ∀ (svc : BitVec 10) (v : Service) (cs : List (Program ServiceSource ServiceTarget ServiceRegion))
    (es : List (Effect ServiceTarget ServiceRegion)) (s : State),
    IsServiceOf s svc v → v.action = inOrder cs → cs.map (plainEffect svc s) = es.map some →
    (∀ e ∈ es, Permitted s e) →
    v.effects s = .ok es ∧ Completes (.ecall svc) s (EffectsStand svc es s)

/-- R201: a service is any partial function of what it may read. For every list of expressions (over the
registers, the pc, the storage bytes, and the first `k` values from outside) and every partial function `f`
of their values there is a program whose effects are `f`'s; a service reads x0–x7 (a never-written one as
`UNDEF_REG_READ` says), the pc of the ECALL and every storage byte, and a device model (R44) the access, its own
registers and every storage byte. The language is the model's (logs 7, 28). -/
def Obligations.EnvironmentProgramsExpressEveryAction : Prop :=
  (∀ (α β ρ : Type) (k : Nat) (inputs : List (ProgramExpr α ρ))
    (f : List Word → Option (List (Effect β ρ))), (∀ vs es, f vs = some es → Effect.asked ∉ es) →
    ∃ p : Program α β ρ, ∀ (env : ProgramEnv α ρ) (vs : List Word),
      inputs.map (fun e => e.eval env (outsideCells env.outside k)) = vs.map .ok →
      (∀ es, f vs = some es → p.effects env = .ok (List.replicate k .asked ++ es)) ∧
      (f vs = none → p.effects env = .error env.refusal)) ∧
  (∀ (svc : BitVec 10) (s : State) (cells : Table Word),
    let env := serviceEnv svc s
    (∀ r, CanRead s [r] → (ProgramExpr.source (.reg r)).eval env cells = .ok (s.reg r)) ∧
    (∀ r, ¬ CanRead s [r] →
      (ProgramExpr.source (.reg r)).eval env cells = .error (.fault (.undefinedRegisterRead s.pc r))) ∧
    (ProgramExpr.source .pc).eval env cells = .ok s.pc ∧
    (∀ a : Word, a.toNat < 0xF000 → ∃ x, x.toNat = byteValue s a.toNat ∧
      (ProgramExpr.peek .storage (.const a)).eval env cells = .ok x)) ∧
  (∀ (s : State) (addr : Word) (n : Width) (v : Word) (cells : Table Word),
    let env := deviceEnv s addr n v
    (ProgramExpr.source .address).eval env cells = .ok addr ∧
    (ProgramExpr.source .width).eval env cells = .ok (if n = .byte then 1#16 else 2#16) ∧
    (ProgramExpr.source .value).eval env cells = .ok v ∧
    (∀ i : Word, (ProgramExpr.peek .register (.const i)).eval env cells = .ok (readDeviceReg s.deviceRegs i)) ∧
    (∀ a : Word, a.toNat < 0xF000 → ∃ x, x.toNat = byteValue s a.toNat ∧
      (ProgramExpr.peek .storage (.const a)).eval env cells = .ok x))

/-- R201: a service number that the table does not define is refused: the spec's decision D16 (log 6). -/
def Obligations.UndefinedServiceIsRefused : Prop :=
  ∀ (svc : BitVec 10) (s : State),
    decode (0x0007#16 ||| (svc.setWidth 16 <<< 6)) = .ok (.ecall svc) ∧
    ((∀ v ∈ s.platform.services, v.svc ≠ svc) → exec (.ecall svc) s = .refused (.unmodelledService svc))

/-- The model's choice, log 7 (R201 grants a service no more): an action that refuses, or that reaches
further, is refused. -/
def Obligations.ServiceBeyondItsGrantIsRefused : Prop :=
  ∀ (svc : BitVec 10) (v : Service) (s : State), IsServiceOf s svc v →
    ((∃ es, v.effects s = .ok es ∧ ∃ e ∈ es, ¬ Permitted s e) ∨ (∃ r, v.effects s = .error (.refusal r))) →
    exec (.ecall svc) s = .refused (.serviceNotPermitted svc)

/-! Assembly -/

/-- R212: the ranges an assembler accepts, and that the field holds the number written; the J range is the spec's
inference (conflict C7, log 26). -/
def Obligations.AssemblerAcceptsExactlyTheRanges : Prop :=
  ∀ v : Int,
    (∀ f, asmImmI v = some f ↔ (-64 ≤ v ∧ v ≤ 63 ∧ f.toInt = v)) ∧
    (∀ f, asmByteOffset v = some f ↔ (-8 ≤ v ∧ v ≤ 7 ∧ f.toInt = v)) ∧
    (∀ f, asmShamt v = some f ↔ (0 ≤ v ∧ v ≤ 15 ∧ (f.toNat : Int) = v)) ∧
    (∀ f, asmImm9 v = some f ↔ (0 ≤ v ∧ v ≤ 511 ∧ (f.toNat : Int) = v)) ∧
    (∀ f, asmSvc v = some f ↔ (0 ≤ v ∧ v ≤ 1023 ∧ (f.toNat : Int) = v)) ∧
    (∀ f, asmBranch v = some f ↔ (-16 ≤ v ∧ v ≤ 14 ∧ v % 2 = 0 ∧ f.toInt = v)) ∧
    (∀ f, asmJump v = some f ↔ (-512 ≤ v ∧ v ≤ 510 ∧ v % 2 = 0 ∧ f.toInt = v))

/-- R214: LI16 puts any 16-bit value in its register, in two instructions that complete whether or not any
register has been written. That the upper part wraps at 512 is the spec's decision D27 (log 26), the wrap of
ADDI its inference (log 17). -/
def Obligations.LoadConstantExpansionIsExact : Prop :=
  ∀ (rd : Reg) (v here : Word) (s : State), ∃ is, expand here (.li16 rd v) = some is ∧ is.length = 2 ∧
    AllComplete is s (fun t => t.reg rd = v ∧ t.pc.toNat = (s.pc.toNat + 4) % 65536 ∧ OnlyReg rd s t)

/-- R215: LA, placed at the pc, puts the label in its register. That AUIPC adds its own address is the spec's
derived reading D1 (log 16), that the upper part wraps at 512 its decision D27 (log 26), the other wraps its
decision D2 and its inference (log 17). -/
def Obligations.LoadAddressExpansionIsExact : Prop :=
  ∀ (rd : Reg) (label : Word) (s : State), ∃ is, expand s.pc (.la rd label) = some is ∧ is.length = 2 ∧
    AllComplete is s (fun t => t.reg rd = label ∧ t.pc.toNat = (s.pc.toNat + 4) % 65536 ∧ OnlyReg rd s t)

/-- R216: LJ reaches any address and overwrites x0 with it. For labels 0xFFC0 to 0xFFFF this rests on the spec's
decision D27 (the upper part wraps at 512, log 26) and on the wrap of ADDI, its inference (log 17); for odd
labels on JR keeping bit 0, its decision D9 (log 11). -/
def Obligations.LongJumpReachesItsLabel : Prop :=
  ∀ (label here : Word) (s : State), ∃ is, expand here (.lj label) = some is ∧ is.length = 3 ∧
    AllComplete is s (fun t => t.pc = label ∧ t.reg .x0 = label ∧ OnlyReg .x0 s t)

/-- R217: PUSH stores at the decremented stack pointer; `PUSH x2` stores the decremented value. The wraps are the
spec's inference (log 17). -/
def Obligations.PushStoresBelowTheStackPointer : Prop :=
  ∀ (rd : Reg) (here : Word) (s : State),
    let sp := s.reg .x2 - 2#16
    CanRead s [.x2, rd] →
    sp.toNat % 2 = 0 → sp.toNat < 0xF000 → ¬ InRom s.platform sp → ¬ InRom s.platform (sp + 1#16) →
    ∃ is, expand here (.push rd) = some is ∧ is.length = 2 ∧
      AllComplete is s (fun t =>
        t.reg .x2 = sp ∧ SameRegsBut [.x2] s t ∧ SameWorld s t ∧
        byteValue t sp.toNat + 256 * byteValue t (sp.toNat + 1) = (if rd = .x2 then sp else s.reg rd).toNat ∧
        (∀ b : Nat, b ≠ sp.toNat → b ≠ sp.toNat + 1 → t.mem.readByte b = s.mem.readByte b) ∧
        t.pc.toNat = (s.pc.toNat + 4) % 65536)

/-- R218: POP loads at the stack pointer, then adds 2; `POP x2` adds 2 to the loaded value. The wraps are the
spec's inference (log 17). -/
def Obligations.PopLoadsThenIncrements : Prop :=
  ∀ (rd : Reg) (here : Word) (s : State), CanRead s [.x2] → (s.reg .x2).toNat % 2 = 0 → (s.reg .x2).toNat < 0xF000 →
    ∃ is, expand here (.pop rd) = some is ∧ is.length = 2 ∧
      AllComplete is s (fun t =>
        (rd ≠ .x2 → (t.reg rd).toNat = byteValue s (s.reg .x2).toNat + 256 * byteValue s ((s.reg .x2).toNat + 1) ∧
          (t.reg .x2).toNat = ((s.reg .x2).toNat + 2) % 65536) ∧
        (rd = .x2 → (t.reg .x2).toNat =
          (byteValue s (s.reg .x2).toNat + 256 * byteValue s ((s.reg .x2).toNat + 1) + 2) % 65536) ∧
        SameRegsBut [rd, .x2] s t ∧ SameMemory s t ∧ SameWorld s t ∧
        t.pc.toNat = (s.pc.toNat + 4) % 65536)

/-- R223, R224, R225, R221, R222: what the arithmetic pseudo-instructions compute; NEG is two instructions,
the others one. The wraps are the spec's inference (log 17). -/
def Obligations.ArithmeticPseudosCompute : Prop :=
  ∀ (rd : Reg) (here : Word) (s : State), CanRead s [rd] →
    (∃ is, expand here (.neg rd) = some is ∧ is.length = 2 ∧ AllComplete is s (fun t =>
      (t.reg rd).toNat = (65536 - (s.reg rd).toNat) % 65536 ∧
        t.pc.toNat = (s.pc.toNat + 4) % 65536 ∧ OnlyReg rd s t)) ∧
    (∃ is, expand here (.not rd) = some is ∧ is.length = 1 ∧ AllComplete is s (fun t =>
      (t.reg rd).toNat = 65535 - (s.reg rd).toNat ∧ NextInSequence s t ∧ OnlyReg rd s t)) ∧
    (∃ is, expand here (.clr rd) = some is ∧ is.length = 1 ∧ AllComplete is s (fun t =>
      (t.reg rd).toNat = 0 ∧ NextInSequence s t ∧ OnlyReg rd s t)) ∧
    (∃ is, expand here (.inc rd) = some is ∧ is.length = 1 ∧ AllComplete is s (fun t =>
      (t.reg rd).toNat = ((s.reg rd).toNat + 1) % 65536 ∧ NextInSequence s t ∧ OnlyReg rd s t)) ∧
    (∃ is, expand here (.dec rd) = some is ∧ is.length = 1 ∧ AllComplete is s (fun t =>
      (t.reg rd).toNat = ((s.reg rd).toNat + 65535) % 65536 ∧ NextInSequence s t ∧ OnlyReg rd s t))

/-- R219, R220: CALL links the address after it and jumps to its label; RET jumps to x1. That CALL counts from
its own address is the spec's derived reading D1 (log 16), the wrap its decision D2 (log 17); that RET keeps bit
0 of an odd x1 is its decision D9 (R111, log 11). -/
def Obligations.CallAndReturnTransferControl : Prop :=
  ∀ (label : Word) (s : State),
    ((label - s.pc).toInt % 2 = 0 → -512 ≤ (label - s.pc).toInt → (label - s.pc).toInt ≤ 510 →
      ∃ is, expand s.pc (.call label) = some is ∧ is.length = 1 ∧
        AllComplete is s (fun t =>
          t.pc = label ∧ (t.reg .x1).toNat = (s.pc.toNat + 2) % 65536 ∧ OnlyReg .x1 s t)) ∧
    (CanRead s [.x1] → ∃ is, expand s.pc .ret = some is ∧ is.length = 1 ∧
      AllComplete is s (fun t => t.pc = s.reg .x1 ∧ OnlyPc s t))
end

