-- ==== Sys2Proof/Laws/State.lean ====
section
/-! SUPPORT. One lemma per field per update of the state, and read-after-write on registers, so that no
later proof unfolds a record update. -/

namespace Sys2Proof.Machine

theorem RegFile.get_set_same (f : RegFile) (r : Reg) (v : Word) : (f.set r v).get r = v := by
  cases r <;> rfl

theorem RegFile.get_set_other (f : RegFile) (v : Word) {r q : Reg} (h : q ≠ r) :
    (f.set r v).get q = f.get q := by
  cases r <;> cases q <;> first | rfl | exact absurd rfl h

theorem RegFile.set_get_self (f : RegFile) (r : Reg) : f.set r (f.get r) = f := by
  cases r <;> rfl

theorem RegFile.set_set_same (f : RegFile) (r : Reg) (v w : Word) : (f.set r v).set r w = f.set r w := by
  cases r <;> rfl

theorem RegFile.set_set_comm (f : RegFile) (v w : Word) {r q : Reg} (h : q ≠ r) :
    (f.set r v).set q w = (f.set q w).set r v := by
  cases r <;> cases q <;> first | rfl | exact absurd rfl h

@[simp] theorem State.setReg_reg_same (s : State) (r : Reg) (v : Word) : (s.setReg r v).reg r = v :=
  RegFile.get_set_same s.regs r v

theorem State.setReg_reg_other (s : State) (v : Word) {r q : Reg} (h : q ≠ r) :
    (s.setReg r v).reg q = s.reg q :=
  RegFile.get_set_other s.regs v h

theorem WrittenMarks.get_mark_same (m : WrittenMarks) (r : Reg) : (m.mark r).get r = true := by
  cases r <;> rfl

theorem WrittenMarks.get_mark_other (m : WrittenMarks) {r q : Reg} (h : q ≠ r) :
    (m.mark r).get q = m.get q := by
  cases r <;> cases q <;> first | rfl | exact absurd rfl h

theorem WrittenMarks.mark_mark_comm (m : WrittenMarks) (r q : Reg) : (m.mark r).mark q = (m.mark q).mark r := by
  cases r <;> cases q <;> rfl

theorem WrittenMarks.mark_of_get {m : WrittenMarks} {r : Reg} (h : m.get r = true) : m.mark r = m := by
  obtain ⟨a, b, c, d, e, f, g, i⟩ := m
  cases r <;> simp_all [WrittenMarks.get, WrittenMarks.mark]

/-- Every register write sets the register's mark (R25). -/
@[simp] theorem State.setReg_isWritten_same (s : State) (r : Reg) (v : Word) :
    (s.setReg r v).isWritten r = true :=
  WrittenMarks.get_mark_same s.written r

theorem State.setReg_isWritten_other (s : State) (v : Word) {r q : Reg} (h : q ≠ r) :
    (s.setReg r v).isWritten q = s.isWritten q :=
  WrittenMarks.get_mark_other s.written h

/-- A write never clears a mark. -/
theorem State.setReg_isWritten_keeps {s : State} (r : Reg) (v : Word) {q : Reg} (h : s.isWritten q = true) :
    (s.setReg r v).isWritten q = true := by
  by_cases hq : q = r
  · subst hq
    exact s.setReg_isWritten_same q v
  · rw [s.setReg_isWritten_other v hq, h]

@[simp] theorem State.setReg_pc (s : State) (r : Reg) (v : Word) : (s.setReg r v).pc = s.pc := rfl
@[simp] theorem State.setReg_mem (s : State) (r : Reg) (v : Word) : (s.setReg r v).mem = s.mem := rfl
@[simp] theorem State.setReg_trace (s : State) (r : Reg) (v : Word) : (s.setReg r v).trace = s.trace := rfl
@[simp] theorem State.setReg_deviceRegs (s : State) (r : Reg) (v : Word) : (s.setReg r v).deviceRegs = s.deviceRegs := rfl
@[simp] theorem State.setReg_runState (s : State) (r : Reg) (v : Word) : (s.setReg r v).runState = s.runState := rfl
@[simp] theorem State.setReg_platform (s : State) (r : Reg) (v : Word) : (s.setReg r v).platform = s.platform := rfl

@[simp] theorem State.resetOn_pc (p : Platform) (image : Image) : (State.resetOn p image).pc = Config.resetPc := rfl
@[simp] theorem State.resetOn_mem (p : Platform) (image : Image) :
    (State.resetOn p image).mem = Memory.ofImage image := rfl
@[simp] theorem State.resetOn_trace (p : Platform) (image : Image) : (State.resetOn p image).trace = [] := rfl
@[simp] theorem State.resetOn_deviceRegs (p : Platform) (image : Image) :
    (State.resetOn p image).deviceRegs = p.initialDeviceRegs := rfl
@[simp] theorem State.resetOn_runState (p : Platform) (image : Image) :
    (State.resetOn p image).runState = .running := rfl
@[simp] theorem State.resetOn_platform (p : Platform) (image : Image) :
    (State.resetOn p image).platform = p := rfl
@[simp] theorem State.resetOn_isWritten (p : Platform) (image : Image) (r : Reg) :
    (State.resetOn p image).isWritten r = false := by cases r <;> rfl

@[simp] theorem State.setPc_pc (s : State) (a : Word) : (s.setPc a).pc = a := rfl
@[simp] theorem State.setPc_written (s : State) (a : Word) :
    (s.setPc a).written = s.written := rfl
@[simp] theorem State.setPc_isWritten (s : State) (a : Word) (r : Reg) :
    (s.setPc a).isWritten r = s.isWritten r := rfl
@[simp] theorem State.setPc_reg (s : State) (a : Word) (r : Reg) : (s.setPc a).reg r = s.reg r := rfl
@[simp] theorem State.setPc_mem (s : State) (a : Word) : (s.setPc a).mem = s.mem := rfl
@[simp] theorem State.setPc_trace (s : State) (a : Word) : (s.setPc a).trace = s.trace := rfl
@[simp] theorem State.setPc_deviceRegs (s : State) (a : Word) : (s.setPc a).deviceRegs = s.deviceRegs := rfl
@[simp] theorem State.setPc_runState (s : State) (a : Word) : (s.setPc a).runState = s.runState := rfl
@[simp] theorem State.setPc_platform (s : State) (a : Word) : (s.setPc a).platform = s.platform := rfl

@[simp] theorem State.advance_pc (s : State) : s.advance.pc = s.pc + 2#16 := rfl
@[simp] theorem State.advance_written (s : State) :
    s.advance.written = s.written := rfl
@[simp] theorem State.advance_isWritten (s : State) (r : Reg) :
    s.advance.isWritten r = s.isWritten r := rfl
@[simp] theorem State.advance_reg (s : State) (r : Reg) : s.advance.reg r = s.reg r := rfl
@[simp] theorem State.advance_mem (s : State) : s.advance.mem = s.mem := rfl
@[simp] theorem State.advance_trace (s : State) : s.advance.trace = s.trace := rfl
@[simp] theorem State.advance_deviceRegs (s : State) : s.advance.deviceRegs = s.deviceRegs := rfl
@[simp] theorem State.advance_runState (s : State) : s.advance.runState = s.runState := rfl
@[simp] theorem State.advance_platform (s : State) : s.advance.platform = s.platform := rfl

@[simp] theorem State.emit_pc (s : State) (e : Event) : (s.emit e).pc = s.pc := rfl
@[simp] theorem State.emit_written (s : State) (e : Event) :
    (s.emit e).written = s.written := rfl
@[simp] theorem State.emit_isWritten (s : State) (e : Event) (r : Reg) :
    (s.emit e).isWritten r = s.isWritten r := rfl
@[simp] theorem State.emit_reg (s : State) (e : Event) (r : Reg) : (s.emit e).reg r = s.reg r := rfl
@[simp] theorem State.emit_mem (s : State) (e : Event) : (s.emit e).mem = s.mem := rfl
@[simp] theorem State.emit_trace (s : State) (e : Event) : (s.emit e).trace = s.trace ++ [e] := rfl
@[simp] theorem State.emit_deviceRegs (s : State) (e : Event) : (s.emit e).deviceRegs = s.deviceRegs := rfl
@[simp] theorem State.emit_runState (s : State) (e : Event) : (s.emit e).runState = s.runState := rfl
@[simp] theorem State.emit_platform (s : State) (e : Event) : (s.emit e).platform = s.platform := rfl

@[simp] theorem State.setMem_pc (s : State) (m : Memory) : (s.setMem m).pc = s.pc := rfl
@[simp] theorem State.setMem_written (s : State) (m : Memory) :
    (s.setMem m).written = s.written := rfl
@[simp] theorem State.setMem_isWritten (s : State) (m : Memory) (r : Reg) :
    (s.setMem m).isWritten r = s.isWritten r := rfl
@[simp] theorem State.setMem_reg (s : State) (m : Memory) (r : Reg) : (s.setMem m).reg r = s.reg r := rfl
@[simp] theorem State.setMem_mem (s : State) (m : Memory) : (s.setMem m).mem = m := rfl
@[simp] theorem State.setMem_trace (s : State) (m : Memory) : (s.setMem m).trace = s.trace := rfl
@[simp] theorem State.setMem_deviceRegs (s : State) (m : Memory) : (s.setMem m).deviceRegs = s.deviceRegs := rfl
@[simp] theorem State.setMem_runState (s : State) (m : Memory) : (s.setMem m).runState = s.runState := rfl
@[simp] theorem State.setMem_platform (s : State) (m : Memory) : (s.setMem m).platform = s.platform := rfl

@[simp] theorem State.setDeviceRegs_pc (s : State) (d : Table Word) : (s.setDeviceRegs d).pc = s.pc := rfl
@[simp] theorem State.setDeviceRegs_written (s : State) (d : Table Word) :
    (s.setDeviceRegs d).written = s.written := rfl
@[simp] theorem State.setDeviceRegs_isWritten (s : State) (d : Table Word) (r : Reg) :
    (s.setDeviceRegs d).isWritten r = s.isWritten r := rfl
@[simp] theorem State.setDeviceRegs_reg (s : State) (d : Table Word) (r : Reg) :
    (s.setDeviceRegs d).reg r = s.reg r := rfl
@[simp] theorem State.setDeviceRegs_mem (s : State) (d : Table Word) : (s.setDeviceRegs d).mem = s.mem := rfl
@[simp] theorem State.setDeviceRegs_trace (s : State) (d : Table Word) : (s.setDeviceRegs d).trace = s.trace := rfl
@[simp] theorem State.setDeviceRegs_deviceRegs (s : State) (d : Table Word) : (s.setDeviceRegs d).deviceRegs = d := rfl
@[simp] theorem State.setDeviceRegs_runState (s : State) (d : Table Word) :
    (s.setDeviceRegs d).runState = s.runState := rfl
@[simp] theorem State.setDeviceRegs_platform (s : State) (d : Table Word) :
    (s.setDeviceRegs d).platform = s.platform := rfl

@[simp] theorem State.storeBytes_pc (s : State) (a v : Word) (n : Width) : (s.storeBytes a v n).pc = s.pc := by
  cases n <;> rfl
@[simp] theorem State.storeBytes_written (s : State) (a v : Word) (n : Width) :
    (s.storeBytes a v n).written = s.written := by cases n <;> rfl
@[simp] theorem State.storeBytes_isWritten (s : State) (a v : Word) (n : Width) (r : Reg) :
    (s.storeBytes a v n).isWritten r = s.isWritten r := by cases n <;> rfl
@[simp] theorem State.storeBytes_reg (s : State) (a v : Word) (n : Width) (r : Reg) :
    (s.storeBytes a v n).reg r = s.reg r := by cases n <;> rfl
@[simp] theorem State.storeBytes_trace (s : State) (a v : Word) (n : Width) :
    (s.storeBytes a v n).trace = s.trace := by cases n <;> rfl
@[simp] theorem State.storeBytes_deviceRegs (s : State) (a v : Word) (n : Width) :
    (s.storeBytes a v n).deviceRegs = s.deviceRegs := by cases n <;> rfl
@[simp] theorem State.storeBytes_runState (s : State) (a v : Word) (n : Width) :
    (s.storeBytes a v n).runState = s.runState := by cases n <;> rfl
@[simp] theorem State.storeBytes_platform (s : State) (a v : Word) (n : Width) :
    (s.storeBytes a v n).platform = s.platform := by cases n <;> rfl

@[simp] theorem State.placeAtPc_pc (s : State) (w : Word) : (s.placeAtPc w).pc = s.pc := rfl
@[simp] theorem State.placeAtPc_written (s : State) (w : Word) :
    (s.placeAtPc w).written = s.written := rfl
@[simp] theorem State.placeAtPc_isWritten (s : State) (w : Word) (r : Reg) :
    (s.placeAtPc w).isWritten r = s.isWritten r := rfl
@[simp] theorem State.placeAtPc_reg (s : State) (w : Word) (r : Reg) : (s.placeAtPc w).reg r = s.reg r := rfl
@[simp] theorem State.placeAtPc_trace (s : State) (w : Word) : (s.placeAtPc w).trace = s.trace := rfl
@[simp] theorem State.placeAtPc_deviceRegs (s : State) (w : Word) : (s.placeAtPc w).deviceRegs = s.deviceRegs := rfl
@[simp] theorem State.placeAtPc_platform (s : State) (w : Word) : (s.placeAtPc w).platform = s.platform := rfl

/-- Writing back what a written register holds changes nothing (the NOP, R226). -/
theorem State.setReg_reg_self {s : State} {r : Reg} (h : s.isWritten r = true) : s.setReg r (s.reg r) = s := by
  unfold State.setReg State.reg
  rw [RegFile.set_get_self, WrittenMarks.mark_of_get h]

/-- A register may be read exactly where it is written or the parameter lets any register be read (R25). -/
theorem State.readable_iff (s : State) (r : Reg) :
    s.readable r = true ↔ (s.platform.undefRegRead = .fault → s.isWritten r = true) := by
  unfold State.readable
  cases s.platform.undefRegRead <;> simp

end Sys2Proof.Machine
end

