-- ==== Sys2Proof/Laws/Memory.lean ====
section
/-! SUPPORT. The basic laws of the storage: a read after a write, and the canonical form that every memory
operation keeps. -/

namespace Sys2Proof.Machine

theorem Table.lookup_write_same {β : Type} (m : Table β) (a : Nat) (v : β) : (m.write a v).lookup a = some v := by
  induction m with
  | nil => simp [Table.write, Table.lookup]
  | cons c rest ih =>
    obtain ⟨b, x⟩ := c
    by_cases hlt : a < b
    · simp [Table.write, Table.lookup, hlt]
    · by_cases heq : a = b
      · simp [Table.write, Table.lookup, heq]
      · simp [Table.write, Table.lookup, hlt, heq, ih]

theorem Table.lookup_write_other {β : Type} (m : Table β) (v : β) {a c : Nat} (h : c ≠ a) :
    (m.write a v).lookup c = m.lookup c := by
  induction m with
  | nil => simp [Table.write, Table.lookup, h]
  | cons d rest ih =>
    obtain ⟨b, x⟩ := d
    by_cases hlt : a < b
    · simp [Table.write, Table.lookup, hlt, h]
    · by_cases heq : a = b
      · subst heq
        simp [Table.write, Table.lookup, h]
      · simp [Table.write, Table.lookup, hlt, heq, ih]

/-- A read after a write to the same place gives the value written (R40). -/
@[simp] theorem Memory.readByte_write_same (m : Memory) (a : Nat) (v : Byte) :
    Memory.readByte (m.write a v) a = v := by
  simp [Memory.readByte, Table.lookup_write_same]

/-- A write leaves every other place alone (R40). -/
theorem Memory.readByte_write_other (m : Memory) (v : Byte) {a c : Nat} (h : c ≠ a) :
    Memory.readByte (m.write a v) c = m.readByte c := by
  simp [Memory.readByte, Table.lookup_write_other m v h]

theorem Table.wfFrom_write {β : Type} (v : β) {m : Table β} {lo hi a : Nat} (hm : Table.wfFrom lo hi m = true)
    (hlo : lo ≤ a) (ha : a < hi) : Table.wfFrom lo hi (m.write a v) = true := by
  induction m generalizing lo with
  | nil => simp [Table.write, Table.wfFrom, hlo, ha]
  | cons c rest ih =>
    obtain ⟨b, x⟩ := c
    simp only [Table.wfFrom, Bool.and_eq_true, decide_eq_true_eq] at hm
    obtain ⟨⟨hb, hbs⟩, hrest⟩ := hm
    by_cases hlt : a < b
    · simp [Table.write, Table.wfFrom, hlt, hlo, ha, hbs, hrest]
    · by_cases heq : a = b
      · subst heq
        simp [Table.write, Table.wfFrom, hb, hbs, hrest]
      · have := ih hrest (by omega : b + 1 ≤ a)
        simp [Table.write, Table.wfFrom, hlt, heq, hb, hbs, this]

/-- A write to a storage address keeps the canonical form. -/
theorem Memory.wf_write (v : Byte) {m : Memory} {a : Nat} (hm : m.wf = true)
    (ha : a < Config.mmioBase.toNat) : Memory.wf (m.write a v) = true :=
  Table.wfFrom_write v hm (Nat.zero_le a) ha

/-- A write to a register of the device model keeps the canonical form. -/
theorem deviceRegsWf_write {d : Table Word} (i v : Word) (hd : deviceRegsWf d = true) :
    deviceRegsWf (d.write i.toNat v) = true :=
  Table.wfFrom_write v hd (Nat.zero_le _) i.isLt

/-- A device register reads as last written (log 28). -/
theorem readDeviceReg_write_same (d : Table Word) (i v : Word) : readDeviceReg (d.write i.toNat v) i = v := by
  simp [readDeviceReg, Table.lookup_write_same]

/-- Writing a device register leaves every other one alone. -/
theorem readDeviceReg_write_other (d : Table Word) (v : Word) {i j : Word} (h : j ≠ i) :
    readDeviceReg (d.write i.toNat v) j = readDeviceReg d j := by
  have : j.toNat ≠ i.toNat := fun e => h (BitVec.eq_of_toNat_eq e)
  simp [readDeviceReg, Table.lookup_write_other d v this]

/-- Writing a list of pairs one after the other keeps the canonical form, where every number lies in the table. -/
theorem Table.wfFrom_foldl {β : Type} {hi : Nat} (l : List (Word × β)) (hl : ∀ e ∈ l, e.1.toNat < hi) :
    ∀ t : Table β, Table.wfFrom 0 hi t = true →
      Table.wfFrom 0 hi (l.foldl (fun t e => t.write e.1.toNat e.2) t) = true := by
  induction l with
  | nil => exact fun _ ht => ht
  | cons e rest ih =>
    intro t ht
    exact ih (fun d hd => hl d (by simp [hd])) _ (Table.wfFrom_write e.2 ht (Nat.zero_le _) (hl e (by simp)))

/-- Pairs for other numbers leave the value listed for a number as it was. -/
theorem Table.lookup_foldl_other {β : Type} {a : Nat} (l : List (Word × β)) (hl : ∀ e ∈ l, e.1.toNat ≠ a) :
    ∀ t : Table β, (l.foldl (fun t e => t.write e.1.toNat e.2) t).lookup a = t.lookup a := by
  induction l with
  | nil => exact fun _ => rfl
  | cons e rest ih =>
    intro t
    rw [List.foldl_cons, ih (fun d hd => hl d (by simp [hd])),
      Table.lookup_write_other t e.2 (Ne.symm (hl e (by simp)))]

/-- Of the pairs for one number the last one is listed. -/
theorem Table.lookup_ofList_last {β : Type} (pre post : List (Word × β)) (a : Word) (v : β)
    (h : ∀ w, (a, w) ∉ post) : (Table.ofList (pre ++ (a, v) :: post)).lookup a.toNat = some v := by
  rw [Table.ofList, List.foldl_append, List.foldl_cons, Table.lookup_foldl_other, Table.lookup_write_same]
  rintro ⟨b, w⟩ hb e
  exact h w (BitVec.eq_of_toNat_eq e ▸ hb)

/-- A number without a pair is not listed. -/
theorem Table.lookup_ofList_none {β : Type} {l : List (Word × β)} {a : Nat} (h : ∀ e ∈ l, e.1.toNat ≠ a) :
    (Table.ofList l).lookup a = none := by
  rw [Table.ofList, Table.lookup_foldl_other l h]
  rfl

/-- A storage byte that the image gives reads as the image's, the last of several (R271, R274). -/
theorem Memory.readByte_ofImage_last (pre post : Image) {a : Word} (b : Byte) (ha : a < Config.mmioBase)
    (h : ∀ c, (a, c) ∉ post) : (Memory.ofImage (pre ++ (a, b) :: post)).readByte a.toNat = b := by
  have hpost : ∀ c, (a, c) ∉ post.filter (fun c => decide (c.1 < Config.mmioBase)) :=
    fun c hc => h c (List.mem_of_mem_filter hc)
  rw [Memory.readByte, Memory.ofImage, List.filter_append, List.filter_cons_of_pos (by simpa using ha),
    Table.lookup_ofList_last _ _ a b hpost, Option.getD_some]

/-- A byte that the image does not give is unspecified (R274). -/
theorem Memory.readByte_ofImage_unlisted {image : Image} {a : Nat}
    (h : ∀ e ∈ image, e.1 < Config.mmioBase → e.1.toNat ≠ a) :
    (Memory.ofImage image).readByte a = Config.unspecifiedByte a := by
  have : ∀ e ∈ image.filter (fun c => decide (c.1 < Config.mmioBase)), e.1.toNat ≠ a := by
    intro e he
    obtain ⟨h1, h2⟩ := List.mem_filter.1 he
    exact h e h1 (by simpa using h2)
  rw [Memory.readByte, Memory.ofImage, Table.lookup_ofList_none this, Option.getD_none]

/-- A loaded image is in canonical form. -/
theorem Memory.wf_ofImage (image : Image) : (Memory.ofImage image).wf = true := by
  refine Table.wfFrom_foldl _ (fun e he => ?_) [] rfl
  have := (List.mem_filter.1 he).2
  simpa [BitVec.lt_def] using this

/-- A device model's own initial state is in canonical form. -/
theorem Platform.initialDeviceRegs_wf (p : Platform) : deviceRegsWf p.initialDeviceRegs = true := by
  unfold Platform.initialDeviceRegs
  split
  · rfl
  · exact Table.wfFrom_foldl _ (fun e _ => e.1.isLt) [] rfl

/-- Reset memory is in canonical form, whatever the image. -/
theorem Memory.wf_resetOn (p : Platform) (image : Image) : (State.resetOn p image).mem.wf = true :=
  Memory.wf_ofImage image

/-- An even storage address is followed by a storage address: an aligned word never reaches into the
MMIO window (R36). -/
theorem storage_next {a : Word} (hodd : isOdd a = false) (hm : inMmio a = false) :
    a.toNat < Config.mmioBase.toNat ∧ (a + 1#16).toNat = a.toNat + 1 ∧
      (a + 1#16).toNat < Config.mmioBase.toNat := by
  have h1 : a.toNat < 0xF000 := by
    have : ¬ (Config.mmioBase ≤ a) := by simpa [inMmio] using hm
    simpa [Config.mmioBase, BitVec.le_def] using this
  have h2 : a.toNat % 2 = 0 := by
    have : a.toNat.testBit 0 = false := by simpa [isOdd, BitVec.getLsbD] using hodd
    rw [Nat.testBit_zero] at this
    simpa using this
  have hb : Config.mmioBase.toNat = 0xF000 := rfl
  have h3 : (a + 1#16).toNat = a.toNat + 1 := by
    rw [BitVec.toNat_add]
    simp
    omega
  refine ⟨?_, h3, ?_⟩ <;> omega

/-- A store that reaches storage keeps the canonical form. -/
theorem State.wf_storeBytes {s : State} {a : Word} (v : Word) {n : Width} (hs : s.mem.wf = true)
    (hal : misaligned a n = false) (hm : inMmio a = false) : (s.storeBytes a v n).mem.wf = true := by
  cases n with
  | byte =>
    have h1 : a.toNat < Config.mmioBase.toNat := by
      have : ¬ (Config.mmioBase ≤ a) := by simpa [inMmio] using hm
      simpa [BitVec.le_def] using this
    exact Memory.wf_write _ hs h1
  | word =>
    obtain ⟨h1, _, h3⟩ := storage_next hal hm
    exact Memory.wf_write _ (Memory.wf_write _ hs h1) h3

end Sys2Proof.Machine
end

