-- ==== Sys2Proof/Laws/Program.lean ====
section
/-! SUPPORT. The laws of the environment's programs: the value of each expression, what each command does,
and that effects are only added. -/

namespace Sys2Proof.Machine

variable {α β ρ : Type}

@[simp] theorem ProgramExpr.eval_const (env : ProgramEnv α ρ) (c : Table Word) (v : Word) :
    (ProgramExpr.const v).eval env c = .ok v := rfl
@[simp] theorem ProgramExpr.eval_source (env : ProgramEnv α ρ) (c : Table Word) (x : α) :
    (ProgramExpr.source x).eval env c = env.source x := rfl
theorem ProgramExpr.eval_peek {env : ProgramEnv α ρ} {c : Table Word} (r : ρ) {i : ProgramExpr α ρ} {a : Word}
    (h : i.eval env c = .ok a) : (ProgramExpr.peek r i).eval env c = env.peek r a := by
  simp [ProgramExpr.eval, h]
theorem ProgramExpr.eval_op {env : ProgramEnv α ρ} {c : Table Word} (o : Operator) {a b : ProgramExpr α ρ}
    {x y : Word} (ha : a.eval env c = .ok x) (hb : b.eval env c = .ok y) :
    (ProgramExpr.op o a b).eval env c = .ok (o.apply x y) := by
  simp [ProgramExpr.eval, ha, hb]

@[simp] theorem Progress.add_effects (p : Progress β ρ) (e : Effect β ρ) :
    (p.add e).effects = p.effects ++ [e] := rfl
@[simp] theorem Progress.add_cells (p : Progress β ρ) (e : Effect β ρ) : (p.add e).cells = p.cells := rfl
@[simp] theorem Progress.setCell_effects (p : Progress β ρ) (i v : Word) :
    (p.setCell i v).effects = p.effects := rfl
@[simp] theorem Progress.setCell_cells (p : Progress β ρ) (i v : Word) :
    (p.setCell i v).cells = p.cells.write i.toNat v := rfl
@[simp] theorem Progress.start_effects : (Progress.start : Progress β ρ).effects = [] := rfl
@[simp] theorem Progress.start_cells : (Progress.start : Progress β ρ).cells = [] := rfl

@[simp] theorem Program.run_skip (env : ProgramEnv α ρ) (p : Progress β ρ) : Program.skip.run env p = .ok p := rfl
@[simp] theorem Program.run_refuse (env : ProgramEnv α ρ) (p : Progress β ρ) :
    Program.refuse.run env p = .error env.refusal := rfl
theorem Program.run_seq {env : ProgramEnv α ρ} {a b : Program α β ρ} {p q : Progress β ρ}
    (h : a.run env p = .ok q) : (a.seq b).run env p = b.run env q := by
  simp [Program.run, h]
theorem Program.run_cond {env : ProgramEnv α ρ} {c : ProgramExpr α ρ} {a b : Program α β ρ} {p : Progress β ρ}
    {v : Word} (h : c.eval env p.cells = .ok v) :
    (Program.cond c a b).run env p = if v = 0#16 then b.run env p else a.run env p := by
  simp [Program.run, h]
theorem Program.run_set {env : ProgramEnv α ρ} {t : β} {e : ProgramExpr α ρ} {p : Progress β ρ} {v : Word}
    (h : e.eval env p.cells = .ok v) : (Program.set t e).run env p = .ok (p.add (.set t v)) := by
  simp [Program.run, h]
theorem Program.run_store {env : ProgramEnv α ρ} {r : ρ} {i e : ProgramExpr α ρ} {p : Progress β ρ} {a v : Word}
    (hi : i.eval env p.cells = .ok a) (he : e.eval env p.cells = .ok v) :
    (Program.store r i e).run env p = .ok (p.add (.store r a v)) := by
  simp [Program.run, hi, he]

/-- A relation that holds from every state to itself, and on through each round, holds over all of them. -/
theorem repeatProgram_keeps {σ : Type} {f : σ → Except Stop σ} {R : σ → σ → Prop} (refl : ∀ p, R p p)
    (trans : ∀ p q r, R p q → R q r → R p r) (hf : ∀ p q, f p = .ok q → R p q) :
    ∀ (n : Nat) (p q : σ), repeatProgram f n p = .ok q → R p q := by
  intro n
  induction n with
  | zero => intro p q h; simp only [repeatProgram, Except.ok.injEq] at h; exact h ▸ refl p
  | succ n ih =>
    intro p q h
    simp only [repeatProgram] at h
    split at h
    · next r hr => exact trans p r q (hf p r hr) (ih r q h)
    · simp at h

/-- A program adds its effects after those it found. -/
theorem Program.run_adds {env : ProgramEnv α ρ} (a : Program α β ρ) :
    ∀ p q : Progress β ρ, a.run env p = .ok q → p.effects <+: q.effects := by
  induction a with
  | skip => intro p q h; simp only [Program.run_skip, Except.ok.injEq] at h; exact h ▸ List.prefix_rfl
  | seq a b iha ihb =>
    intro p q h
    simp only [Program.run] at h
    split at h
    · next r hr => exact (iha p r hr).trans (ihb r q h)
    · simp at h
  | cond c a b iha ihb =>
    intro p q h
    simp only [Program.run] at h
    split at h
    · split at h
      · exact ihb p q h
      · exact iha p q h
    · simp at h
  | loop n a iha =>
    intro p q h
    simp only [Program.run] at h
    split at h
    · exact repeatProgram_keeps (R := fun x y => x.effects <+: y.effects) (fun _ => List.prefix_rfl)
        (fun x y z (h1 : x.effects <+: y.effects) (h2 : y.effects <+: z.effects) => h1.trans h2) iha _ p q h
    · simp at h
  | setCell i e =>
    intro p q h
    simp only [Program.run] at h
    split at h
    · split at h
      · simp only [Except.ok.injEq] at h; subst h; exact List.prefix_rfl
      · simp at h
    · simp at h
  | ask i =>
    intro p q h
    simp only [Program.run] at h
    split at h
    · simp only [Except.ok.injEq] at h; subst h; exact List.prefix_append _ _
    · simp at h
  | set t e =>
    intro p q h
    simp only [Program.run] at h
    split at h
    · simp only [Except.ok.injEq] at h; subst h; exact List.prefix_append _ _
    · simp at h
  | store r i e =>
    intro p q h
    simp only [Program.run] at h
    split at h
    · split at h
      · simp only [Except.ok.injEq] at h; subst h; exact List.prefix_append _ _
      · simp at h
    · simp at h
  | refuse => intro p q h; simp at h

/-- Where an environment's stop comes from: a source, a place of a region, or the refusal. -/
def ProgramEnv.Stops (env : ProgramEnv α ρ) (e : Stop) : Prop :=
  e = env.refusal ∨ (∃ x, env.source x = .error e) ∨ ∃ r a, env.peek r a = .error e

theorem ProgramExpr.eval_stops {env : ProgramEnv α ρ} {c : Table Word} {e : Stop} (x : ProgramExpr α ρ) :
    x.eval env c = .error e → env.Stops e := by
  induction x with
  | const v => intro h; simp at h
  | source x => intro h; exact .inr (.inl ⟨x, h⟩)
  | peek r i ih =>
    intro h
    simp only [ProgramExpr.eval] at h
    split at h
    · next a _ => exact .inr (.inr ⟨r, a, h⟩)
    · next d hd => exact ih (hd.trans h)
  | cell i ih =>
    intro h
    simp only [ProgramExpr.eval] at h
    split at h
    · simp at h
    · next d hd => exact ih (hd.trans h)
  | op o a b iha ihb =>
    intro h
    simp only [ProgramExpr.eval] at h
    split at h
    · split at h
      · simp at h
      · next d hd => exact ihb (hd.trans h)
    · next d hd => exact iha (hd.trans h)

theorem repeatProgram_stops {σ : Type} {f : σ → Except Stop σ} {e : Stop} {P : Prop}
    (hf : ∀ p, f p = .error e → P) : ∀ (n : Nat) (p : σ), repeatProgram f n p = .error e → P := by
  intro n
  induction n with
  | zero => intro p h; simp [repeatProgram] at h
  | succ n ih =>
    intro p h
    simp only [repeatProgram] at h
    split at h
    · exact ih _ h
    · next d hd => exact hf p (hd.trans h)

/-- A program stops only as its environment stops. -/
theorem Program.run_stops {env : ProgramEnv α ρ} {e : Stop} (a : Program α β ρ) :
    ∀ p : Progress β ρ, a.run env p = .error e → env.Stops e := by
  induction a with
  | skip => intro p h; simp at h
  | seq a b iha ihb =>
    intro p h
    simp only [Program.run] at h
    split at h
    · exact ihb _ h
    · next d hd => exact iha p (hd.trans h)
  | cond c a b iha ihb =>
    intro p h
    simp only [Program.run] at h
    split at h
    · split at h
      · exact ihb p h
      · exact iha p h
    · next d hd => cases h; exact c.eval_stops hd
  | loop n a iha =>
    intro p h
    simp only [Program.run] at h
    split at h
    · exact repeatProgram_stops iha _ p h
    · next d hd => cases h; exact n.eval_stops hd
  | setCell i x =>
    intro p h
    simp only [Program.run] at h
    split at h
    · split at h
      · simp at h
      · next d hd => cases h; exact x.eval_stops hd
    · next d hd => cases h; exact i.eval_stops hd
  | ask i =>
    intro p h
    simp only [Program.run] at h
    split at h
    · simp at h
    · next d hd => cases h; exact i.eval_stops hd
  | set t x =>
    intro p h
    simp only [Program.run] at h
    split at h
    · simp at h
    · next d hd => cases h; exact x.eval_stops hd
  | store r i x =>
    intro p h
    simp only [Program.run] at h
    split at h
    · split at h
      · simp at h
      · next d hd => cases h; exact x.eval_stops hd
    · next d hd => cases h; exact i.eval_stops hd
  | refuse => intro p h; exact .inl (by simpa using h.symm)

end Sys2Proof.Machine
end

