-- ==== Sys2Proof/Laws/Access.lean ====
section
/-! SUPPORT. What each shared operation can do, said once: the two memory primitives, the operations the
meanings are built from, and the effects of a service. -/

namespace Sys2Proof.Machine

/-- A property that each effect keeps holds after all of them. -/
theorem foldl_keeps {σ ε : Type} {f : σ → ε → σ} {P : σ → Prop} {es : List ε}
    (hP : ∀ e ∈ es, ∀ t, P t → P (f t e)) : ∀ t, P t → P (es.foldl f t) := by
  induction es with
  | nil => exact fun t ht => ht
  | cons e rest ih =>
    intro t ht
    exact ih (fun d hd => hP d (by simp [hd])) _ (hP e (by simp) t ht)

@[simp] theorem applyDeviceEffect_pc (t : State) (e : Effect DeviceTarget DeviceRegion) :
    (applyDeviceEffect t e).pc = t.pc := by rcases e with ⟨_, _⟩ | ⟨⟨⟩, _, _⟩ | _ <;> rfl
@[simp] theorem applyDeviceEffect_reg (t : State) (e : Effect DeviceTarget DeviceRegion) (r : Reg) :
    (applyDeviceEffect t e).reg r = t.reg r := by rcases e with ⟨_, _⟩ | ⟨⟨⟩, _, _⟩ | _ <;> rfl
@[simp] theorem applyDeviceEffect_written (t : State) (e : Effect DeviceTarget DeviceRegion) :
    (applyDeviceEffect t e).written = t.written := by rcases e with ⟨_, _⟩ | ⟨⟨⟩, _, _⟩ | _ <;> rfl
@[simp] theorem applyDeviceEffect_trace (t : State) (e : Effect DeviceTarget DeviceRegion) :
    (applyDeviceEffect t e).trace = t.trace := by rcases e with ⟨_, _⟩ | ⟨⟨⟩, _, _⟩ | _ <;> rfl
@[simp] theorem applyDeviceEffect_runState (t : State) (e : Effect DeviceTarget DeviceRegion) :
    (applyDeviceEffect t e).runState = t.runState := by rcases e with ⟨_, _⟩ | ⟨⟨⟩, _, _⟩ | _ <;> rfl
@[simp] theorem applyDeviceEffect_platform (t : State) (e : Effect DeviceTarget DeviceRegion) :
    (applyDeviceEffect t e).platform = t.platform := by rcases e with ⟨_, _⟩ | ⟨⟨⟩, _, _⟩ | _ <;> rfl

/-- A device model never reaches the core's registers, their marks or the pc, the trace, the run state or the
platform (R40). -/
theorem deviceEffects_core (es : List (Effect DeviceTarget DeviceRegion)) (t : State) :
    (es.foldl applyDeviceEffect t).regs = t.regs ∧ (es.foldl applyDeviceEffect t).written = t.written ∧
    (es.foldl applyDeviceEffect t).pc = t.pc ∧ (es.foldl applyDeviceEffect t).trace = t.trace ∧
    (es.foldl applyDeviceEffect t).runState = t.runState ∧
    (es.foldl applyDeviceEffect t).platform = t.platform := by
  refine foldl_keeps (P := fun u => u.regs = t.regs ∧ u.written = t.written ∧ u.pc = t.pc ∧ u.trace = t.trace ∧
    u.runState = t.runState ∧ u.platform = t.platform) ?_ t ⟨rfl, rfl, rfl, rfl, rfl, rfl⟩
  rintro e _ u ⟨h1, h2, h3, h4, h5, h6⟩
  rcases e with ⟨_, _⟩ | ⟨⟨⟩, _, _⟩ | _ <;> exact ⟨h1, h2, h3, h4, h5, h6⟩

/-- Everything a program of the supplied device model can do (R44). -/
theorem runDevice_cases {p : Program DeviceSource DeviceTarget DeviceRegion} {s : State} {addr : Word} {n : Width}
    {v : Word} {r : Except Stop (List (Effect DeviceTarget DeviceRegion) × State)}
    (h : runDevice p s addr n v = r) :
    (∃ es, p.effects (deviceEnv s addr n v) = .ok es ∧ es.all s.deviceMay = true ∧
      r = .ok (es, es.foldl applyDeviceEffect s)) ∨
    ((∀ es, p.effects (deviceEnv s addr n v) = .ok es → es.all s.deviceMay = false) ∧
      r = .error (.refusal (.deviceRefused addr))) := by
  subst h
  unfold runDevice
  cases hp : p.effects (deviceEnv s addr n v) with
  | error e => right; simp
  | ok es =>
    cases hes : es.all s.deviceMay
    · right; exact ⟨fun e h => by cases h; exact hes, by simp [hes]⟩
    · left; exact ⟨es, rfl, hes, by simp [hes]⟩

/-- Everything a read of the device can do (R44). -/
theorem deviceRead_cases {s : State} {addr : Word} {n : Width} {r : Except Stop (Word × State)}
    (h : deviceRead s addr n = r) :
    (s.platform.device = none ∧
      r = .ok (lowBits n (Config.mmioRead s.trace addr n), s.emit (.mmioRead addr n))) ∨
    (∃ d es, s.platform.device = some d ∧ d.read.effects (deviceEnv s addr n 0#16) = .ok es ∧
      es.all s.deviceMay = true ∧
      r = .ok (lowBits n (answerOf (Config.mmioRead s.trace addr n) es),
        (es.foldl applyDeviceEffect s).emit (.mmioRead addr n))) ∨
    (∃ d, s.platform.device = some d ∧
      (∀ es, d.read.effects (deviceEnv s addr n 0#16) = .ok es → es.all s.deviceMay = false) ∧
      r = .error (.refusal (.deviceRefused addr))) := by
  subst h
  unfold deviceRead
  cases hd : s.platform.device with
  | none => left; simp
  | some d =>
    right
    rcases runDevice_cases (p := d.read) (s := s) (addr := addr) (n := n) (v := 0#16) rfl with
      ⟨es, h1, h2, e⟩ | ⟨h1, e⟩
    · left; exact ⟨d, es, rfl, h1, h2, by simp [e]⟩
    · right; exact ⟨d, rfl, h1, by simp [e]⟩

/-- Everything a write to the device can do (R44). -/
theorem deviceWrite_cases {s : State} {addr : Word} {n : Width} {v : Word} {r : Except Stop State}
    (h : deviceWrite s addr n v = r) :
    (s.platform.device = none ∧ r = .ok (s.emit (.mmioWrite addr n v))) ∨
    (∃ d es, s.platform.device = some d ∧ d.write.effects (deviceEnv s addr n v) = .ok es ∧
      es.all s.deviceMay = true ∧ r = .ok ((es.foldl applyDeviceEffect s).emit (.mmioWrite addr n v))) ∨
    (∃ d, s.platform.device = some d ∧
      (∀ es, d.write.effects (deviceEnv s addr n v) = .ok es → es.all s.deviceMay = false) ∧
      r = .error (.refusal (.deviceRefused addr))) := by
  subst h
  unfold deviceWrite
  cases hd : s.platform.device with
  | none => left; simp
  | some d =>
    right
    rcases runDevice_cases (p := d.write) (s := s) (addr := addr) (n := n) (v := v) rfl with
      ⟨es, h1, h2, e⟩ | ⟨h1, e⟩
    · left; exact ⟨d, es, rfl, h1, h2, by simp [e]⟩
    · right; exact ⟨d, rfl, h1, by simp [e]⟩

/-- Everything `MemRead` can do (R36). -/
theorem memRead_cases {s : State} {addr : Word} {n : Width} {r : Except Stop (Word × State)}
    (h : memRead s addr n = r) :
    (misaligned addr n = true ∧ r = .error (.fault (.misalignedAccess s.pc addr))) ∨
    (misaligned addr n = false ∧ inMmio addr = true ∧ r = deviceRead s addr n) ∨
    (misaligned addr n = false ∧ inMmio addr = false ∧
      ((n = .byte ∧ r = .ok ((s.byteAt addr).setWidth 16, s)) ∨ (n = .word ∧ r = .ok (s.wordAt addr, s)))) := by
  subst h
  unfold memRead
  cases hmis : misaligned addr n <;> cases hmm : inMmio addr <;> cases n <;> simp

/-- Everything `MemWrite` can do (R37). -/
theorem memWrite_cases {s : State} {addr : Word} {n : Width} {v : Word} {r : Except Stop State}
    (h : memWrite s addr n v = r) :
    (misaligned addr n = true ∧ r = .error (.fault (.misalignedAccess s.pc addr))) ∨
    (misaligned addr n = false ∧ inMmio addr = true ∧ r = deviceWrite s addr n (lowBits n v)) ∨
    (misaligned addr n = false ∧ inMmio addr = false ∧ s.storeHitsRom addr n = true ∧
      r = .error (.fault (.storeToRom s.pc addr))) ∨
    (misaligned addr n = false ∧ inMmio addr = false ∧ s.storeHitsRom addr n = false ∧
      r = .ok (s.storeBytes addr v n)) := by
  subst h
  unfold memWrite
  cases hmis : misaligned addr n <;> cases hmm : inMmio addr <;> cases hrom : s.storeHitsRom addr n <;> simp

/-- Everything an instruction whose only result is a register can do: it writes it and goes on (R15). -/
theorem writeReg_next {rd : Reg} {v : Word} {s t : State} (h : writeReg rd v s = .next t) :
    t = (s.setReg rd v).advance := by
  simpa [writeReg] using h.symm

/-- Everything the operand read can do (R247, R248): the first register that may not be read raises the fault,
else the rest follows. -/
theorem readOperands_cases {l : List Reg} {s : State} {rest o : Host.Outcome State Fault Refusal}
    (h : readOperands l s rest = o) :
    (∃ r pre post, l = pre ++ r :: post ∧ (∀ q ∈ pre, s.readable q = true) ∧ s.readable r = false ∧
      o = .fault (.undefinedRegisterRead s.pc r)) ∨
    ((∀ r ∈ l, s.readable r = true) ∧ o = rest) := by
  subst h
  unfold readOperands
  split
  · next r hr =>
    rw [List.find?_eq_some_iff_append] at hr
    obtain ⟨hr, pre, post, hl, hpre⟩ := hr
    exact .inl ⟨r, pre, post, hl, by simpa using hpre, by simpa using hr, rfl⟩
  · next hr => exact .inr ⟨by simpa [List.find?_eq_none] using hr, rfl⟩

/-- Where every register may be read, the operand read does nothing else. -/
theorem readOperands_ok {l : List Reg} {s : State} (rest : Host.Outcome State Fault Refusal)
    (h : ∀ r ∈ l, s.readable r = true) : readOperands l s rest = rest := by
  rcases readOperands_cases (l := l) (s := s) (rest := rest) rfl with ⟨r, pre, post, hl, _, hr, _⟩ | ⟨_, e⟩
  · rw [h r (by simp [hl])] at hr
    cases hr
  · exact e

/-- If the operand read answers a next state, every register may be read and the rest answers it. -/
theorem readOperands_next {l : List Reg} {s t : State} {rest : Host.Outcome State Fault Refusal}
    (h : readOperands l s rest = .next t) : (∀ r ∈ l, s.readable r = true) ∧ rest = .next t := by
  rcases readOperands_cases h with ⟨_, _, _, _, _, _, e⟩ | ⟨hl, e⟩
  · cases e
  · exact ⟨hl, e.symm⟩

/-- Everything a conditional branch can do: it only moves the pc (R140). -/
theorem branchIf_next {l : List Reg} {c : Bool} {off : BitVec 5} {s t : State} (h : branchIf l c off s = .next t) :
    (c = true ∧ t = s.setPc (s.pc + branchOffset off)) ∨ (c = false ∧ t = s.advance) := by
  have h := (readOperands_next h).2
  cases c
  · exact .inr ⟨rfl, by simpa [State.advance] using h.symm⟩
  · exact .inl ⟨rfl, by simpa using h.symm⟩

/-- If a load answers a next state, it is the read's state with the register written and the pc
advanced. -/
theorem load_next {n : Width} {extend : Word → Word} {rd base : Reg} {off : BitVec 4} {s t : State}
    (h : load n extend rd off base s = .next t) :
    ∃ v u, memRead s (effectiveAddress (s.reg base) off) n = .ok (v, u) ∧
      t = (u.setReg rd (extend v)).advance := by
  have h := (readOperands_next h).2
  unfold loadAt at h
  split at h
  · next v u hr => exact ⟨v, u, hr, by simpa using h.symm⟩
  · next e _ => cases e <;> simp [stop, raise] at h

/-- If a store answers a next state, it is the write's state with the pc advanced. -/
theorem store_next {n : Width} {data base : Reg} {off : BitVec 4} {s t : State}
    (h : store n data off base s = .next t) :
    ∃ u, memWrite s (effectiveAddress (s.reg base) off) n (s.reg data) = .ok u ∧ t = u.advance := by
  have h := (readOperands_next h).2
  unfold storeAt at h
  split at h
  · next u hw => exact ⟨u, hw, by simpa using h.symm⟩
  · next e _ => cases e <;> simp [stop, raise] at h

/-- Once the operands are read, a load faults exactly where its memory read does. -/
theorem loadAt_fault {n : Width} {extend : Word → Word} {rd : Reg} {addr : Word} {s : State} {f : Fault}
    (h : loadAt n extend rd addr s = .fault f) : memRead s addr n = .error (.fault f) := by
  unfold loadAt at h
  split at h
  · simp at h
  · next e hr => cases e <;> simp [stop, raise] at h; rw [hr, h]

/-- Once the operands are read, a store faults exactly where its memory write does. -/
theorem storeAt_fault {n : Width} {v addr : Word} {s : State} {f : Fault}
    (h : storeAt n v addr s = .fault f) : memWrite s addr n v = .error (.fault f) := by
  unfold storeAt at h
  split at h
  · simp at h
  · next e hw => cases e <;> simp [stop, raise] at h; rw [hw, h]

/-- Once the operands are read, a load is refused exactly where its memory read is. -/
theorem loadAt_refused {n : Width} {extend : Word → Word} {rd : Reg} {addr : Word} {s : State} {r : Refusal}
    (h : loadAt n extend rd addr s = .refused r) : memRead s addr n = .error (.refusal r) := by
  unfold loadAt at h
  split at h
  · simp at h
  · next e hr => cases e <;> simp [stop, raise] at h; rw [hr, h]

/-- Once the operands are read, a store is refused exactly where its memory write is. -/
theorem storeAt_refused {n : Width} {v addr : Word} {s : State} {r : Refusal}
    (h : storeAt n v addr s = .refused r) : memWrite s addr n v = .error (.refusal r) := by
  unfold storeAt at h
  split at h
  · simp at h
  · next e hw => cases e <;> simp [stop, raise] at h; rw [hw, h]

@[simp] theorem applyServiceEffect_pc (svc : BitVec 10) (t : State) (e : Effect ServiceTarget ServiceRegion) :
    (applyServiceEffect svc t e).pc = t.pc := by rcases e with ⟨⟨⟩ | _ | _, _⟩ | ⟨⟨⟩, _, _⟩ | _ <;> rfl
@[simp] theorem applyServiceEffect_runState (svc : BitVec 10) (t : State) (e : Effect ServiceTarget ServiceRegion) :
    (applyServiceEffect svc t e).runState = t.runState := by
  rcases e with ⟨⟨⟩ | _ | _, _⟩ | ⟨⟨⟩, _, _⟩ | _ <;> rfl
@[simp] theorem applyServiceEffect_deviceRegs (svc : BitVec 10) (t : State)
    (e : Effect ServiceTarget ServiceRegion) : (applyServiceEffect svc t e).deviceRegs = t.deviceRegs := by
  rcases e with ⟨⟨⟩ | _ | _, _⟩ | ⟨⟨⟩, _, _⟩ | _ <;> rfl
@[simp] theorem applyServiceEffect_platform (svc : BitVec 10) (t : State) (e : Effect ServiceTarget ServiceRegion) :
    (applyServiceEffect svc t e).platform = t.platform := by
  rcases e with ⟨⟨⟩ | _ | _, _⟩ | ⟨⟨⟩, _, _⟩ | _ <;> rfl

/-- The effects of a service reach neither the pc, the run state, the device model's registers nor the
platform (R201). -/
theorem serviceEffects_frame (svc : BitVec 10) (es : List (Effect ServiceTarget ServiceRegion)) (t : State) :
    (es.foldl (applyServiceEffect svc) t).pc = t.pc ∧
    (es.foldl (applyServiceEffect svc) t).runState = t.runState ∧
    (es.foldl (applyServiceEffect svc) t).deviceRegs = t.deviceRegs ∧
    (es.foldl (applyServiceEffect svc) t).platform = t.platform := by
  refine foldl_keeps (P := fun u => u.pc = t.pc ∧ u.runState = t.runState ∧ u.deviceRegs = t.deviceRegs ∧
    u.platform = t.platform) ?_ t ⟨rfl, rfl, rfl, rfl⟩
  rintro e _ u ⟨h1, h2, h3, h4⟩
  exact ⟨by simpa using h1, by simpa using h2, by simpa using h3, by simpa using h4⟩

@[simp] theorem finishService_reg (b : Bool) (svc : BitVec 10) (t : State) (r : Reg) :
    (finishService b svc t).reg r = t.reg r := by cases b <;> rfl
@[simp] theorem finishService_isWritten (b : Bool) (svc : BitVec 10) (t : State) (r : Reg) :
    (finishService b svc t).isWritten r = t.isWritten r := by cases b <;> rfl
@[simp] theorem finishService_mem (b : Bool) (svc : BitVec 10) (t : State) :
    (finishService b svc t).mem = t.mem := by cases b <;> rfl
@[simp] theorem finishService_trace (b : Bool) (svc : BitVec 10) (t : State) :
    (finishService b svc t).trace = t.trace := by cases b <;> rfl
@[simp] theorem finishService_deviceRegs (b : Bool) (svc : BitVec 10) (t : State) :
    (finishService b svc t).deviceRegs = t.deviceRegs := by cases b <;> rfl
@[simp] theorem finishService_platform (b : Bool) (svc : BitVec 10) (t : State) :
    (finishService b svc t).platform = t.platform := by cases b <;> rfl

/-- Why a service's action stops: it is refused, or it reads a register that may not be read (R201, R247). -/
theorem Service.effects_stops {v : Service} {s : State} {e : Stop} (h : v.effects s = .error e) :
    e = .refusal (.serviceNotPermitted v.svc) ∨
    ∃ r, s.readable r = false ∧ e = .fault (.undefinedRegisterRead s.pc r) := by
  unfold Service.effects Program.effects at h
  split at h
  · simp at h
  · next d hd =>
    cases h
    rcases v.action.run_stops _ hd with h | ⟨x, h⟩ | ⟨r, a, h⟩
    · exact .inl h
    · cases x with
      | reg r =>
        right
        simp only [serviceEnv] at h
        split at h
        · cases h
        · next hr => exact ⟨r, by simpa using hr, by simpa using h.symm⟩
      | pc => cases h
    · left
      cases r
      simp only [serviceEnv, State.peekStorage] at h
      split at h
      · simpa using h.symm
      · cases h

/-- Everything ECALL can do (R201, R247). -/
theorem execEcall_cases {svc : BitVec 10} {s : State} {o : Host.Outcome State Fault Refusal}
    (h : execEcall svc s = o) :
    (s.platform.service svc = none ∧ o = .refused (.unmodelledService svc)) ∨
    (∃ v, s.platform.service svc = some v ∧
      (v.effects s = .error (.refusal (.serviceNotPermitted svc)) ∨
        ∃ es, v.effects s = .ok es ∧ es.all s.serviceMay = false) ∧
      o = .refused (.serviceNotPermitted svc)) ∨
    (∃ v r, s.platform.service svc = some v ∧ s.readable r = false ∧
      v.effects s = .error (.fault (.undefinedRegisterRead s.pc r)) ∧
      o = .fault (.undefinedRegisterRead s.pc r)) ∨
    (∃ v es, s.platform.service svc = some v ∧ v.effects s = .ok es ∧ es.all s.serviceMay = true ∧
      o = .next (finishService (es.any endsRun) svc (es.foldl (applyServiceEffect svc) s))) := by
  subst h
  unfold execEcall
  cases hv : s.platform.service svc with
  | none => left; simp
  | some v =>
    right
    have hsvc : v.svc = svc := by simpa using List.find?_some hv
    cases he : v.effects s with
    | error e =>
      rcases Service.effects_stops he with rfl | ⟨r, hr, rfl⟩
      · left; exact ⟨v, rfl, .inl (by rw [he, hsvc]), by simp only [he, stop, hsvc]⟩
      · right; left; exact ⟨v, r, rfl, hr, he, by simp only [he, stop, raise]⟩
    | ok es =>
      cases hall : es.all s.serviceMay
      · left; exact ⟨v, rfl, .inr ⟨es, he, hall⟩, by simp only [he, hall]; rfl⟩
      · right; right; exact ⟨v, es, rfl, he, hall, by simp only [he, hall]; rfl⟩

/-- If ECALL answers a next state, a service of the table ran (R201). -/
theorem execEcall_next {svc : BitVec 10} {s t : State} (h : execEcall svc s = .next t) :
    ∃ v es, s.platform.service svc = some v ∧ v.effects s = .ok es ∧ es.all s.serviceMay = true ∧
      t = finishService (es.any endsRun) svc (es.foldl (applyServiceEffect svc) s) := by
  rcases execEcall_cases h with ⟨_, e⟩ | ⟨_, _, _, e⟩ | ⟨_, _, _, _, _, e⟩ | ⟨v, es, hv, he, ha, e⟩
  · cases e
  · cases e
  · cases e
  · exact ⟨v, es, hv, he, ha, by simpa using e⟩

end Sys2Proof.Machine
end

