-- ==== Sys2Proof/Laws/Decode.lean ====
section
/-! SUPPORT. The fields of encoded words, the masked keys of each format, and what it takes for a word to
decode to a row of the opcode table. -/

namespace Sys2Proof

@[simp] theorem Reg.ofBits_bits (r : Reg) : Reg.ofBits r.bits = r := by cases r <;> rfl

@[simp] theorem Reg.bits_ofBits (b : BitVec 3) : (Reg.ofBits b).bits = b := by revert b; decide

/-- No two rows overlap: some bit that both rows look at differs (R80). -/
theorem opcodeTable_disjoint :
    opcodeTable.Pairwise (fun a b => (a.pattern ^^^ b.pattern) &&& (a.mask &&& b.mask) ≠ 0#16) := by
  decide

/-- A word that matches two rows gives their keys no differing bit. -/
theorem matches_both {a b : OpcodeRow} {w : Word} (ha : a.matches w = true) (hb : b.matches w = true) :
    (a.pattern ^^^ b.pattern) &&& (a.mask &&& b.mask) = 0#16 := by
  have ha : w &&& a.mask = a.pattern := by simpa [OpcodeRow.matches] using ha
  have hb : w &&& b.mask = b.pattern := by simpa [OpcodeRow.matches] using hb
  rw [← ha, ← hb]
  apply BitVec.eq_of_getLsbD_eq
  intro i _
  simp only [BitVec.getLsbD_and, BitVec.getLsbD_xor]
  cases w.getLsbD i <;> cases a.mask.getLsbD i <;> cases b.mask.getLsbD i <;> simp

theorem find_of_matches {l : List OpcodeRow}
    (hl : l.Pairwise (fun a b => (a.pattern ^^^ b.pattern) &&& (a.mask &&& b.mask) ≠ 0#16))
    {r : OpcodeRow} {w : Word} (hr : r ∈ l) (hm : r.matches w = true) :
    l.find? (fun r => r.matches w) = some r := by
  induction l with
  | nil => simp at hr
  | cons a rest ih =>
    rw [List.pairwise_cons] at hl
    rcases List.mem_cons.mp hr with rfl | hrest
    · simp [hm]
    · have : a.matches w = false := by
        by_contra hc
        exact hl.1 r hrest (matches_both (by simpa using hc) hm)
      simp [this, ih hl.2 hrest]

/-- A word that matches a row decodes to what that row builds (R80, R81: the order of testing does not
matter). -/
theorem decode_of_matches {r : OpcodeRow} {w : Word} (hr : r ∈ opcodeTable) (hm : r.matches w = true) :
    decode w = .ok (r.build w) := by
  simp [decode, find_of_matches opcodeTable_disjoint hr hm]

/-- A word that decodes matches a row, which builds the instruction (R81). -/
theorem row_of_decode {w : Word} {i : Instr} (h : decode w = .ok i) :
    ∃ r ∈ opcodeTable, r.matches w = true ∧ i = r.build w := by
  unfold decode at h
  split at h
  · next r hr =>
    exact ⟨r, List.mem_of_find?_eq_some hr, by simpa using List.find?_some hr, by simpa using h.symm⟩
  · simp at h

/-- A word that does not decode matches no row (R81). -/
theorem no_row_of_illegal {w : Word} {e : Illegal} (h : decode w = .error e) :
    ∀ r ∈ opcodeTable, r.matches w = false := by
  unfold decode at h
  split at h
  · simp at h
  · next hr => simpa using hr

@[simp] theorem fieldRd_encodeR (f4 : BitVec 4) (rs rd : Reg) (f3 : BitVec 3) : fieldRd (encodeR f4 rs rd f3) = rd := by
  have h : (encodeR f4 rs rd f3).extractLsb' 6 3 = rd.bits := by
    apply BitVec.eq_of_getLsbD_eq
    intro i hi
    simp only [encodeR, BitVec.getLsbD_append, BitVec.getLsbD_extractLsb']
    interval_cases i <;> simp
  rw [fieldRd, h, Reg.ofBits_bits]

@[simp] theorem fieldRs2_encodeR (f4 : BitVec 4) (rs rd : Reg) (f3 : BitVec 3) : fieldRs2 (encodeR f4 rs rd f3) = rs := by
  have h : (encodeR f4 rs rd f3).extractLsb' 9 3 = rs.bits := by
    apply BitVec.eq_of_getLsbD_eq
    intro i hi
    simp only [encodeR, BitVec.getLsbD_append, BitVec.getLsbD_extractLsb']
    interval_cases i <;> simp
  rw [fieldRs2, h, Reg.ofBits_bits]

theorem key_encodeR (f4 : BitVec 4) (rs rd : Reg) (f3 : BitVec 3) : encodeR f4 rs rd f3 &&& 0xF03F#16 = f4 ++ 0#6 ++ f3 ++ 0b000#3 := by
  apply BitVec.eq_of_getLsbD_eq
  intro i hi
  simp only [encodeR, BitVec.getLsbD_and, BitVec.getLsbD_append]
  interval_cases i <;> simp

@[simp] theorem fieldRd_encodeI (imm : BitVec 7) (rd : Reg) (f3 : BitVec 3) : fieldRd (encodeI imm rd f3) = rd := by
  have h : (encodeI imm rd f3).extractLsb' 6 3 = rd.bits := by
    apply BitVec.eq_of_getLsbD_eq
    intro i hi
    simp only [encodeI, BitVec.getLsbD_append, BitVec.getLsbD_extractLsb']
    interval_cases i <;> simp
  rw [fieldRd, h, Reg.ofBits_bits]

@[simp] theorem fieldImm7_encodeI (imm : BitVec 7) (rd : Reg) (f3 : BitVec 3) : fieldImm7 (encodeI imm rd f3) = imm := by
  have h : (encodeI imm rd f3).extractLsb' 9 7 = imm := by
    apply BitVec.eq_of_getLsbD_eq
    intro i hi
    simp only [encodeI, BitVec.getLsbD_append, BitVec.getLsbD_extractLsb']
    interval_cases i <;> simp
  rw [fieldImm7, h]

theorem key_encodeI (imm : BitVec 7) (rd : Reg) (f3 : BitVec 3) : encodeI imm rd f3 &&& 0x003F#16 = 0#10 ++ f3 ++ 0b001#3 := by
  apply BitVec.eq_of_getLsbD_eq
  intro i hi
  simp only [encodeI, BitVec.getLsbD_and, BitVec.getLsbD_append]
  interval_cases i <;> simp

@[simp] theorem fieldRd_encodeShift (ty : BitVec 3) (sh : BitVec 4) (rd : Reg) : fieldRd (encodeShift ty sh rd) = rd := by
  have h : (encodeShift ty sh rd).extractLsb' 6 3 = rd.bits := by
    apply BitVec.eq_of_getLsbD_eq
    intro i hi
    simp only [encodeShift, BitVec.getLsbD_append, BitVec.getLsbD_extractLsb']
    interval_cases i <;> simp
  rw [fieldRd, h, Reg.ofBits_bits]

@[simp] theorem fieldShamt_encodeShift (ty : BitVec 3) (sh : BitVec 4) (rd : Reg) : fieldShamt (encodeShift ty sh rd) = sh := by
  have h : (encodeShift ty sh rd).extractLsb' 9 4 = sh := by
    apply BitVec.eq_of_getLsbD_eq
    intro i hi
    simp only [encodeShift, BitVec.getLsbD_append, BitVec.getLsbD_extractLsb']
    interval_cases i <;> simp
  rw [fieldShamt, h]

theorem key_encodeShift (ty : BitVec 3) (sh : BitVec 4) (rd : Reg) : encodeShift ty sh rd &&& 0xE03F#16 = ty ++ 0#7 ++ 0b011#3 ++ 0b001#3 := by
  apply BitVec.eq_of_getLsbD_eq
  intro i hi
  simp only [encodeShift, BitVec.getLsbD_and, BitVec.getLsbD_append]
  interval_cases i <;> simp

@[simp] theorem fieldRd_encodeB (off : BitVec 5) (rs2 rs1 : Reg) (f3 : BitVec 3) : fieldRd (encodeB off rs2 rs1 f3) = rs1 := by
  have h : (encodeB off rs2 rs1 f3).extractLsb' 6 3 = rs1.bits := by
    apply BitVec.eq_of_getLsbD_eq
    intro i hi
    simp only [encodeB, BitVec.getLsbD_append, BitVec.getLsbD_extractLsb']
    interval_cases i <;> simp
  rw [fieldRd, h, Reg.ofBits_bits]

@[simp] theorem fieldRs2_encodeB (off : BitVec 5) (rs2 rs1 : Reg) (f3 : BitVec 3) : fieldRs2 (encodeB off rs2 rs1 f3) = rs2 := by
  have h : (encodeB off rs2 rs1 f3).extractLsb' 9 3 = rs2.bits := by
    apply BitVec.eq_of_getLsbD_eq
    intro i hi
    simp only [encodeB, BitVec.getLsbD_append, BitVec.getLsbD_extractLsb']
    interval_cases i <;> simp
  rw [fieldRs2, h, Reg.ofBits_bits]

theorem key_encodeB (off : BitVec 5) (rs2 rs1 : Reg) (f3 : BitVec 3) : encodeB off rs2 rs1 f3 &&& 0x003F#16 = 0#10 ++ f3 ++ 0b010#3 := by
  apply BitVec.eq_of_getLsbD_eq
  intro i hi
  simp only [encodeB, BitVec.getLsbD_and, BitVec.getLsbD_append]
  interval_cases i <;> simp

@[simp] theorem fieldRd_encodeS (off : BitVec 4) (rs2 rs1 : Reg) (f3 : BitVec 3) : fieldRd (encodeS off rs2 rs1 f3) = rs1 := by
  have h : (encodeS off rs2 rs1 f3).extractLsb' 6 3 = rs1.bits := by
    apply BitVec.eq_of_getLsbD_eq
    intro i hi
    simp only [encodeS, BitVec.getLsbD_append, BitVec.getLsbD_extractLsb']
    interval_cases i <;> simp
  rw [fieldRd, h, Reg.ofBits_bits]

@[simp] theorem fieldRs2_encodeS (off : BitVec 4) (rs2 rs1 : Reg) (f3 : BitVec 3) : fieldRs2 (encodeS off rs2 rs1 f3) = rs2 := by
  have h : (encodeS off rs2 rs1 f3).extractLsb' 9 3 = rs2.bits := by
    apply BitVec.eq_of_getLsbD_eq
    intro i hi
    simp only [encodeS, BitVec.getLsbD_append, BitVec.getLsbD_extractLsb']
    interval_cases i <;> simp
  rw [fieldRs2, h, Reg.ofBits_bits]

@[simp] theorem fieldImm4_encodeS (off : BitVec 4) (rs2 rs1 : Reg) (f3 : BitVec 3) : fieldImm4 (encodeS off rs2 rs1 f3) = off := by
  have h : (encodeS off rs2 rs1 f3).extractLsb' 12 4 = off := by
    apply BitVec.eq_of_getLsbD_eq
    intro i hi
    simp only [encodeS, BitVec.getLsbD_append, BitVec.getLsbD_extractLsb']
    interval_cases i <;> simp
  rw [fieldImm4, h]

theorem key_encodeS (off : BitVec 4) (rs2 rs1 : Reg) (f3 : BitVec 3) : encodeS off rs2 rs1 f3 &&& 0x003F#16 = 0#10 ++ f3 ++ 0b011#3 := by
  apply BitVec.eq_of_getLsbD_eq
  intro i hi
  simp only [encodeS, BitVec.getLsbD_and, BitVec.getLsbD_append]
  interval_cases i <;> simp

@[simp] theorem fieldRd_encodeL (off : BitVec 4) (rs2 rd : Reg) (f3 : BitVec 3) : fieldRd (encodeL off rs2 rd f3) = rd := by
  have h : (encodeL off rs2 rd f3).extractLsb' 6 3 = rd.bits := by
    apply BitVec.eq_of_getLsbD_eq
    intro i hi
    simp only [encodeL, BitVec.getLsbD_append, BitVec.getLsbD_extractLsb']
    interval_cases i <;> simp
  rw [fieldRd, h, Reg.ofBits_bits]

@[simp] theorem fieldRs2_encodeL (off : BitVec 4) (rs2 rd : Reg) (f3 : BitVec 3) : fieldRs2 (encodeL off rs2 rd f3) = rs2 := by
  have h : (encodeL off rs2 rd f3).extractLsb' 9 3 = rs2.bits := by
    apply BitVec.eq_of_getLsbD_eq
    intro i hi
    simp only [encodeL, BitVec.getLsbD_append, BitVec.getLsbD_extractLsb']
    interval_cases i <;> simp
  rw [fieldRs2, h, Reg.ofBits_bits]

@[simp] theorem fieldImm4_encodeL (off : BitVec 4) (rs2 rd : Reg) (f3 : BitVec 3) : fieldImm4 (encodeL off rs2 rd f3) = off := by
  have h : (encodeL off rs2 rd f3).extractLsb' 12 4 = off := by
    apply BitVec.eq_of_getLsbD_eq
    intro i hi
    simp only [encodeL, BitVec.getLsbD_append, BitVec.getLsbD_extractLsb']
    interval_cases i <;> simp
  rw [fieldImm4, h]

theorem key_encodeL (off : BitVec 4) (rs2 rd : Reg) (f3 : BitVec 3) : encodeL off rs2 rd f3 &&& 0x003F#16 = 0#10 ++ f3 ++ 0b100#3 := by
  apply BitVec.eq_of_getLsbD_eq
  intro i hi
  simp only [encodeL, BitVec.getLsbD_and, BitVec.getLsbD_append]
  interval_cases i <;> simp

@[simp] theorem fieldRd_encodeJ (l : BitVec 1) (off : BitVec 10) (rd : Reg) : fieldRd (encodeJ l off rd) = rd := by
  have h : (encodeJ l off rd).extractLsb' 6 3 = rd.bits := by
    apply BitVec.eq_of_getLsbD_eq
    intro i hi
    simp only [encodeJ, BitVec.getLsbD_append, BitVec.getLsbD_extractLsb']
    interval_cases i <;> simp
  rw [fieldRd, h, Reg.ofBits_bits]

theorem key_encodeJ (l : BitVec 1) (off : BitVec 10) (rd : Reg) : encodeJ l off rd &&& 0x8007#16 = l ++ 0#12 ++ 0b101#3 := by
  apply BitVec.eq_of_getLsbD_eq
  intro i hi
  simp only [encodeJ, BitVec.getLsbD_and, BitVec.getLsbD_append]
  interval_cases i <;> simp

@[simp] theorem fieldRd_encodeU (fl : BitVec 1) (imm9 : BitVec 9) (rd : Reg) : fieldRd (encodeU fl imm9 rd) = rd := by
  have h : (encodeU fl imm9 rd).extractLsb' 6 3 = rd.bits := by
    apply BitVec.eq_of_getLsbD_eq
    intro i hi
    simp only [encodeU, BitVec.getLsbD_append, BitVec.getLsbD_extractLsb']
    interval_cases i <;> simp
  rw [fieldRd, h, Reg.ofBits_bits]

theorem key_encodeU (fl : BitVec 1) (imm9 : BitVec 9) (rd : Reg) : encodeU fl imm9 rd &&& 0x8007#16 = fl ++ 0#12 ++ 0b110#3 := by
  apply BitVec.eq_of_getLsbD_eq
  intro i hi
  simp only [encodeU, BitVec.getLsbD_and, BitVec.getLsbD_append]
  interval_cases i <;> simp

@[simp] theorem fieldSvc_encodeSys (svc : BitVec 10) : fieldSvc (encodeSys svc) = svc := by
  have h : (encodeSys svc).extractLsb' 6 10 = svc := by
    apply BitVec.eq_of_getLsbD_eq
    intro i hi
    simp only [encodeSys, BitVec.getLsbD_append, BitVec.getLsbD_extractLsb']
    interval_cases i <;> simp
  rw [fieldSvc, h]

theorem key_encodeSys (svc : BitVec 10) : encodeSys svc &&& 0x003F#16 = 0#10 ++ 0b000#3 ++ 0b111#3 := by
  apply BitVec.eq_of_getLsbD_eq
  intro i hi
  simp only [encodeSys, BitVec.getLsbD_and, BitVec.getLsbD_append]
  interval_cases i <;> simp

/-- An even branch offset survives encoding (R72). -/
theorem fieldBranchOffset_encodeB (off : BitVec 5) (rs2 rs1 : Reg) (f3 : BitVec 3)
    (h : evenBranchOffset off = true) : fieldBranchOffset (encodeB off rs2 rs1 f3) = off := by
  have h0 : off.getLsbD 0 = false := by simpa [evenBranchOffset] using h
  apply BitVec.eq_of_getLsbD_eq
  intro i hi
  simp only [fieldBranchOffset, encodeB, BitVec.getLsbD_append, BitVec.getLsbD_extractLsb']
  interval_cases i <;> simp_all

/-- An even jump offset survives encoding (R74). -/
theorem fieldJumpOffset_encodeJ (l : BitVec 1) (off : BitVec 10) (rd : Reg)
    (h : evenJumpOffset off = true) : fieldJumpOffset (encodeJ l off rd) = off := by
  have h0 : off.getLsbD 0 = false := by simpa [evenJumpOffset] using h
  apply BitVec.eq_of_getLsbD_eq
  intro i hi
  simp only [fieldJumpOffset, encodeJ, BitVec.getLsbD_append, BitVec.getLsbD_extractLsb']
  interval_cases i <;> simp_all

/-- The U-type immediate survives encoding (R75). -/
theorem fieldImm9_encodeU (fl : BitVec 1) (imm9 : BitVec 9) (rd : Reg) :
    fieldImm9 (encodeU fl imm9 rd) = imm9 := by
  apply BitVec.eq_of_getLsbD_eq
  intro i hi
  simp only [fieldImm9, encodeU, BitVec.getLsbD_append, BitVec.getLsbD_extractLsb']
  interval_cases i <;> simp

/-- The two bytes of a word give the word back (R30). -/
@[simp] theorem wordOfBytes_bytes (w : Word) : wordOfBytes (lowByte w) (highByte w) = w := by
  apply BitVec.eq_of_getLsbD_eq
  intro i hi
  simp only [wordOfBytes, lowByte, highByte, BitVec.getLsbD_append, BitVec.getLsbD_extractLsb']
  interval_cases i <;> simp

/-- A 16-bit word is its own table word. -/
@[simp] theorem tableWord_toNat (w : Word) : tableWord 16 w.toNat = w := by
  simp only [tableWord]
  exact BitVec.eq_of_toNat_eq (by simp; omega)

end Sys2Proof
end

