-- ==== Sys2Proof/Laws/Numbers.lean ====
section
/-! SUPPORT. The model's bit-level tests and byte operations as statements about numbers, the terms of the
obligations. -/

namespace Sys2Proof

theorem wordOfBytes_toNat (lo hi : Byte) : (wordOfBytes lo hi).toNat = lo.toNat + 256 * hi.toNat := by
  have h : (wordOfBytes lo hi).toNat = hi.toNat <<< 8 ||| lo.toNat := BitVec.toNat_append hi lo
  rw [h, ← Nat.shiftLeft_add_eq_or_of_lt lo.isLt, Nat.shiftLeft_eq]
  omega

theorem lowByte_toNat (w : Word) : (lowByte w).toNat = w.toNat % 256 := by
  simp [lowByte, BitVec.extractLsb'_toNat]

theorem highByte_toNat (w : Word) : (highByte w).toNat = w.toNat / 256 := by
  have := w.isLt
  simp only [highByte, BitVec.extractLsb'_toNat, Nat.shiftRight_eq_div_pow]
  omega

/-- A word is made of its two bytes (R30). -/
theorem wordOfBytes_lowByte_highByte (w : Word) : wordOfBytes (lowByte w) (highByte w) = w := by
  apply BitVec.eq_of_toNat_eq
  rw [wordOfBytes_toNat, lowByte_toNat, highByte_toNat]
  omega

namespace Machine

theorem inMmio_iff (a : Word) : inMmio a = true ↔ 0xF000 ≤ a.toNat := by
  simp [inMmio, Config.mmioBase, BitVec.le_def]

theorem not_inMmio_iff (a : Word) : inMmio a = false ↔ a.toNat < 0xF000 := by
  have := inMmio_iff a
  cases h : inMmio a <;> simp [h] at this ⊢ <;> omega

theorem isOdd_iff (a : Word) : isOdd a = true ↔ a.toNat % 2 = 1 := by
  simp [isOdd, BitVec.getLsbD]

theorem not_isOdd_iff (a : Word) : isOdd a = false ↔ a.toNat % 2 = 0 := by
  simp [isOdd, BitVec.getLsbD]

theorem inRom_iff (p : Platform) (a : Word) : p.inRom a = true ↔ InRom p a := by
  simp [Platform.inRom, InRom, BitVec.le_def]

/-- The registers of a list may be read exactly where the operand read lets each pass. -/
theorem canRead_iff (s : State) (l : List Reg) : CanRead s l ↔ ∀ r ∈ l, s.readable r = true := by
  simp only [CanRead, State.readable_iff]
  exact ⟨fun h r hr hp => h hp r hr, fun h hp r hr => h r hr hp⟩

/-- The register that the operand read of a list reports. -/
theorem firstUndefined_iff (s : State) (l : List Reg) (r : Reg) : FirstUndefined s l r ↔
    ∃ pre post, l = pre ++ r :: post ∧ (∀ q ∈ pre, s.readable q = true) ∧ s.readable r = false := by
  simp only [FirstUndefined, State.readable]
  cases s.platform.undefRegRead <;> simp

/-- The second byte of an aligned word. -/
theorem toNat_add_one {a : Word} (h : a.toNat % 2 = 0) : (a + 1#16).toNat = a.toNat + 1 := by
  rw [BitVec.toNat_add]
  simp
  omega

/-- The word at an even address is two storage bytes, the low one first (R30). -/
theorem State.wordAt_toNat (s : State) {a : Word} (h : a.toNat % 2 = 0) :
    (s.wordAt a).toNat = (s.mem.readByte a.toNat).toNat + 256 * (s.mem.readByte (a.toNat + 1)).toNat := by
  rw [State.wordAt, wordOfBytes_toNat, State.byteAt, State.byteAt, toNat_add_one h]

/-- A pc-relative or base-relative sum as a number modulo 2^16 (R46, R140, R180). -/
theorem add_signExtend_toNat {n : Nat} (p : Word) (x : BitVec n) (h : n ≤ 16) :
    ((p + x.signExtend 16).toNat : Int) = ((p.toNat : Int) + x.toInt) % 65536 := by
  have hx := BitVec.toInt_signExtend_of_le (x := x) (v := 16) h
  have hn : ((x.signExtend 16).toNat : Int) = x.toInt % 65536 := by
    rw [← hx, BitVec.toInt_eq_toNat_cond]
    simp
    split <;> omega
  rw [BitVec.toNat_add]
  omega

end Machine

end Sys2Proof
end

