-- ==== Sys2Proof/Laws/PerInstr.lean ====
section
/-! SUPPORT. The per-instruction family EncodeMatches: the encoded word of an instruction matches the row of
the opcode table that carries its mnemonic (R80). -/

namespace Sys2Proof.Laws

/-- The row of the opcode table an instruction belongs to, by its place in the table (R80). -/
def EncodeMatches.rowIndex : Instr → Nat
  | .add _ _ => 0
  | .sub _ _ => 1
  | .slt _ _ => 2
  | .sltu _ _ => 3
  | .sll _ _ => 4
  | .srl _ _ => 5
  | .sra _ _ => 6
  | .or _ _ => 7
  | .and _ _ => 8
  | .xor _ _ => 9
  | .mv _ _ => 10
  | .jr _ => 11
  | .jalr _ _ => 12
  | .addi _ _ => 13
  | .slti _ _ => 14
  | .sltui _ _ => 15
  | .slli _ _ => 16
  | .srli _ _ => 17
  | .srai _ _ => 18
  | .ori _ _ => 19
  | .andi _ _ => 20
  | .xori _ _ => 21
  | .li _ _ => 22
  | .beq _ _ _ => 23
  | .bne _ _ _ => 24
  | .bz _ _ => 25
  | .bnz _ _ => 26
  | .blt _ _ _ => 27
  | .bge _ _ _ => 28
  | .bltu _ _ _ => 29
  | .bgeu _ _ _ => 30
  | .sb _ _ _ => 31
  | .sw _ _ _ => 32
  | .lb _ _ _ => 33
  | .lw _ _ _ => 34
  | .lbu _ _ _ => 35
  | .j _ => 36
  | .jal _ _ => 37
  | .lui _ _ => 38
  | .auipc _ _ => 39
  | .ecall _ => 40

/-- The encoded word matches the instruction's own row. -/
def EncodeMatches.Statement (i : Instr) : Prop :=
  ∃ r, opcodeTable[EncodeMatches.rowIndex i]? = some r ∧ r.matches (encode i) = true

theorem EncodeMatches.add (rd rs2 : Reg) : EncodeMatches.Statement (.add rd rs2) := by
  refine ⟨_, rfl, ?_⟩
  simp [OpcodeRow.matches, encode, key_encodeR]

theorem EncodeMatches.sub (rd rs2 : Reg) : EncodeMatches.Statement (.sub rd rs2) := by
  refine ⟨_, rfl, ?_⟩
  simp [OpcodeRow.matches, encode, key_encodeR]

theorem EncodeMatches.slt (rd rs2 : Reg) : EncodeMatches.Statement (.slt rd rs2) := by
  refine ⟨_, rfl, ?_⟩
  simp [OpcodeRow.matches, encode, key_encodeR]

theorem EncodeMatches.sltu (rd rs2 : Reg) : EncodeMatches.Statement (.sltu rd rs2) := by
  refine ⟨_, rfl, ?_⟩
  simp [OpcodeRow.matches, encode, key_encodeR]

theorem EncodeMatches.sll (rd rs2 : Reg) : EncodeMatches.Statement (.sll rd rs2) := by
  refine ⟨_, rfl, ?_⟩
  simp [OpcodeRow.matches, encode, key_encodeR]

theorem EncodeMatches.srl (rd rs2 : Reg) : EncodeMatches.Statement (.srl rd rs2) := by
  refine ⟨_, rfl, ?_⟩
  simp [OpcodeRow.matches, encode, key_encodeR]

theorem EncodeMatches.sra (rd rs2 : Reg) : EncodeMatches.Statement (.sra rd rs2) := by
  refine ⟨_, rfl, ?_⟩
  simp [OpcodeRow.matches, encode, key_encodeR]

theorem EncodeMatches.or (rd rs2 : Reg) : EncodeMatches.Statement (.or rd rs2) := by
  refine ⟨_, rfl, ?_⟩
  simp [OpcodeRow.matches, encode, key_encodeR]

theorem EncodeMatches.and (rd rs2 : Reg) : EncodeMatches.Statement (.and rd rs2) := by
  refine ⟨_, rfl, ?_⟩
  simp [OpcodeRow.matches, encode, key_encodeR]

theorem EncodeMatches.xor (rd rs2 : Reg) : EncodeMatches.Statement (.xor rd rs2) := by
  refine ⟨_, rfl, ?_⟩
  simp [OpcodeRow.matches, encode, key_encodeR]

theorem EncodeMatches.mv (rd rs2 : Reg) : EncodeMatches.Statement (.mv rd rs2) := by
  refine ⟨_, rfl, ?_⟩
  simp [OpcodeRow.matches, encode, key_encodeR]

theorem EncodeMatches.jr (rd : Reg) : EncodeMatches.Statement (.jr rd) := by
  refine ⟨_, rfl, ?_⟩
  simp [OpcodeRow.matches, encode, key_encodeR]

theorem EncodeMatches.jalr (rd rs2 : Reg) : EncodeMatches.Statement (.jalr rd rs2) := by
  refine ⟨_, rfl, ?_⟩
  simp [OpcodeRow.matches, encode, key_encodeR]

theorem EncodeMatches.addi (rd : Reg) (imm : BitVec 7) : EncodeMatches.Statement (.addi rd imm) := by
  refine ⟨_, rfl, ?_⟩
  simp [OpcodeRow.matches, encode, key_encodeI]

theorem EncodeMatches.slti (rd : Reg) (imm : BitVec 7) : EncodeMatches.Statement (.slti rd imm) := by
  refine ⟨_, rfl, ?_⟩
  simp [OpcodeRow.matches, encode, key_encodeI]

theorem EncodeMatches.sltui (rd : Reg) (imm : BitVec 7) : EncodeMatches.Statement (.sltui rd imm) := by
  refine ⟨_, rfl, ?_⟩
  simp [OpcodeRow.matches, encode, key_encodeI]

theorem EncodeMatches.slli (rd : Reg) (shamt : BitVec 4) : EncodeMatches.Statement (.slli rd shamt) := by
  refine ⟨_, rfl, ?_⟩
  simp [OpcodeRow.matches, encode, key_encodeShift]

theorem EncodeMatches.srli (rd : Reg) (shamt : BitVec 4) : EncodeMatches.Statement (.srli rd shamt) := by
  refine ⟨_, rfl, ?_⟩
  simp [OpcodeRow.matches, encode, key_encodeShift]

theorem EncodeMatches.srai (rd : Reg) (shamt : BitVec 4) : EncodeMatches.Statement (.srai rd shamt) := by
  refine ⟨_, rfl, ?_⟩
  simp [OpcodeRow.matches, encode, key_encodeShift]

theorem EncodeMatches.ori (rd : Reg) (imm : BitVec 7) : EncodeMatches.Statement (.ori rd imm) := by
  refine ⟨_, rfl, ?_⟩
  simp [OpcodeRow.matches, encode, key_encodeI]

theorem EncodeMatches.andi (rd : Reg) (imm : BitVec 7) : EncodeMatches.Statement (.andi rd imm) := by
  refine ⟨_, rfl, ?_⟩
  simp [OpcodeRow.matches, encode, key_encodeI]

theorem EncodeMatches.xori (rd : Reg) (imm : BitVec 7) : EncodeMatches.Statement (.xori rd imm) := by
  refine ⟨_, rfl, ?_⟩
  simp [OpcodeRow.matches, encode, key_encodeI]

theorem EncodeMatches.li (rd : Reg) (imm : BitVec 7) : EncodeMatches.Statement (.li rd imm) := by
  refine ⟨_, rfl, ?_⟩
  simp [OpcodeRow.matches, encode, key_encodeI]

theorem EncodeMatches.beq (rs1 rs2 : Reg) (off : BitVec 5) : EncodeMatches.Statement (.beq rs1 rs2 off) := by
  refine ⟨_, rfl, ?_⟩
  simp [OpcodeRow.matches, encode, key_encodeB]

theorem EncodeMatches.bne (rs1 rs2 : Reg) (off : BitVec 5) : EncodeMatches.Statement (.bne rs1 rs2 off) := by
  refine ⟨_, rfl, ?_⟩
  simp [OpcodeRow.matches, encode, key_encodeB]

theorem EncodeMatches.bz (rs1 : Reg) (off : BitVec 5) : EncodeMatches.Statement (.bz rs1 off) := by
  refine ⟨_, rfl, ?_⟩
  simp [OpcodeRow.matches, encode, key_encodeB]

theorem EncodeMatches.bnz (rs1 : Reg) (off : BitVec 5) : EncodeMatches.Statement (.bnz rs1 off) := by
  refine ⟨_, rfl, ?_⟩
  simp [OpcodeRow.matches, encode, key_encodeB]

theorem EncodeMatches.blt (rs1 rs2 : Reg) (off : BitVec 5) : EncodeMatches.Statement (.blt rs1 rs2 off) := by
  refine ⟨_, rfl, ?_⟩
  simp [OpcodeRow.matches, encode, key_encodeB]

theorem EncodeMatches.bge (rs1 rs2 : Reg) (off : BitVec 5) : EncodeMatches.Statement (.bge rs1 rs2 off) := by
  refine ⟨_, rfl, ?_⟩
  simp [OpcodeRow.matches, encode, key_encodeB]

theorem EncodeMatches.bltu (rs1 rs2 : Reg) (off : BitVec 5) : EncodeMatches.Statement (.bltu rs1 rs2 off) := by
  refine ⟨_, rfl, ?_⟩
  simp [OpcodeRow.matches, encode, key_encodeB]

theorem EncodeMatches.bgeu (rs1 rs2 : Reg) (off : BitVec 5) : EncodeMatches.Statement (.bgeu rs1 rs2 off) := by
  refine ⟨_, rfl, ?_⟩
  simp [OpcodeRow.matches, encode, key_encodeB]

theorem EncodeMatches.sb (rs2 : Reg) (off : BitVec 4) (rs1 : Reg) : EncodeMatches.Statement (.sb rs2 off rs1) := by
  refine ⟨_, rfl, ?_⟩
  simp [OpcodeRow.matches, encode, key_encodeS]

theorem EncodeMatches.sw (rs2 : Reg) (off : BitVec 4) (rs1 : Reg) : EncodeMatches.Statement (.sw rs2 off rs1) := by
  refine ⟨_, rfl, ?_⟩
  simp [OpcodeRow.matches, encode, key_encodeS]

theorem EncodeMatches.lb (rd : Reg) (off : BitVec 4) (rs2 : Reg) : EncodeMatches.Statement (.lb rd off rs2) := by
  refine ⟨_, rfl, ?_⟩
  simp [OpcodeRow.matches, encode, key_encodeL]

theorem EncodeMatches.lw (rd : Reg) (off : BitVec 4) (rs2 : Reg) : EncodeMatches.Statement (.lw rd off rs2) := by
  refine ⟨_, rfl, ?_⟩
  simp [OpcodeRow.matches, encode, key_encodeL]

theorem EncodeMatches.lbu (rd : Reg) (off : BitVec 4) (rs2 : Reg) : EncodeMatches.Statement (.lbu rd off rs2) := by
  refine ⟨_, rfl, ?_⟩
  simp [OpcodeRow.matches, encode, key_encodeL]

theorem EncodeMatches.j (off : BitVec 10) : EncodeMatches.Statement (.j off) := by
  refine ⟨_, rfl, ?_⟩
  simp [OpcodeRow.matches, encode, key_encodeJ]

theorem EncodeMatches.jal (rd : Reg) (off : BitVec 10) : EncodeMatches.Statement (.jal rd off) := by
  refine ⟨_, rfl, ?_⟩
  simp [OpcodeRow.matches, encode, key_encodeJ]

theorem EncodeMatches.lui (rd : Reg) (imm9 : BitVec 9) : EncodeMatches.Statement (.lui rd imm9) := by
  refine ⟨_, rfl, ?_⟩
  simp [OpcodeRow.matches, encode, key_encodeU]

theorem EncodeMatches.auipc (rd : Reg) (imm9 : BitVec 9) : EncodeMatches.Statement (.auipc rd imm9) := by
  refine ⟨_, rfl, ?_⟩
  simp [OpcodeRow.matches, encode, key_encodeU]

theorem EncodeMatches.ecall (svc : BitVec 10) : EncodeMatches.Statement (.ecall svc) := by
  refine ⟨_, rfl, ?_⟩
  simp [OpcodeRow.matches, encode, key_encodeSys]

end Sys2Proof.Laws
end

