-- ==== Sys2Proof/Laws/Step.lean ====
section
/-! SUPPORT. What the operand read of an instruction, the fetch and one step can do, said once. -/

namespace Sys2Proof.Machine

/-- Every instruction begins with its operand read (R23, step 5), of the registers that R12 says it reads. -/
theorem exec_reads (i : Instr) (s : State) : ∃ rest, exec i s = readOperands (reads i) s rest := by
  cases i <;> exact ⟨_, rfl⟩

/-- Everything the fetch can do (R23, steps 1 to 3). -/
theorem fetch_cases {s : State} {r : Except Fault Word} (h : fetch s = r) :
    (isOdd s.pc = true ∧ r = .error (.misalignedFetch s.pc)) ∨
    (isOdd s.pc = false ∧ inMmio s.pc = true ∧ r = .error (.fetchFromMmio s.pc)) ∨
    (isOdd s.pc = false ∧ inMmio s.pc = false ∧ r = .ok (s.wordAt s.pc)) := by
  subst h
  unfold fetch
  cases isOdd s.pc <;> cases inMmio s.pc <;> simp

/-- If a step answers a next state, either the run had ended and nothing changed, or a fetched word
decoded and its instruction answered that state. -/
theorem step_next {s t : State} (h : step s = .next t) :
    (s.runState ≠ .running ∧ t = s) ∨
    (s.runState = .running ∧ ∃ w i, fetch s = .ok w ∧ decode w = .ok i ∧ exec i s = .next t) := by
  unfold step at h
  split at h
  · next hr =>
    right
    refine ⟨hr, ?_⟩
    unfold stepRunning at h
    split at h
    · next w hw =>
      unfold execWord at h
      split at h
      · next i hi => exact ⟨w, i, hw, hi, h⟩
      · simp [raise] at h
    · simp [raise] at h
  · next hr => exact .inl ⟨by simp [hr], by simpa using h.symm⟩

end Sys2Proof.Machine
end

