-- ==== Sys2Proof/Tests/Slice0.lean ====
section
/-! SUPPORT. Own tests: the well-formedness smoke test, one word per constructor written out from the spec's
encoding tables, one-step vectors of spec/95_test_vectors.md, and a witness for the hypotheses of every
obligation that has any. -/

namespace Sys2Proof.Tests

open Sys2Proof.Machine Sys2Proof.Statements

/-! Well-formedness: each check refuses an ill-formed term (R72, R74). -/

theorem test_odd_branch_offset_refused : wellFormed (.beq .x1 .x2 0b00001#5) = false := by decide

theorem test_odd_zero_branch_offset_refused : wellFormed (.bz .x1 0b11111#5) = false := by decide

theorem test_odd_jump_offset_refused : wellFormed (.j 0b0000000001#10) = false := by decide

theorem test_odd_link_offset_refused : wellFormed (.jal .x1 0b1111111111#10) = false := by decide

theorem test_even_offsets_accepted :
    wellFormed (.bgeu .x7 .x7 0b11110#5) = true ∧ wellFormed (.jal .x7 0b1111111110#10) = true := by decide

/-! Decoding: words of spec/95_test_vectors.md, parts 1 and 2, as bits 15:12 11:9 8:6 5:3 2:0. -/

theorem test_decode_r_type_sums :
    decode 0b0000010001000000#16 = .ok (.add .x1 .x2) ∧
    decode 0b0001010001000000#16 = .ok (.sub .x1 .x2) ∧
    decode 0b0010010001001000#16 = .ok (.slt .x1 .x2) ∧
    decode 0b0011010001010000#16 = .ok (.sltu .x1 .x2) := by decide

theorem test_encode_r_type_sums :
    encode (.add .x1 .x2) = 0b0000010001000000#16 ∧
    encode (.sub .x1 .x2) = 0b0001010001000000#16 ∧
    encode (.slt .x1 .x2) = 0b0010010001001000#16 ∧
    encode (.sltu .x1 .x2) = 0b0011010001010000#16 := by decide

theorem test_decode_r_type_shifts :
    decode 0b0100010001011000#16 = .ok (.sll .x1 .x2) ∧
    decode 0b0101010001011000#16 = .ok (.srl .x1 .x2) ∧
    decode 0b0110010001011000#16 = .ok (.sra .x1 .x2) := by decide

theorem test_encode_r_type_shifts :
    encode (.sll .x1 .x2) = 0b0100010001011000#16 ∧
    encode (.srl .x1 .x2) = 0b0101010001011000#16 ∧
    encode (.sra .x1 .x2) = 0b0110010001011000#16 := by decide

theorem test_decode_r_type_logic :
    decode 0b0111010001100000#16 = .ok (.or .x1 .x2) ∧
    decode 0b1000010001101000#16 = .ok (.and .x1 .x2) ∧
    decode 0b1001010001110000#16 = .ok (.xor .x1 .x2) ∧
    decode 0b1010010001111000#16 = .ok (.mv .x1 .x2) := by decide

theorem test_encode_r_type_logic :
    encode (.or .x1 .x2) = 0b0111010001100000#16 ∧
    encode (.and .x1 .x2) = 0b1000010001101000#16 ∧
    encode (.xor .x1 .x2) = 0b1001010001110000#16 ∧
    encode (.mv .x1 .x2) = 0b1010010001111000#16 := by decide

theorem test_decode_r_type_jumps :
    decode 0b1011000001000000#16 = .ok (.jr .x1) ∧
    decode 0b1100010001000000#16 = .ok (.jalr .x1 .x2) := by decide

theorem test_encode_r_type_jumps :
    encode (.jr .x1) = 0b1011000001000000#16 ∧
    encode (.jalr .x1 .x2) = 0b1100010001000000#16 := by decide

theorem test_decode_i_type :
    decode 0b1111111001000001#16 = .ok (.addi .x1 0b1111111#7) ∧
    decode 0b1111101001001001#16 = .ok (.slti .x1 0b1111101#7) ∧
    decode 0b0111111001010001#16 = .ok (.sltui .x1 0b0111111#7) ∧
    decode 0b0010101001100001#16 = .ok (.ori .x1 21#7) ∧
    decode 0b0001111001101001#16 = .ok (.andi .x1 15#7) ∧
    decode 0b0000001001110001#16 = .ok (.xori .x1 1#7) ∧
    decode 0b1000000001111001#16 = .ok (.li .x1 0b1000000#7) := by decide

theorem test_encode_i_type :
    encode (.addi .x1 0b1111111#7) = 0b1111111001000001#16 ∧
    encode (.slti .x1 0b1111101#7) = 0b1111101001001001#16 ∧
    encode (.sltui .x1 0b0111111#7) = 0b0111111001010001#16 ∧
    encode (.ori .x1 21#7) = 0b0010101001100001#16 ∧
    encode (.andi .x1 15#7) = 0b0001111001101001#16 ∧
    encode (.xori .x1 1#7) = 0b0000001001110001#16 ∧
    encode (.li .x1 0b1000000#7) = 0b1000000001111001#16 := by decide

theorem test_decode_i_type_shifts :
    decode 0b0010011001011001#16 = .ok (.slli .x1 3#4) ∧
    decode 0b0101111001011001#16 = .ok (.srli .x1 15#4) ∧
    decode 0b1000011001011001#16 = .ok (.srai .x1 3#4) := by decide

theorem test_encode_i_type_shifts :
    encode (.slli .x1 3#4) = 0b0010011001011001#16 ∧
    encode (.srli .x1 15#4) = 0b0101111001011001#16 ∧
    encode (.srai .x1 3#4) = 0b1000011001011001#16 := by decide

theorem test_decode_b_type_equal :
    decode 0b0011010001000010#16 = .ok (.beq .x1 .x2 6#5) ∧
    decode 0b1110010001001010#16 = .ok (.bne .x1 .x2 0b11100#5) ∧
    decode 0b0111000001010010#16 = .ok (.bz .x1 14#5) ∧
    decode 0b1000000001011010#16 = .ok (.bnz .x1 0b10000#5) := by decide

theorem test_encode_b_type_equal :
    encode (.beq .x1 .x2 6#5) = 0b0011010001000010#16 ∧
    encode (.bne .x1 .x2 0b11100#5) = 0b1110010001001010#16 ∧
    encode (.bz .x1 14#5) = 0b0111000001010010#16 ∧
    encode (.bnz .x1 0b10000#5) = 0b1000000001011010#16 := by decide

theorem test_decode_b_type_order :
    decode 0b0010010001100010#16 = .ok (.blt .x1 .x2 4#5) ∧
    decode 0b1111010001101010#16 = .ok (.bge .x1 .x2 0b11110#5) ∧
    decode 0b0100010001110010#16 = .ok (.bltu .x1 .x2 8#5) ∧
    decode 0b1100010001111010#16 = .ok (.bgeu .x1 .x2 0b11000#5) := by decide

theorem test_encode_b_type_order :
    encode (.blt .x1 .x2 4#5) = 0b0010010001100010#16 ∧
    encode (.bge .x1 .x2 0b11110#5) = 0b1111010001101010#16 ∧
    encode (.bltu .x1 .x2 8#5) = 0b0100010001110010#16 ∧
    encode (.bgeu .x1 .x2 0b11000#5) = 0b1100010001111010#16 := by decide

theorem test_decode_s_type :
    decode 0b1000001010000011#16 = .ok (.sb .x1 0b1000#4 .x2) ∧
    decode 0b0110001010001011#16 = .ok (.sw .x1 6#4 .x2) := by decide

theorem test_encode_s_type :
    encode (.sb .x1 0b1000#4 .x2) = 0b1000001010000011#16 ∧
    encode (.sw .x1 6#4 .x2) = 0b0110001010001011#16 := by decide

theorem test_decode_l_type :
    decode 0b0111010001000100#16 = .ok (.lb .x1 7#4 .x2) ∧
    decode 0b1111010001001100#16 = .ok (.lw .x1 0b1111#4 .x2) ∧
    decode 0b0010010001100100#16 = .ok (.lbu .x1 2#4 .x2) := by decide

theorem test_encode_l_type :
    encode (.lb .x1 7#4 .x2) = 0b0111010001000100#16 ∧
    encode (.lw .x1 0b1111#4 .x2) = 0b1111010001001100#16 ∧
    encode (.lbu .x1 2#4 .x2) = 0b0010010001100100#16 := by decide

theorem test_decode_j_type :
    decode 0b0100000000000101#16 = .ok (.j 0b1000000000#10) ∧
    decode 0b1011111001111101#16 = .ok (.jal .x1 510#10) := by decide

theorem test_encode_j_type :
    encode (.j 0b1000000000#10) = 0b0100000000000101#16 ∧
    encode (.jal .x1 510#10) = 0b1011111001111101#16 := by decide

theorem test_decode_u_type :
    decode 0b0111100010000110#16 = .ok (.lui .x2 0x1E0#9) ∧
    decode 0b1111111001110110#16 = .ok (.auipc .x1 510#9) := by decide

theorem test_encode_u_type :
    encode (.lui .x2 0x1E0#9) = 0b0111100010000110#16 ∧
    encode (.auipc .x1 510#9) = 0b1111111001110110#16 := by decide

theorem test_decode_sys_type :
    decode 0b0000001010000111#16 = .ok (.ecall 10#10) ∧
    decode 0b1111111111000111#16 = .ok (.ecall 1023#10) := by decide

theorem test_encode_sys_type :
    encode (.ecall 10#10) = 0b0000001010000111#16 ∧
    encode (.ecall 1023#10) = 0b1111111111000111#16 := by decide

theorem test_decode_ignored_fields :
    decode 0b1011101001000000#16 = .ok (.jr .x1) ∧
    decode 0b0111111001010010#16 = .ok (.bz .x1 14#5) ∧
    decode 0b0111111011111101#16 = .ok (.j 0b1111111110#10) := by decide

theorem test_reserved_words_refused :
    decode 0b0001000000001000#16 = .error .rTypeFunct ∧
    decode 0b1101000000000000#16 = .error .rTypeFunct ∧
    decode 0b0110000000011001#16 = .error .shiftType ∧
    decode 0b0000000000010011#16 = .error .sTypeFunc3 ∧
    decode 0b0000000000101100#16 = .error .lTypeFunc3 ∧
    decode 0b0000000000001111#16 = .error .sysTypeFunc3 := by decide

/-- Bytes are read low address first (R31), and a lone byte is refused by name. -/
theorem test_decode_bytes :
    decodeBytes [0x40#8, 0x04#8, 0x77#8] = .ok (.add .x1 .x2, [0x77#8]) ∧
    decodeBytes [0x40#8] = .error .truncated := by decide

/-! One step on a small state. -/

/-- A state with `pc`, x1 and x2 chosen. -/
def cpu (pc x1 x2 : Word) : State :=
  { State.reset with pc := pc, regs := { RegFile.reset with x1 := x1, x2 := x2 } }

/-- The same with the listed storage and read-only ranges. -/
def cpuWith (pc x1 x2 : Word) (mem : Memory) (rom : List RomRange) : State :=
  { cpu pc x1 x2 with mem := mem, platform := { Platform.default with romRanges := rom } }

/-- The same with a table of services. -/
def cpuServed (pc x6 : Word) (services : List Service) : State :=
  { State.reset with
    pc := pc, regs := { RegFile.reset with x6 := x6 }
    platform := { Platform.default with services := services } }

/-- One step with the word `w` placed where the fetch reads it. -/
def run1 (w : Nat) (s : State) : Host.Outcome State Fault Refusal := step (s.withFetchWord 16 w)

/-- The state an outcome goes on with. -/
def nextOf : Host.Outcome State Fault Refusal → Option State
  | .next t => some t
  | .fault _ => none
  | .refused _ => none

/-- The fault an outcome is. -/
def faultIn : Host.Outcome State Fault Refusal → Option Fault
  | .next _ => none
  | .fault f => some f
  | .refused _ => none

/-- The refusal an outcome is. -/
def refusalIn : Host.Outcome State Fault Refusal → Option Refusal
  | .next _ => none
  | .fault _ => none
  | .refused r => some r

/-- A register and the pc after that step. -/
def after (w : Nat) (s : State) (r : Reg) : Option (Word × Word) :=
  (nextOf (run1 w s)).map (fun t => (t.reg r, t.pc))

/-- The fault of that step. -/
def faultOf (w : Nat) (s : State) : Option Fault := faultIn (run1 w s)

/-- Two storage bytes and the trace after that step. -/
def stored (w : Nat) (s : State) (a : Nat) : Option (Option Byte × Option Byte × List Event) :=
  (nextOf (run1 w s)).map (fun t => (t.mem.lookup a, t.mem.lookup (a + 1), t.trace))

/-! R-type (VR03, VR06, VR11, VR12, VR17, VR16, VR20, VR23, VR25, VR26, VR29, VR32 to VR37, VR51 to VR54). -/

theorem test_add_wraps_signed : after 0x0440 (cpu 0x0100#16 0x7FFF#16 0x0001#16) .x1 = some (0x8000#16, 0x0102#16) := by decide

theorem test_add_wraps : after 0x0440 (cpu 0x0100#16 0xFFFF#16 0x0001#16) .x1 = some (0x0000#16, 0x0102#16) := by decide

theorem test_sub_borrows : after 0x1440 (cpu 0x0100#16 0x0000#16 0x0001#16) .x1 = some (0xFFFF#16, 0x0102#16) := by decide

theorem test_sub_wraps_signed : after 0x1440 (cpu 0x0100#16 0x8000#16 0x0001#16) .x1 = some (0x7FFF#16, 0x0102#16) := by decide

theorem test_slt_exact : after 0x2448 (cpu 0x0100#16 0x8000#16 0x7FFF#16) .x1 = some (0x0001#16, 0x0102#16) := by decide

theorem test_slt_not : after 0x2448 (cpu 0x0100#16 0x7FFF#16 0x8000#16) .x1 = some (0x0000#16, 0x0102#16) := by decide

theorem test_sltu_below : after 0x3450 (cpu 0x0100#16 0x7FFF#16 0x8000#16) .x1 = some (0x0001#16, 0x0102#16) := by decide

theorem test_sltu_not : after 0x3450 (cpu 0x0100#16 0xFFFF#16 0x0000#16) .x1 = some (0x0000#16, 0x0102#16) := by decide

theorem test_sll_low_four_bits : after 0x4458 (cpu 0x0100#16 0x00FF#16 0xFFF4#16) .x1 = some (0x0FF0#16, 0x0102#16) := by decide

theorem test_sll_drops_bit : after 0x4458 (cpu 0x0100#16 0x8001#16 0x0001#16) .x1 = some (0x0002#16, 0x0102#16) := by decide

theorem test_srl_zero_fill : after 0x5458 (cpu 0x0100#16 0xF0F0#16 0x0004#16) .x1 = some (0x0F0F#16, 0x0102#16) := by decide

theorem test_srl_sixteen_is_zero : after 0x5458 (cpu 0x0100#16 0x8000#16 0x0010#16) .x1 = some (0x8000#16, 0x0102#16) := by decide

theorem test_sra_sign_fill : after 0x6458 (cpu 0x0100#16 0xF0F0#16 0x0004#16) .x1 = some (0xFF0F#16, 0x0102#16) := by decide

theorem test_sra_exact : after 0x6458 (cpu 0x0100#16 0x8008#16 0x0003#16) .x1 = some (0xF001#16, 0x0102#16) := by decide

theorem test_or : after 0x7460 (cpu 0x0100#16 0x00F0#16 0x0F0F#16) .x1 = some (0x0FFF#16, 0x0102#16) := by decide

theorem test_and : after 0x8468 (cpu 0x0100#16 0x0FF0#16 0x00FF#16) .x1 = some (0x00F0#16, 0x0102#16) := by decide

theorem test_xor : after 0x9470 (cpu 0x0100#16 0xFFFF#16 0x0F0F#16) .x1 = some (0xF0F0#16, 0x0102#16) := by decide

theorem test_mv : after 0xA478 (cpu 0x0100#16 0x1111#16 0xBEEF#16) .x1 = some (0xBEEF#16, 0x0102#16) := by decide

theorem test_jr_ignores_second_field : after 0xBA40 (cpu 0x0100#16 0x0200#16 0x0300#16) .x1 = some (0x0200#16, 0x0200#16) := by decide

theorem test_jr_keeps_bit_zero : after 0xB040 (cpu 0x0100#16 0x0201#16 0x0000#16) .x1 = some (0x0201#16, 0x0201#16) := by decide

theorem test_jalr_links : after 0xC440 (cpu 0x0100#16 0x5555#16 0x0300#16) .x1 = some (0x0102#16, 0x0300#16) := by decide

theorem test_jalr_same_register : after 0xC240 (cpu 0x0100#16 0x0300#16 0x0000#16) .x1 = some (0x0102#16, 0x0300#16) := by decide

/-! I-type (VI02, VI04, VI06, VI07, VI17, VI18, VI20, VI22, VI26, VI27, VI28, VI30, VI31, VI32, VI37 to VI44, VI48). -/

theorem test_addi_minus_one : after 0xFE41 (cpu 0x0100#16 0x0000#16 0x0000#16) .x1 = some (0xFFFF#16, 0x0102#16) := by decide

theorem test_addi_smallest : after 0x8041 (cpu 0x0100#16 0x0040#16 0x0000#16) .x1 = some (0x0000#16, 0x0102#16) := by decide

theorem test_slti_below : after 0xFA49 (cpu 0x0100#16 0xFFF0#16 0x0000#16) .x1 = some (0x0001#16, 0x0102#16) := by decide

theorem test_slti_equal : after 0xFA49 (cpu 0x0100#16 0xFFFD#16 0x0000#16) .x1 = some (0x0000#16, 0x0102#16) := by decide

theorem test_sltui_sign_extends : after 0x8051 (cpu 0x0100#16 0xFFBF#16 0x0000#16) .x1 = some (0x0001#16, 0x0102#16) := by decide

theorem test_sltui_not : after 0x7E51 (cpu 0x0100#16 0x0040#16 0x0000#16) .x1 = some (0x0000#16, 0x0102#16) := by decide

theorem test_slli_fifteen : after 0x3E59 (cpu 0x0100#16 0x0001#16 0x0000#16) .x1 = some (0x8000#16, 0x0102#16) := by decide

theorem test_slli_drops : after 0x2259 (cpu 0x0100#16 0xC000#16 0x0000#16) .x1 = some (0x8000#16, 0x0102#16) := by decide

theorem test_srli_zero_fill : after 0x4659 (cpu 0x0100#16 0x8008#16 0x0000#16) .x1 = some (0x1001#16, 0x0102#16) := by decide

theorem test_srli_eight : after 0x5059 (cpu 0x0100#16 0xABCD#16 0x0000#16) .x1 = some (0x00AB#16, 0x0102#16) := by decide

theorem test_srai_sign_fill : after 0x8659 (cpu 0x0100#16 0x8008#16 0x0000#16) .x1 = some (0xF001#16, 0x0102#16) := by decide

theorem test_srai_eight : after 0x9059 (cpu 0x0100#16 0xABCD#16 0x0000#16) .x1 = some (0xFFAB#16, 0x0102#16) := by decide

theorem test_ori_sign_extends : after 0x8061 (cpu 0x0100#16 0x0001#16 0x0000#16) .x1 = some (0xFFC1#16, 0x0102#16) := by decide

theorem test_ori_bits : after 0x2A61 (cpu 0x0100#16 0x0100#16 0x0000#16) .x1 = some (0x0115#16, 0x0102#16) := by decide

theorem test_andi_sign_extends : after 0x8069 (cpu 0x0100#16 0xFFFF#16 0x0000#16) .x1 = some (0xFFC0#16, 0x0102#16) := by decide

theorem test_andi_low_bits : after 0x7E69 (cpu 0x0100#16 0xFFFF#16 0x0000#16) .x1 = some (0x003F#16, 0x0102#16) := by decide

theorem test_xori_not : after 0xFE71 (cpu 0x0100#16 0x00F0#16 0x0000#16) .x1 = some (0xFF0F#16, 0x0102#16) := by decide

theorem test_xori_one : after 0x0271 (cpu 0x0100#16 0x1234#16 0x0000#16) .x1 = some (0x1235#16, 0x0102#16) := by decide

theorem test_li_smallest : after 0x8079 (cpu 0x0100#16 0x1111#16 0x0000#16) .x1 = some (0xFFC0#16, 0x0102#16) := by decide

theorem test_li_largest : after 0x7E79 (cpu 0x0100#16 0xFFFF#16 0x0000#16) .x1 = some (0x003F#16, 0x0102#16) := by decide

/-! B-type (VB01 to VB06, VB09, VB10, VB12, VB13, VB15, VB16, VB23, VB26, VB27 to VB29). -/

theorem test_beq_taken : after 0x3442 (cpu 0x0100#16 0x0007#16 0x0007#16) .x1 = some (0x0007#16, 0x0106#16) := by decide

theorem test_beq_not : after 0x3442 (cpu 0x0100#16 0x0007#16 0x0008#16) .x1 = some (0x0007#16, 0x0102#16) := by decide

theorem test_bne_taken : after 0xE44A (cpu 0x0100#16 0x0001#16 0x0002#16) .x1 = some (0x0001#16, 0x00FC#16) := by decide

theorem test_bne_not : after 0xE44A (cpu 0x0100#16 0x0002#16 0x0002#16) .x1 = some (0x0002#16, 0x0102#16) := by decide

theorem test_blt_taken : after 0x2462 (cpu 0x0100#16 0x8000#16 0x0001#16) .x1 = some (0x8000#16, 0x0104#16) := by decide

theorem test_blt_not : after 0x2462 (cpu 0x0100#16 0x0001#16 0x8000#16) .x1 = some (0x0001#16, 0x0102#16) := by decide

theorem test_bge_taken : after 0xF46A (cpu 0x0100#16 0x0005#16 0x0005#16) .x1 = some (0x0005#16, 0x00FE#16) := by decide

theorem test_bge_not : after 0xF46A (cpu 0x0100#16 0x8000#16 0x7FFF#16) .x1 = some (0x8000#16, 0x0102#16) := by decide

theorem test_bltu_taken : after 0x4472 (cpu 0x0100#16 0x0001#16 0x8000#16) .x1 = some (0x0001#16, 0x0108#16) := by decide

theorem test_bltu_not : after 0x4472 (cpu 0x0100#16 0x8000#16 0x0001#16) .x1 = some (0x8000#16, 0x0102#16) := by decide

theorem test_bgeu_taken : after 0xC47A (cpu 0x0100#16 0xFFFF#16 0x0001#16) .x1 = some (0xFFFF#16, 0x00F8#16) := by decide

theorem test_bgeu_not : after 0xC47A (cpu 0x0100#16 0x0000#16 0x0001#16) .x1 = some (0x0000#16, 0x0102#16) := by decide

theorem test_bz_ignores_second_field : after 0x7E52 (cpu 0x0100#16 0x0000#16 0xFFFF#16) .x1 = some (0x0000#16, 0x010E#16) := by decide

theorem test_bz_not : after 0x7052 (cpu 0x0100#16 0x8000#16 0x0000#16) .x1 = some (0x8000#16, 0x0102#16) := by decide

theorem test_bnz_not : after 0x805A (cpu 0x0100#16 0x0000#16 0x0001#16) .x1 = some (0x0000#16, 0x0102#16) := by decide

theorem test_bnz_wraps_below_zero : after 0x805A (cpu 0x0004#16 0x0001#16 0x0000#16) .x1 = some (0x0001#16, 0xFFF4#16) := by decide

/-! S-type (VM01, VM04, VM05, VM06, VM08, VM09, VM10 and the ROM paragraph of 2.9). -/

theorem test_sb_one_byte :
    stored 0x8283 (cpuWith 0x0200#16 0xABCD#16 0x0108#16 [(0x0100, 0x11#8), (0x0101, 0x22#8)] []) 0x0100
      = some (some 0xCD#8, some 0x22#8, []) := by decide

theorem test_sb_wraps_into_device :
    stored 0x8283 (cpu 0x0200#16 0x00AB#16 0x0003#16) 0xFFFB
      = some (none, none, [.mmioWrite 0xFFFB#16 .byte 0x00AB#16]) := by decide

/-- The read-only range of the paragraph after table 2.9. -/
def lowRom : List RomRange := [{ first := 0x0020#16, last := 0x7FFF#16 }]

theorem test_sw_little_endian :
    stored 0x028B (cpu 0x0200#16 0x34F2#16 0x0100#16) 0x0100 = some (some 0xF2#8, some 0x34#8, []) ∧
    stored 0x028B (cpuWith 0x9000#16 0x1234#16 0x8000#16 [] lowRom) 0x8000
      = some (some 0x34#8, some 0x12#8, []) := by decide

theorem test_store_faults :
    faultOf 0x728B (cpu 0x0200#16 0x00AB#16 0xEFF8#16) = some (.misalignedAccess 0x0200#16 0xEFFF#16) ∧
    faultOf 0x028B (cpuWith 0x8000#16 0x1111#16 0x0100#16 [] lowRom) = some (.storeToRom 0x8000#16 0x0100#16) ∧
    faultOf 0x0283 (cpuWith 0x8000#16 0x1111#16 0x7FFF#16 [] lowRom) = some (.storeToRom 0x8000#16 0x7FFF#16) ∧
    faultOf 0x128B (cpuWith 0x8000#16 0x1111#16 0x0100#16 [] lowRom)
      = some (.misalignedAccess 0x8000#16 0x0101#16) := by decide

/-! L-type (VM13, VM14, VM15, VM17, VM19, VM20, VM21). -/

/-- The four bytes of VM11. -/
def vm11 : Memory := [(0x0100, 0xF2#8), (0x0101, 0x34#8), (0x0102, 0x80#8), (0x0103, 0x7F#8)]

theorem test_lw_base_is_destination :
    after 0x048C (cpuWith 0x0200#16 0x5555#16 0x0100#16 vm11 []) .x2 = some (0x34F2#16, 0x0202#16) := by decide

theorem test_lw_wraps_or_faults :
    after 0x744C (cpuWith 0x0200#16 0#16 0xFFFB#16 [(0x0002, 0xCD#8), (0x0003, 0xAB#8)] []) .x1
      = some (0xABCD#16, 0x0202#16) ∧
    faultOf 0xF44C (cpuWith 0x0200#16 0x5555#16 0x0102#16 vm11 [])
      = some (.misalignedAccess 0x0200#16 0x0101#16) := by decide

theorem test_lb_sign_extends :
    after 0x7444 (cpuWith 0x0200#16 0#16 0x00F9#16 vm11 []) .x1 = some (0xFFF2#16, 0x0202#16) := by decide

theorem test_lb_positive :
    after 0x3444 (cpuWith 0x0200#16 0#16 0x0100#16 vm11 []) .x1 = some (0x007F#16, 0x0202#16) := by decide

theorem test_lbu_zero_extends :
    after 0xF464 (cpuWith 0x0200#16 0#16 0x0101#16 vm11 []) .x1 = some (0x00F2#16, 0x0202#16) := by decide

/-! J-type and U-type (VJ05, VJ07, VJ12, VJ15, VU03, VU05, VU08, VU10). -/

theorem test_j_backward : after 0x4005 (cpu 0x0300#16 0x0000#16 0x0000#16) .x1 = some (0x0000#16, 0x0100#16) := by decide

theorem test_j_wraps : after 0x4005 (cpu 0x0100#16 0x0000#16 0x0000#16) .x1 = some (0x0000#16, 0xFF00#16) := by decide

theorem test_jal_backward : after 0xC045 (cpu 0x0400#16 0x0000#16 0x0000#16) .x1 = some (0x0402#16, 0x0200#16) := by decide

theorem test_jal_off_the_top : after 0x804D (cpu 0xEFFE#16 0x0000#16 0x0000#16) .x1 = some (0xF000#16, 0xF000#16) := by decide

theorem test_lui_all_bits : after 0x7E7E (cpu 0x0100#16 0x0000#16 0x0000#16) .x1 = some (0xFF80#16, 0x0102#16) := by decide

theorem test_lui_split_field : after 0x7886 (cpu 0x0100#16 0x0000#16 0x0000#16) .x2 = some (0xF000#16, 0x0102#16) := by decide

theorem test_auipc_own_address : after 0x804E (cpu 0x0040#16 0x0000#16 0x0000#16) .x1 = some (0x00C0#16, 0x0042#16) := by decide

theorem test_auipc_wraps : after 0xFE7E (cpu 0x0100#16 0x0000#16 0x0000#16) .x1 = some (0x0080#16, 0x0102#16) := by decide

/-! ECALL (VY01 to VY04). -/

/-- VY03's service: append x6[7:0] to the trace and return. -/
def printByte : Service :=
  { svc := 1#10, action := .set .output (.op .and (.source (.reg .x6)) (.const 0x00FF#16)) }

/-- VY04's service: end the run. -/
def endRun : Service := { svc := 0#10, action := .set .endRun (.const 1#16) }

theorem test_ecall_default_refused :
    refusalIn (run1 0x0287 (cpu 0x0100#16 0#16 0#16)) = some (.unmodelledService 10#10) := by decide

theorem test_ecall_services :
    (stored 0x0047 (cpuServed 0x0100#16 0x0041#16 [printByte, endRun]) 0x0200
      = some (none, none, [.serviceOutput 1#10 0x0041#16])) ∧
    (nextOf (run1 0x0007 (cpuServed 0x0100#16 0x0041#16 [printByte, endRun]))).map (fun t => (t.runState, t.pc))
      = some (.halted 0#10, 0x0100#16) := by decide

/-! The environment's programs, by hand calculation. -/

/-- Output the x7 bytes from x6 on, those that are not 0, then keep the high byte of x7 and a value from outside. -/
def printBytes : Service :=
  { svc := 2#10
    action :=
      .seq (.loop (.source (.reg .x7))
        (.seq (.setCell (.const 1#16) (.peek .storage (.op .add (.source (.reg .x6)) (.cell (.const 0#16)))))
          (.seq (.cond (.cell (.const 1#16)) (.set .output (.cell (.const 1#16))) .skip)
            (.setCell (.const 0#16) (.op .add (.cell (.const 0#16)) (.const 1#16))))))
        (.seq (.store .storage (.const 0x0200#16) (.op .shiftRight (.source (.reg .x7)) (.const 8#16)))
          (.seq (.ask (.const 2#16)) (.set (.reg .x6) (.op .sub (.cell (.const 2#16)) (.cell (.const 2#16)))))) }

theorem test_program_loops_and_branches :
    printBytes.effects { State.reset with
        mem := [(0x0100, 0x48#8), (0x0101, 0x00#8), (0x0102, 0x49#8)]
        regs := { RegFile.reset with x6 := 0x0100#16, x7 := 3#16 } }
      = .ok [.set .output 0x48#16, .set .output 0x49#16, .store .storage 0x0200#16 0#16, .asked,
          .set (.reg .x6) (Config.outsideValue [] 0 - Config.outsideValue [] 0)] := rfl

theorem test_operators :
    Operator.mul.apply 0x0101#16 0x0101#16 = 0x0201#16 ∧ Operator.below.apply 0x7FFF#16 0x8000#16 = 1#16 ∧
    Operator.lessSigned.apply 0x7FFF#16 0x8000#16 = 0#16 ∧ Operator.equal.apply 5#16 5#16 = 1#16 ∧
    Operator.shiftRight.apply 0x8001#16 1#16 = 0x4000#16 ∧ Operator.shiftLeft.apply 0x8001#16 1#16 = 2#16 := by decide

/-! A supplied device model, by hand calculation. -/

/-- A device whose register at each address holds the last word written; a read answers it and adds 1 to it. It
refuses byte reads, and a write at 0xF100 is copied to storage at the address written. Its register 0xF000 starts at
0xFFFF. -/
def counter : Device :=
  { initial := [(0xF000#16, 0xFFFF#16)]
    read :=
      .cond (.op .equal (.source .width) (.const 2#16))
        (.seq (.set .answer (.peek .register (.source .address)))
          (.store .register (.source .address) (.op .add (.peek .register (.source .address)) (.const 1#16))))
        .refuse
    write :=
      .cond (.op .equal (.source .address) (.const 0xF100#16))
        (.store .storage (.source .value) (.const 0x0055#16))
        (.store .register (.source .address) (.source .value)) }

/-- A state with that device in its initial state, and read-only storage. -/
def counting (pc x1 x2 : Word) : State :=
  { cpuWith pc x1 x2 [] lowRom with
    deviceRegs := Table.ofList counter.initial
    platform := { Platform.default with romRanges := lowRom, device := some counter } }

theorem test_device_read_answers_and_acts :
    (nextOf (exec (.lw .x1 0#4 .x2) (counting 0#16 0#16 0xF000#16))).map
        (fun t => (t.reg .x1, t.deviceRegs, t.trace))
      = some (0xFFFF#16, [(0xF000, 0x0000#16)], [.mmioRead 0xF000#16 .word]) ∧
    refusalIn (exec (.lbu .x1 0#4 .x2) (counting 0#16 0#16 0xF000#16)) = some (.deviceRefused 0xF000#16) := by
  decide

theorem test_device_write_acts :
    (nextOf (exec (.sb .x1 1#4 .x2) (counting 0#16 0x12AB#16 0xF000#16))).map (fun t => (t.deviceRegs, t.mem))
      = some ([(0xF000, 0xFFFF#16), (0xF001, 0x00AB#16)], []) ∧
    (nextOf (exec (.sw .x1 0#4 .x2) (counting 0#16 0x8000#16 0xF100#16))).map (fun t => (t.mem, t.trace))
      = some ([(0x8000, 0x55#8)], [.mmioWrite 0xF100#16 .word 0x8000#16]) ∧
    refusalIn (exec (.sw .x1 0#4 .x2) (counting 0#16 0x7FFF#16 0xF100#16)) = some (.deviceRefused 0xF100#16) := by
  decide

/-! The fetch (VF01, VF03, VF04, VF12). -/

theorem test_fetch_faults :
    faultIn (step (cpu 0x0201#16 0#16 0#16)) = some (.misalignedFetch 0x0201#16) ∧
    faultIn (step (cpu 0xF000#16 0#16 0#16)) = some (.fetchFromMmio 0xF000#16) ∧
    faultIn (step (cpu 0xF001#16 0#16 0#16)) = some (.misalignedFetch 0xF001#16) := by decide

theorem test_illegal_word :
    faultOf 0xFFFF (cpu 0x0100#16 0#16 0#16) = some (.illegalInstruction 0x0100#16 0xFFFF#16) := by decide

/-! Reset with an image and a device model (R271, R272, R274; the example of R272). -/

theorem test_reset_runs_the_image :
    (nextOf (step (State.resetOn Platform.specDefault (Image.words 0x0000#16 [0x0405#16])))).map (fun t => t.pc)
      = some 0x0020#16 ∧
    (State.resetOn Platform.specDefault [(0xEFFF#16, 2#8), (0xF000#16, 3#8), (0x0000#16, 1#8), (0xEFFF#16, 4#8)]).mem
      = [(0x0000, 1#8), (0xEFFF, 4#8)] := by decide

theorem test_reset_starts_the_device :
    (nextOf (exec (.lw .x1 0#4 .x2) ((State.resetOn { Platform.specDefault with device := some counter } []).setReg
        .x2 0xF000#16))).map (fun t => t.reg .x1) = some 0xFFFF#16 := by decide

/-! `UNDEF_REG_READ = fault`, the default of R7 (VF06 to VF11, VF13, VF15, VM22, VM23). -/

/-- The machine after reset on R7's default platform, at a pc, after writes of the listed registers. -/
def strict (pc : Word) (l : List (Reg × Word)) : State :=
  l.foldl (fun s p => s.setReg p.1 p.2) { State.resetOn Platform.specDefault [] with pc := pc }

theorem test_never_written_register_faults :
    faultOf 0x0021 (strict 0x0100#16 []) = some (.undefinedRegisterRead 0x0100#16 .x0) ∧
    faultOf 0x9270 (strict 0x0100#16 []) = some (.undefinedRegisterRead 0x0100#16 .x1) ∧
    faultOf 0xA278 (strict 0x0100#16 []) = some (.undefinedRegisterRead 0x0100#16 .x1) ∧
    faultOf 0x0000 (strict 0x0100#16 []) = some (.undefinedRegisterRead 0x0100#16 .x0) ∧
    faultOf 0xFC81 (strict 0x0100#16 [(.x1, 7#16)]) = some (.undefinedRegisterRead 0x0100#16 .x2) := by decide

theorem test_operand_read_order :
    faultOf 0x0440 (strict 0x0100#16 []) = some (.undefinedRegisterRead 0x0100#16 .x1) ∧
    faultOf 0x128B (strict 0x0100#16 []) = some (.undefinedRegisterRead 0x0100#16 .x2) ∧
    faultOf 0x044C (strict 0x0200#16 []) = some (.undefinedRegisterRead 0x0200#16 .x2) ∧
    faultOf 0x028B (strict 0x0200#16 [(.x2, 0x0100#16)]) = some (.undefinedRegisterRead 0x0200#16 .x1) := by decide

theorem test_written_register_is_read :
    (nextOf (run1 0x0079 (strict 0x0100#16 []))).map (fun t => (t.reg .x1, t.isWritten .x1, t.isWritten .x2))
      = some (0#16, true, false) ∧
    ((nextOf (run1 0x0079 (strict 0x0100#16 []))).bind (faultOf 0x0440))
      = some (.undefinedRegisterRead 0x0102#16 .x2) ∧
    after 0x0440 (strict 0x0100#16 [(.x1, 3#16), (.x2, 4#16)]) .x1 = some (7#16, 0x0102#16) := by decide

theorem test_service_reads_never_written_register :
    let s := { strict 0x0100#16 [] with platform := { Platform.specDefault with services := [printByte] } }
    faultIn (exec (.ecall 1#10) s) = some (.undefinedRegisterRead 0x0100#16 .x6) ∧
    faultIn (exec (.ecall 1#10) (s.setReg .x6 0x41#16)) = none := by decide

/-! Assembly (E1, E2, E3). -/

theorem test_li16_expansion :
    expand 0#16 (.li16 .x1 0x1234#16) = some [.lui .x1 0x24#9, .addi .x1 0x34#7] ∧
    expand 0#16 (.li16 .x1 0x00FF#16) = some [.lui .x1 0x02#9, .addi .x1 0x7F#7] := by decide

theorem test_la_expansion :
    expand 0x0100#16 (.la .x1 0x0010#16) = some [.auipc .x1 510#9, .addi .x1 16#7] ∧
    expand 0x0100#16 (.la .x1 0x01C8#16) = some [.auipc .x1 2#9, .addi .x1 0x48#7] := by decide

/-! Witnesses: for every obligation with hypotheses, concrete values that meet them, clause by clause and at the
ends of the ranges. -/

/-- NOP at the top of storage. -/
def nopAtTop : Memory := [(0xEFFE, 0x21#8), (0xEFFF, 0x00#8)]

/-- An illegal word at the top of storage. -/
def onesAtTop : Memory := [(0xEFFE, 0xFF#8), (0xEFFF, 0xFF#8)]

theorem witness_StepFollowsTheInstructionCycle_faults :
    (cpu 0x0201#16 0#16 0#16).runState = .running ∧ (0x0201#16).toNat % 2 = 1 ∧ (0xF001#16).toNat % 2 = 1 ∧
    ((0xF000#16).toNat % 2 = 0 ∧ 0xF000 ≤ (0xF000#16).toNat) ∧
    ((0xFFFE#16).toNat % 2 = 0 ∧ 0xF000 ≤ (0xFFFE#16).toNat) := by decide

theorem witness_StepFollowsTheInstructionCycle_runs :
    let s := cpuWith 0xEFFE#16 0#16 0#16 nopAtTop []
    s.runState = .running ∧ s.pc.toNat % 2 = 0 ∧ s.pc.toNat < 0xF000 ∧
    (0x0021#16).toNat = byteValue s s.pc.toNat + 256 * byteValue s (s.pc.toNat + 1) ∧
    decode 0x0021#16 = .ok (.ori .x0 0#7) ∧ wellFormed (.ori .x0 0#7) = true := by decide

theorem witness_StepFollowsTheInstructionCycle_illegal :
    let s := cpuWith 0xEFFE#16 0#16 0#16 onesAtTop []
    s.runState = .running ∧ s.pc.toNat % 2 = 0 ∧ s.pc.toNat < 0xF000 ∧
    (0xFFFF#16).toNat = byteValue s s.pc.toNat + 256 * byteValue s (s.pc.toNat + 1) ∧
    decode 0xFFFF#16 = .error .sysTypeFunc3 := by decide

theorem witness_PlacedInstructionRunsNext :
    wellFormed (.jal .x7 0b1111111110#10) = true ∧
    (State.reset.pc.toNat % 2 = 0 ∧ State.reset.pc.toNat < 0xF000) ∧
    ((cpu 0xEFFE#16 0#16 0#16).pc.toNat % 2 = 0 ∧ (cpu 0xEFFE#16 0#16 0#16).pc.toNat < 0xF000) ∧
    (5 ≠ State.reset.pc.toNat ∧ 5 ≠ State.reset.pc.toNat + 1) := by decide

theorem witness_DecodeOfEncodeIsIdentity :
    wellFormed (.beq .x7 .x0 0b10000#5) = true ∧ wellFormed (.j 0b0111111110#10) = true ∧
    wellFormed (.ecall 1023#10) = true := by decide

theorem witness_EncodeOfDecodeClearsIgnoredFields :
    decode 0x7E52#16 = .ok (.bz .x1 14#5) ∧ decode 0xFFFD#16 = .ok (.jal .x7 0b1111111110#10) := by decide

theorem witness_IllegalWordsAreTheReservedSets :
    Reserved 0xFFFF#16 ∧ Reserved 0xD000#16 ∧ Reserved 0x6019#16 ∧ Reserved 0x0013#16 ∧ Reserved 0x0014#16 ∧
    ¬ Reserved 0xFFC7#16 ∧ ¬ Reserved 0xFFFA#16 := by
  refine ⟨?_, ?_, ?_, ?_, ?_, ?_, ?_⟩ <;> simp [Reserved]

/-- A running machine with read-only storage and NOP twice at its pc. -/
def romState : State :=
  cpuWith 0x0100#16 0x1111#16 0x0200#16
    [(0x0100, 0x21#8), (0x0101, 0x00#8), (0x0102, 0x21#8), (0x0103, 0x00#8)]
    [{ first := 0x0100#16, last := 0x01FF#16 }]

theorem witness_StepKeepsInvariant :
    StorageInv romState ∧ (∃ t, step romState = .next t) ∧ StorageInv (counting 0#16 0#16 0xF000#16) :=
  ⟨⟨rfl, rfl⟩, ⟨_, rfl⟩, ⟨rfl, rfl⟩⟩

/-- The image of a NOP at 0x0000 and of a word in ROM, whose last pairs count. -/
def romImage : Image :=
  (0x7FFF#16, 9#8) :: (Image.words 0x0000#16 [0x0021#16] ++ Image.bytes 0x7FFE#16 [1#8, 2#8])

/-- The machine after reset with that image and read-only storage. -/
def romStart : State := State.resetOn { Platform.default with romRanges := lowRom } romImage

theorem witness_RunKeepsRomAndPlatform_fromReset :
    (∃ t, Host.Core.run core 1 romStart = .next t) ∧
    InRom { Platform.default with romRanges := lowRom } 0x7FFF#16 ∧ GivesLast romImage 0x7FFF#16 2#8 ∧
    (0x7FFF#16).toNat < 0xF000 := by
  refine ⟨⟨_, by simp only [Host.Core.run]; rfl⟩, ?_, ⟨romImage.take 4, [], rfl, by decide⟩, by decide⟩
  unfold InRom
  decide

theorem witness_ResetLeavesPcZeroAndTheImage :
    GivesLast romImage 0x7FFF#16 2#8 ∧ (0x7FFF#16).toNat < 0xF000 ∧
    (∀ e ∈ romImage, e.1.toNat < 0xF000 → e.1.toNat ≠ 0x0002) ∧
    (GivesLast romImage 0x0000#16 0x21#8 ∧ GivesLast romImage 0x0001#16 0x00#8 ∧
      (0x0021#16).toNat = (0x21#8).toNat + 256 * (0x00#8).toNat ∧ decode 0x0021#16 = .ok (.ori .x0 0#7)) ∧
    ({ Platform.default with device := some counter }.device = some counter ∧
      GivesLast counter.initial 0xF000#16 0xFFFF#16 ∧ ∀ v, (0xF001#16, v) ∉ counter.initial) ∧
    ([0x0021#16, 0x8000#16][1]? = some 0x8000#16 ∧ (0xEFFC#16).toNat + 2 * 2 ≤ 0xF000) := by
  refine ⟨⟨romImage.take 4, [], rfl, by decide⟩, by decide,
    by simp [romImage, Image.words, Image.bytes],
    ⟨⟨romImage.take 1, romImage.drop 2, rfl, by simp [romImage, Image.words, Image.bytes]⟩,
      ⟨romImage.take 2, romImage.drop 3, rfl, by simp [romImage, Image.words, Image.bytes]⟩, rfl, rfl⟩,
    ⟨rfl, ⟨[], [], rfl, by simp⟩, by simp [counter]⟩, rfl, by decide⟩

theorem witness_RunKeepsRomAndPlatform :
    (∃ t, Host.Core.run core 2 romState = .next t) ∧ InRom romState.platform 0x0100#16 ∧
    InRom romState.platform 0x01FF#16 ∧ ¬ InRom romState.platform 0x00FF#16 ∧
    ¬ InRom romState.platform 0x0200#16 := by
  refine ⟨⟨_, rfl⟩, ?_⟩
  unfold InRom
  decide

theorem witness_TraceGrowsByTheDeviceAccess :
    (∃ t, exec (.sb .x1 0#4 .x2) (cpu 0#16 1#16 0xEFFF#16) = .next t) ∧
    (∃ t, exec (.sb .x1 0#4 .x2) (cpu 0#16 1#16 0xF000#16) = .next t) ∧
    (∃ t, exec (.sw .x1 0#4 .x2) (cpu 0#16 1#16 0xEFFE#16) = .next t) ∧
    (∃ t, exec (.sw .x1 0#4 .x2) (cpu 0#16 1#16 0xFFFE#16) = .next t) ∧
    (∃ t, exec (.lb .x1 0#4 .x2) (cpu 0#16 1#16 0xF000#16) = .next t) ∧
    (∃ t, exec (.lw .x1 0#4 .x2) (cpu 0#16 1#16 0xF000#16) = .next t) ∧
    (∃ t, exec (.lbu .x1 0#4 .x2) (cpu 0#16 1#16 0xFFFF#16) = .next t) ∧
    (∃ t, exec (.add .x1 .x2) (cpu 0#16 1#16 2#16) = .next t) :=
  ⟨⟨_, rfl⟩, ⟨_, rfl⟩, ⟨_, rfl⟩, ⟨_, rfl⟩, ⟨_, rfl⟩, ⟨_, rfl⟩, ⟨_, rfl⟩, ⟨_, rfl⟩⟩

theorem witness_PcStaysEvenExceptRegisterJumps :
    wellFormed (.bnz .x1 0b10000#5) = true ∧ isRegisterJump (.bnz .x1 0b10000#5) = false ∧
    (cpu 0xFFFE#16 1#16 0#16).pc.toNat % 2 = 0 ∧
    ∃ t, exec (.bnz .x1 0b10000#5) (cpu 0xFFFE#16 1#16 0#16) = .next t :=
  ⟨rfl, rfl, rfl, _, rfl⟩

/-- A state as R7's default platform has it, only x1 and x2 written since reset. -/
def onDefault (s : State) : State :=
  { s with
    written := (WrittenMarks.reset.mark .x1).mark .x2
    platform := { s.platform with undefRegRead := .fault } }

theorem witness_FaultsOfDecodedInstructionsAreExact_reads :
    RaisesFault (onDefault (cpu 0#16 1#16 2#16)) (.undefinedRegisterRead 0#16 .x3) (.add .x1 .x3) ∧
    RaisesFault (onDefault (cpu 0#16 1#16 2#16)) (.undefinedRegisterRead 0#16 .x4) (.add .x4 .x3) ∧
    RaisesFault (onDefault (cpu 0#16 1#16 0xFFFF#16)) (.undefinedRegisterRead 0#16 .x0) (.sw .x0 0#4 .x2) ∧
    RaisesFault (onDefault (cpuServed 0#16 0#16 [printByte])) (.undefinedRegisterRead 0#16 .x6) (.ecall 1#10) := by
  refine ⟨.inl ⟨_, ⟨rfl, [.x1], [], rfl, by decide, rfl⟩, rfl⟩, .inl ⟨_, ⟨rfl, [], [.x3], rfl, by decide, rfl⟩, rfl⟩,
    .inl ⟨_, ⟨rfl, [.x2], [], rfl, by decide, rfl⟩, rfl⟩,
    .inr ⟨by unfold CanRead; decide, printByte, .x6, rfl, rfl, rfl, rfl, rfl⟩⟩

theorem witness_FaultsOfDecodedInstructionsAreExact :
    RaisesFault (cpu 0#16 1#16 0xFFFF#16) (.misalignedAccess 0#16 0xFFFF#16) (.lw .x1 0#4 .x2) ∧
    RaisesFault (onDefault (cpu 0#16 1#16 0xEFFF#16)) (.misalignedAccess 0#16 0xEFFF#16) (.sw .x1 0#4 .x2) ∧
    RaisesFault (cpuWith 0#16 1#16 0x01FE#16 [] [{ first := 0x01FF#16, last := 0x01FF#16 }])
      (.storeToRom 0#16 0x01FE#16) (.sw .x1 0#4 .x2) ∧
    RaisesFault (cpuWith 0#16 1#16 0x01FF#16 [] [{ first := 0x01FF#16, last := 0x01FF#16 }])
      (.storeToRom 0#16 0x01FF#16) (.sb .x1 0#4 .x2) := by
  have c : ∀ s : State, s.platform.undefRegRead = .anyValue → ∀ l, CanRead s l := fun s h l hp => by simp [h] at hp
  refine ⟨.inr ⟨c _ rfl _, rfl, rfl⟩, .inr ⟨by unfold CanRead; decide, .inl ⟨rfl, rfl⟩⟩,
    .inr ⟨c _ rfl _, .inr ⟨rfl, by decide, .inr ?_, rfl⟩⟩, .inr ⟨c _ rfl _, by decide, ?_, rfl⟩⟩ <;>
    exact ⟨_, List.mem_singleton.mpr rfl, by decide⟩

theorem witness_OnlyTheEnvironmentRefuses :
    exec (.ecall 10#10) State.reset = .refused (.unmodelledService 10#10) ∧
    exec (.lb .x1 0#4 .x2) (counting 0#16 0#16 0xFFFF#16) = .refused (.deviceRefused 0xFFFF#16) ∧
    ReachesDeviceModel (counting 0#16 0#16 0xFFFF#16) (.lb .x1 0#4 .x2) 0xFFFF#16 :=
  ⟨rfl, rfl, by simp [counting], rfl, by decide⟩

theorem witness_UnreadRegistersDoNotMatter :
    isEcall (.mv .x1 .x2) = false ∧ Reg.x1 ∉ reads (.mv .x1 .x2) ∧ Reg.x1 ∈ writes (.mv .x1 .x2) ∧
    Reg.x0 ∉ reads (.mv .x1 .x2) ∧ Reg.x0 ∉ writes (.mv .x1 .x2) := by decide

theorem witness_OnlyNamedDestinationsChange :
    (∃ t, exec (.sw .x1 0#4 .x2) (cpu 0#16 1#16 0x0100#16) = .next t) ∧
    (∃ t, exec (.lui .x1 1#9) (cpu 0#16 1#16 0x0100#16) = .next t) ∧
    isEcall (.sw .x1 0#4 .x2) = false ∧ mayStore (.lui .x1 1#9) = false ∧ Reg.x1 ∈ writes (.lui .x1 1#9) ∧
    (onDefault (cpu 0#16 1#16 0x0100#16)).isWritten .x2 = true ∧
    (∃ t, exec (.lw .x1 0#4 .x2) (counting 0#16 1#16 0xEFFE#16) = .next t) ∧
    (∀ a, ¬ ReachesDeviceModel (counting 0#16 1#16 0xEFFE#16) (.lw .x1 0#4 .x2) a) := by
  refine ⟨⟨_, rfl⟩, ⟨_, rfl⟩, rfl, rfl, by decide, rfl, ⟨_, rfl⟩, ?_⟩
  rintro a ⟨_, h, h'⟩
  cases h
  revert h'
  decide

theorem witness_SequentialInstructionsAdvanceByTwo :
    isSequential (.auipc .x1 1#9) = true ∧ ∃ t, exec (.auipc .x1 1#9) (cpu 0xFFFE#16 0#16 0#16) = .next t :=
  ⟨rfl, _, rfl⟩

theorem witness_HaltedRunStays : { State.reset with runState := .halted 0#10 }.runState = .halted 0#10 := rfl

theorem witness_StoredWordIsSeenByFetch :
    let s := cpuWith 0#16 0x0440#16 0xEFFE#16 [] lowRom
    let ea := effectiveAddress (s.reg .x2) 0#4
    ea.toNat % 2 = 0 ∧ ea.toNat < 0xF000 ∧ ¬ InRom s.platform ea ∧ ¬ InRom s.platform (ea + 1#16) ∧
    CanRead s [.x2, .x1] ∧ CanRead (onDefault s) [.x2, .x1] := by
  unfold InRom CanRead
  decide

theorem witness_MixedWidthAccessesAgree :
    let s := cpuWith 0#16 0x80FF#16 0x8000#16 [] lowRom
    (s.reg .x2).toNat % 2 = 0 ∧ (s.reg .x2).toNat < 0xF000 ∧ ¬ InRom s.platform (s.reg .x2) ∧
    ¬ InRom s.platform (s.reg .x2 + 1#16) ∧
    CanRead s [.x2, .x1] ∧ CanRead (onDefault s) [.x2, .x1] := by
  unfold InRom CanRead
  decide

theorem witness_AddAndSubAreModulo :
    let s := onDefault (cpu 0#16 1#16 2#16)
    (CanRead s (reads (.add .x1 .x2)) ∧ CanRead State.reset (reads (.add .x1 .x2))) ∧
    (CanRead s (reads (.sub .x2 .x2)) ∧ CanRead State.reset (reads (.sub .x2 .x2))) := by
  unfold CanRead
  decide

theorem witness_SetLessThanComparesExactly :
    let s := onDefault (cpu 0#16 1#16 2#16)
    (CanRead s (reads (.slt .x1 .x2)) ∧ CanRead State.reset (reads (.slt .x1 .x2))) ∧
    (CanRead s (reads (.sltu .x2 .x1)) ∧ CanRead State.reset (reads (.sltu .x2 .x1))) := by
  unfold CanRead
  decide

theorem witness_RegisterShiftsUseLowFourBits :
    let s := onDefault (cpu 0#16 1#16 2#16)
    (CanRead s (reads (.sll .x1 .x2)) ∧ CanRead State.reset (reads (.sll .x1 .x2))) ∧
    (CanRead s (reads (.srl .x1 .x2)) ∧ CanRead State.reset (reads (.srl .x1 .x2))) ∧
    (CanRead s (reads (.sra .x1 .x2)) ∧ CanRead State.reset (reads (.sra .x1 .x2))) := by
  unfold CanRead
  decide

theorem witness_RegisterLogicIsBitwise :
    let s := onDefault (cpu 0#16 1#16 2#16)
    (CanRead s (reads (.or .x1 .x2)) ∧ CanRead State.reset (reads (.or .x1 .x2))) ∧
    (CanRead s (reads (.and .x1 .x2)) ∧ CanRead State.reset (reads (.and .x1 .x2))) ∧
    (CanRead s (reads (.xor .x1 .x1)) ∧ CanRead State.reset (reads (.xor .x1 .x1))) := by
  unfold CanRead
  decide

theorem witness_MoveCopiesSource :
    let s := onDefault (cpu 0#16 1#16 2#16)
    (CanRead s (reads (.mv .x7 .x2)) ∧ CanRead State.reset (reads (.mv .x7 .x2))) := by
  unfold CanRead
  decide

theorem witness_AddImmediateIsModulo :
    let s := onDefault (cpu 0#16 1#16 2#16)
    (CanRead s (reads (.addi .x1 0b1000000#7)) ∧ CanRead State.reset (reads (.addi .x1 0b1000000#7))) := by
  unfold CanRead
  decide

theorem witness_SetLessThanImmediateSignExtends :
    let s := onDefault (cpu 0#16 1#16 2#16)
    (CanRead s (reads (.slti .x1 3#7)) ∧ CanRead State.reset (reads (.slti .x1 3#7))) ∧
    (CanRead s (reads (.sltui .x2 3#7)) ∧ CanRead State.reset (reads (.sltui .x2 3#7))) := by
  unfold CanRead
  decide

theorem witness_ImmediateShiftsByShamt :
    let s := onDefault (cpu 0#16 1#16 2#16)
    (CanRead s (reads (.slli .x1 15#4)) ∧ CanRead State.reset (reads (.slli .x1 15#4))) ∧
    (CanRead s (reads (.srli .x1 0#4)) ∧ CanRead State.reset (reads (.srli .x1 0#4))) ∧
    (CanRead s (reads (.srai .x2 1#4)) ∧ CanRead State.reset (reads (.srai .x2 1#4))) := by
  unfold CanRead
  decide

theorem witness_LogicImmediateSignExtends :
    let s := onDefault (cpu 0#16 1#16 2#16)
    (CanRead s (reads (.ori .x1 1#7)) ∧ CanRead State.reset (reads (.ori .x1 1#7))) ∧
    (CanRead s (reads (.andi .x1 1#7)) ∧ CanRead State.reset (reads (.andi .x1 1#7))) ∧
    (CanRead s (reads (.xori .x1 1#7)) ∧ CanRead State.reset (reads (.xori .x1 1#7))) := by
  unfold CanRead
  decide

theorem witness_LoadImmediateSignExtends :
    let s := onDefault (cpu 0#16 1#16 2#16)
    (CanRead s (reads (.li .x7 0b1000000#7)) ∧ CanRead State.reset (reads (.li .x7 0b1000000#7))) := by
  unfold CanRead
  decide

theorem witness_LoadUpperImmediateShiftsBySeven :
    let s := onDefault (cpu 0#16 1#16 2#16)
    (CanRead s (reads (.lui .x7 0x1FF#9)) ∧ CanRead State.reset (reads (.lui .x7 0x1FF#9))) := by
  unfold CanRead
  decide

theorem witness_AddUpperImmediateToOwnAddress :
    let s := onDefault (cpu 0#16 1#16 2#16)
    (CanRead s (reads (.auipc .x7 0x1FF#9)) ∧ CanRead State.reset (reads (.auipc .x7 0x1FF#9))) := by
  unfold CanRead
  decide

theorem witness_NopOnlyAdvancesPc :
    CanRead State.reset [.x0] ∧ CanRead (State.reset.setReg .x0 1#16) [.x0] ∧
    (State.reset.setReg .x0 1#16).isWritten .x0 = true ∧ ¬ CanRead (onDefault (cpu 0#16 1#16 2#16)) [.x0] := by
  unfold CanRead
  decide

theorem witness_ArithmeticPseudosCompute :
    CanRead State.reset [.x7] ∧ CanRead (onDefault (cpu 0#16 1#16 2#16)) [.x2] := by
  unfold CanRead
  decide

theorem witness_JumpRegisterCopiesAllBits :
    (cpu 0x0100#16 0x0201#16 0xF000#16).runState = .running ∧
    ((cpu 0x0100#16 0x0201#16 0xF000#16).reg .x1).toNat % 2 = 1 ∧
    ((cpu 0x0100#16 0x0201#16 0xF000#16).reg .x2).toNat % 2 = 0 ∧
    0xF000 ≤ ((cpu 0x0100#16 0x0201#16 0xF000#16).reg .x2).toNat ∧
    CanRead (cpu 0x0100#16 0x0201#16 0xF000#16) [.x1] ∧ CanRead (onDefault (cpu 0x0100#16 0x0201#16 0xF000#16)) [.x1] := by
  unfold CanRead
  decide

theorem witness_JumpAndLinkRegisterReadsTargetFirst :
    (cpu 0x0100#16 0xFFFF#16 0xFFFE#16).runState = .running ∧
    ((cpu 0x0100#16 0xFFFF#16 0xFFFE#16).reg .x1).toNat % 2 = 1 ∧
    ((cpu 0x0100#16 0xFFFF#16 0xFFFE#16).reg .x2).toNat % 2 = 0 ∧
    0xF000 ≤ ((cpu 0x0100#16 0xFFFF#16 0xFFFE#16).reg .x2).toNat ∧
    CanRead (cpu 0x0100#16 0xFFFF#16 0xFFFE#16) [.x2] ∧ CanRead (onDefault (cpu 0x0100#16 0xFFFF#16 0xFFFE#16)) [.x2] := by
  unfold CanRead
  decide

theorem witness_BranchEqualAndNotEqual :
    evenBranchOffset 14#5 = true ∧ evenBranchOffset 0b10000#5 = true ∧
    (cpu 0#16 7#16 7#16).reg .x1 = (cpu 0#16 7#16 7#16).reg .x2 ∧
    (cpu 0#16 7#16 8#16).reg .x1 ≠ (cpu 0#16 7#16 8#16).reg .x2 ∧
    CanRead (cpu 0#16 7#16 7#16) (reads (.beq .x1 .x2 14#5)) ∧ CanRead (onDefault (cpu 0#16 7#16 7#16)) (reads (.beq .x1 .x2 14#5)) := by
  unfold CanRead
  decide

theorem witness_BranchZeroIgnoresSecondField :
    evenBranchOffset 14#5 = true ∧ ((cpu 0#16 0#16 7#16).reg .x1).toNat = 0 ∧
    ((cpu 0#16 0x8000#16 7#16).reg .x1).toNat ≠ 0 ∧
    CanRead (cpu 0#16 0#16 7#16) (reads (.bz .x1 14#5)) ∧ CanRead (onDefault (cpu 0#16 0#16 7#16)) (reads (.bz .x1 14#5)) := by
  unfold CanRead
  decide

theorem witness_BranchSignedOrder :
    evenBranchOffset 0#5 = true ∧
    ((cpu 0#16 0x8000#16 0x7FFF#16).reg .x1).toInt < ((cpu 0#16 0x8000#16 0x7FFF#16).reg .x2).toInt ∧
    ((cpu 0#16 5#16 5#16).reg .x2).toInt ≤ ((cpu 0#16 5#16 5#16).reg .x1).toInt ∧
    CanRead (cpu 0#16 0x8000#16 0x7FFF#16) (reads (.blt .x1 .x2 0#5)) ∧ CanRead (onDefault (cpu 0#16 0x8000#16 0x7FFF#16)) (reads (.blt .x1 .x2 0#5)) := by
  unfold CanRead
  decide

theorem witness_BranchUnsignedOrder :
    evenBranchOffset 0b11110#5 = true ∧
    ((cpu 0#16 0x7FFF#16 0x8000#16).reg .x1).toNat < ((cpu 0#16 0x7FFF#16 0x8000#16).reg .x2).toNat ∧
    ((cpu 0#16 5#16 5#16).reg .x2).toNat ≤ ((cpu 0#16 5#16 5#16).reg .x1).toNat ∧
    CanRead (cpu 0#16 0x7FFF#16 0x8000#16) (reads (.bltu .x1 .x2 0b11110#5)) ∧ CanRead (onDefault (cpu 0#16 0x7FFF#16 0x8000#16)) (reads (.bltu .x1 .x2 0b11110#5)) := by
  unfold CanRead
  decide

theorem witness_StoreByteWritesOneByte :
    let s := cpuWith 0x8000#16 1#16 0x7FFF#16 [] lowRom
    (0x7FFF#16).toNat < 0xF000 ∧ InRom s.platform (effectiveAddress (s.reg .x2) 0#4) ∧
    ¬ InRom s.platform (effectiveAddress (s.reg .x2) 1#4) ∧
    (effectiveAddress 0xEFF8#16 7#4).toNat < 0xF000 ∧ 0xF000 ≤ (effectiveAddress 0xF000#16 0#4).toNat ∧
    0xF000 ≤ (effectiveAddress 0x0003#16 0b1000#4).toNat ∧
    CanRead s [.x2, .x1] ∧ CanRead (onDefault s) [.x2, .x1] := by
  unfold InRom CanRead
  decide

theorem witness_StoreWordIsLittleEndianAndAligned :
    let s := cpuWith 0x8000#16 1#16 0x8000#16 [] lowRom
    (effectiveAddress 0xEFF8#16 7#4).toNat % 2 = 1 ∧
    ((effectiveAddress (s.reg .x2) 0#4).toNat % 2 = 0 ∧ (effectiveAddress (s.reg .x2) 0#4).toNat < 0xF000 ∧
      ¬ InRom s.platform (effectiveAddress (s.reg .x2) 0#4) ∧
      ¬ InRom s.platform (effectiveAddress (s.reg .x2) 0#4 + 1#16)) ∧
    ((effectiveAddress (s.reg .x2) 0b1110#4).toNat % 2 = 0 ∧
      InRom s.platform (effectiveAddress (s.reg .x2) 0b1110#4 + 1#16)) ∧
    ((effectiveAddress 0xEFFE#16 0#4).toNat % 2 = 0 ∧ (effectiveAddress 0xEFFE#16 0#4).toNat < 0xF000) ∧
    ((effectiveAddress 0xEFFE#16 2#4).toNat % 2 = 0 ∧ 0xF000 ≤ (effectiveAddress 0xEFFE#16 2#4).toNat) ∧
    CanRead s [.x2, .x1] ∧ CanRead (onDefault s) [.x2, .x1] := by
  unfold InRom CanRead
  decide

theorem witness_LoadByteSignExtends :
    (effectiveAddress 0xEFFF#16 0#4).toNat < 0xF000 ∧ 0xF000 ≤ (effectiveAddress 0xEFFF#16 1#4).toNat ∧
    0xF000 ≤ (effectiveAddress 0x0000#16 0b1111#4).toNat ∧
    CanRead (cpu 0#16 7#16 0xEFFF#16) [.x2] ∧ CanRead (onDefault (cpu 0#16 7#16 0xEFFF#16)) [.x2] := by
  unfold CanRead
  decide

theorem witness_LoadByteZeroExtends :
    (effectiveAddress 0xEFFF#16 0#4).toNat < 0xF000 ∧ 0xF000 ≤ (effectiveAddress 0xF001#16 0b1111#4).toNat ∧
    0xF000 ≤ (effectiveAddress 0x0000#16 0b1111#4).toNat ∧
    CanRead (cpu 0#16 7#16 0xF001#16) [.x2] ∧ CanRead (onDefault (cpu 0#16 7#16 0xF001#16)) [.x2] := by
  unfold CanRead
  decide

theorem witness_LoadWordIsLittleEndianAndAligned :
    (effectiveAddress 0xFFFE#16 1#4).toNat % 2 = 1 ∧
    ((effectiveAddress 0xEFFE#16 0#4).toNat % 2 = 0 ∧ (effectiveAddress 0xEFFE#16 0#4).toNat < 0xF000) ∧
    ((effectiveAddress 0xEFFE#16 2#4).toNat % 2 = 0 ∧ 0xF000 ≤ (effectiveAddress 0xEFFE#16 2#4).toNat) ∧
    CanRead (cpu 0#16 7#16 0xEFFE#16) [.x2] ∧ CanRead (onDefault (cpu 0#16 7#16 0xEFFE#16)) [.x2] := by
  unfold CanRead
  decide

theorem witness_JumpIsRelativeAndWritesNoRegister :
    evenJumpOffset 0b1000000000#10 = true ∧ evenJumpOffset 510#10 = true := by decide

theorem witness_JumpAndLinkUsesItsOwnAddress :
    evenJumpOffset 0b1111111110#10 = true ∧ evenJumpOffset 0#10 = true := by decide

/-- The word that `counter` reads or writes at either end of the window, and one that it refuses. -/
theorem witness_DeviceModel_completes :
    (counting 0#16 7#16 0xF000#16).platform.device = some counter ∧
    counter.write.effects (deviceEnv (counting 0#16 7#16 0xF000#16) 0xF000#16 .byte 7#16)
      = .ok [.store .register 0xF000#16 7#16] ∧
    counter.write.effects (deviceEnv (counting 0#16 7#16 0xF000#16) 0xFFFE#16 .word 0xFFFF#16)
      = .ok [.store .register 0xFFFE#16 0xFFFF#16] ∧
    counter.read.effects (deviceEnv (counting 0#16 7#16 0xF000#16) 0xF000#16 .word 0#16)
      = .ok [.set .answer 0xFFFF#16, .store .register 0xF000#16 0#16] ∧
    DeviceMay (counting 0#16 7#16 0xF000#16) (.store .register 0xF000#16 7#16) ∧
    DeviceMay (counting 0#16 7#16 0xF000#16) (.set .answer 0xFFFF#16) :=
  ⟨rfl, by decide, by decide, by decide, trivial, trivial⟩

theorem witness_DeviceModel_storage :
    let s := counting 0#16 0xEFFF#16 0xF100#16
    counter.write.effects (deviceEnv s 0xF100#16 .word 0xEFFF#16) = .ok [.store .storage 0xEFFF#16 0x55#16] ∧
    DeviceMay s (.store .storage 0xEFFF#16 0x55#16) := by
  refine ⟨by decide, by decide, ?_⟩
  unfold InRom
  decide

/-- `counter` refuses byte reads; its copy to ROM or to the window goes beyond what it may. -/
theorem witness_DeviceModel_refuses :
    let s := counting 0#16 0x7FFF#16 0xF100#16
    counter.read.effects (deviceEnv s 0xF000#16 .byte 0#16) = .error (.refusal (.deviceRefused 0xF000#16)) ∧
    (counter.write.effects (deviceEnv s 0xF100#16 .word 0x7FFF#16) = .ok [.store .storage 0x7FFF#16 0x55#16] ∧
      ¬ DeviceMay s (.store .storage 0x7FFF#16 0x55#16)) ∧
    (counter.write.effects (deviceEnv s 0xF100#16 .word 0xF000#16) = .ok [.store .storage 0xF000#16 0x55#16] ∧
      ¬ DeviceMay s (.store .storage 0xF000#16 0x55#16)) := by
  refine ⟨by decide, ⟨by decide, fun h => h.2 ?_⟩, by decide, fun h => ?_⟩
  · unfold InRom
    decide
  · exact absurd h.1 (by decide)

/-- A service that returns: x0 from storage, then the byte at 0xEFFF from x1, then two outputs and x0 again. -/
def copyService : Service :=
  { svc := 7#10
    action := inOrder [.set (.reg .x0) (.peek .storage (.const 0x0100#16)),
      .store .storage (.const 0xEFFF#16) (.source (.reg .x1)), .set .output (.source .pc),
      .set .output (.source (.reg .x1)), .set (.reg .x0) (.const 3#16)] }

/-- A service that ends the run after a register write. -/
def exitService : Service :=
  { svc := 0#10
    action := inOrder [.set (.reg .x6) (.op .add (.source .pc) (.const 2#16)), .set .endRun (.const 1#16)] }

/-- A service whose table entry writes a byte of the MMIO window. -/
def deviceService : Service := { svc := 9#10, action := .store .storage (.const 0xF000#16) (.source (.reg .x1)) }

/-- A service whose table entry writes a byte of ROM. -/
def romService : Service := { svc := 8#10, action := .store .storage (.const 0x7FFF#16) (.source (.reg .x1)) }

/-- A service whose table entry reads a byte of the MMIO window. -/
def peepService : Service := { svc := 6#10, action := .set .output (.peek .storage (.const 0xF000#16)) }

/-- A platform with these services and read-only storage. -/
def served : State :=
  { cpu 0#16 0#16 0#16 with
    mem := [(0x0100, 0x80#8)]
    platform := { Platform.default with
      romRanges := lowRom
      services := [copyService, exitService, deviceService, romService, peepService] } }

theorem witness_EcallPerformsItsService :
    IsServiceOf served 7#10 copyService ∧
    copyService.effects served = .ok [.set (.reg .x0) 0x0080#16, .store .storage 0xEFFF#16 0#16, .set .output 0#16,
      .set .output 0#16, .set (.reg .x0) 3#16] ∧
    Permitted served (.store .storage 0xEFFF#16 0#16) ∧
    IsServiceOf served 0#10 exitService ∧
    exitService.effects served = .ok [.set (.reg .x6) 2#16, .set .endRun 1#16] ∧
    Permitted served (.set .endRun 1#16) ∧
    ¬ Overwrites (.set (.reg .x0) 3#16) (.set .output 0#16) ∧
    Overwrites (.set (.reg .x0) 3#16) (.set (.reg .x0) 0x0080#16) := by
  refine ⟨rfl, by decide, ⟨by decide, ?_⟩, rfl, by decide, trivial, id, rfl⟩
  unfold InRom
  decide

theorem witness_EcallCommandsStand :
    [.set (.reg .x6) (.op .add (.source .pc) (.const 2#16)), .set .endRun (.const 1#16)].map
        (plainEffect 0#10 served)
      = [.set (.reg .x6) 2#16, .set .endRun 1#16].map some ∧
    [.store .storage (.const 0xEFFF#16) (.source (.reg .x1)), .set .output (.source .pc)].map
        (plainEffect 7#10 served)
      = [.store .storage 0xEFFF#16 0#16, .set .output 0#16].map some := by
  decide

theorem witness_EnvironmentProgramsExpressEveryAction :
    let f : List Word → Option (List (Effect ServiceTarget ServiceRegion)) := fun vs => some (vs.map (.set .output))
    (∀ vs es, f vs = some es → Effect.asked ∉ es) ∧
    [ProgramExpr.source (.reg .x1), .peek .storage (.const 0x0100#16), .cell (.const 0#16)].map
        (fun e => e.eval (serviceEnv 7#10 served) (outsideCells (serviceEnv 7#10 served).outside 1))
      = [0#16, 0x0080#16, (serviceEnv 7#10 served).outside 0].map .ok ∧
    (0xEFFF#16).toNat < 0xF000 ∧ CanRead served [.x1] ∧ CanRead (onDefault served) [.x1] ∧
    ¬ CanRead (onDefault served) [.x6] := by
  refine ⟨?_, rfl, by decide, by unfold CanRead; decide⟩
  rintro vs es h
  cases h
  simp

theorem witness_UndefinedServiceIsRefused :
    (∀ v ∈ State.reset.platform.services, v.svc ≠ 10#10) ∧ (∀ v ∈ served.platform.services, v.svc ≠ 1023#10) := by
  decide

theorem witness_ServiceBeyondItsGrantIsRefused :
    (IsServiceOf served 9#10 deviceService ∧
      deviceService.effects served = .ok [.store .storage 0xF000#16 0#16] ∧
      ¬ Permitted served (.store .storage 0xF000#16 0#16)) ∧
    (IsServiceOf served 8#10 romService ∧ romService.effects served = .ok [.store .storage 0x7FFF#16 0#16] ∧
      ¬ Permitted served (.store .storage 0x7FFF#16 0#16)) ∧
    (IsServiceOf served 6#10 peepService ∧ peepService.effects served = .error (.refusal (.serviceNotPermitted 6#10))) := by
  refine ⟨⟨rfl, by decide, fun h => ?_⟩, ⟨rfl, by decide, fun h => h.2 ?_⟩, rfl, by decide⟩
  · exact absurd h.1 (by decide)
  · unfold InRom
    decide

theorem witness_AssemblerAcceptsExactlyTheRanges :
    asmImmI (-64) = some 0b1000000#7 ∧ asmImmI 63 = some 63#7 ∧ asmImmI 64 = none ∧ asmImmI (-65) = none ∧
    asmByteOffset (-8) = some 0b1000#4 ∧ asmByteOffset 8 = none ∧ asmShamt 15 = some 15#4 ∧ asmShamt 16 = none ∧
    asmImm9 511 = some 511#9 ∧ asmImm9 512 = none ∧ asmSvc 1023 = some 1023#10 ∧ asmSvc (-1) = none ∧
    asmBranch (-16) = some 0b10000#5 ∧ asmBranch 14 = some 14#5 ∧ asmBranch 15 = none ∧
    asmJump (-512) = some 0b1000000000#10 ∧ asmJump 510 = some 510#10 ∧ asmJump 512 = none := by decide

theorem witness_PushStoresBelowTheStackPointer :
    let s := cpuWith 0x9000#16 0x002A#16 Config.conventionalStackTop [] lowRom
    let t := cpuWith 0x9000#16 0x002A#16 0xF000#16 [] lowRom
    ((s.reg .x2 - 2#16).toNat % 2 = 0 ∧ (s.reg .x2 - 2#16).toNat < 0xF000 ∧
      ¬ InRom s.platform (s.reg .x2 - 2#16) ∧ ¬ InRom s.platform (s.reg .x2 - 2#16 + 1#16)) ∧
    ((t.reg .x2 - 2#16).toNat % 2 = 0 ∧ (t.reg .x2 - 2#16).toNat < 0xF000 ∧
      ¬ InRom t.platform (t.reg .x2 - 2#16) ∧ ¬ InRom t.platform (t.reg .x2 - 2#16 + 1#16)) ∧
    CanRead s [.x2, .x1] ∧ CanRead (onDefault s) [.x2, .x1] ∧ CanRead t [.x2, .x1] := by
  unfold InRom CanRead
  decide

theorem witness_PopLoadsThenIncrements :
    let s := cpuWith 0x9000#16 0#16 0xEFFE#16 [] lowRom
    (s.reg .x2).toNat % 2 = 0 ∧ (s.reg .x2).toNat < 0xF000 ∧ Reg.x1 ≠ Reg.x2 ∧
    CanRead s [.x2] ∧ CanRead (onDefault s) [.x2] := by
  unfold CanRead
  decide

theorem witness_CallAndReturnTransferControl :
    let s := cpu 0x0100#16 0#16 0#16
    ((0x02FE#16 - s.pc).toInt % 2 = 0 ∧ -512 ≤ (0x02FE#16 - s.pc).toInt ∧ (0x02FE#16 - s.pc).toInt ≤ 510) ∧
    ((0xFF00#16 - s.pc).toInt % 2 = 0 ∧ -512 ≤ (0xFF00#16 - s.pc).toInt ∧ (0xFF00#16 - s.pc).toInt ≤ 510) ∧
    CanRead s [.x1] ∧ CanRead (onDefault s) [.x1] := by
  unfold CanRead
  decide

end Sys2Proof.Tests
end

