-- ==== Sys2Proof/Proofs/RTypeLogic.lean ====
section
/-! SUPPORT. The R-type logic instructions and MV (spec/40_r_type.md, R107–R110): how an R-type word of the
rules decodes, and what an instruction whose only result is a register leaves behind. -/

namespace Sys2Proof.Proofs

open Sys2Proof.Machine Sys2Proof.Statements Sys2Proof.Laws

/-- The rules' formula `base | s<<9 | d<<6` is the R format (R61), where `base` holds the two function fields. -/
theorem rWord_eq_encodeR (f4 : BitVec 4) (f3 : BitVec 3) (r d : Reg) :
    rWord (f4 ++ 0#6 ++ f3 ++ 0b000#3) r d = encodeR f4 r d f3 := by
  apply BitVec.eq_of_getLsbD_eq
  intro i hi
  simp only [rWord, regAt, encodeR, BitVec.getLsbD_or, BitVec.getLsbD_append, BitVec.getLsbD_shiftLeft,
    BitVec.getLsbD_setWidth]
  interval_cases i <;> simp

/-- The word of an instruction decodes to it, where its own row of the opcode table builds it back (R80, R81). -/
theorem decode_of_row {i : Instr} {row : OpcodeRow} {w : Word} (hw : w = encode i)
    (hi : EncodeMatches.Statement i) (hrow : opcodeTable[EncodeMatches.rowIndex i]? = some row)
    (hbuild : row.build (encode i) = i) : decode w = .ok i := by
  obtain ⟨row', hrow', hmatch⟩ := hi
  obtain rfl : row' = row := Option.some.inj (hrow'.symm.trans hrow)
  rw [hw, decode_of_matches (List.mem_of_getElem? hrow) hmatch, hbuild]

theorem decode_orWord (d r : Reg) : decode (rWord 0x7020#16 r d) = .ok (.or d r) :=
  decode_of_row (rWord_eq_encodeR 0b0111#4 0b100#3 r d) (EncodeMatches.or d r) rfl (by simp [encode])

theorem decode_andWord (d r : Reg) : decode (rWord 0x8028#16 r d) = .ok (.and d r) :=
  decode_of_row (rWord_eq_encodeR 0b1000#4 0b101#3 r d) (EncodeMatches.and d r) rfl (by simp [encode])

theorem decode_xorWord (d r : Reg) : decode (rWord 0x9030#16 r d) = .ok (.xor d r) :=
  decode_of_row (rWord_eq_encodeR 0b1001#4 0b110#3 r d) (EncodeMatches.xor d r) rfl (by simp [encode])

theorem decode_mvWord (d r : Reg) : decode (rWord 0xA038#16 r d) = .ok (.mv d r) :=
  decode_of_row (rWord_eq_encodeR 0b1010#4 0b111#3 r d) (EncodeMatches.mv d r) rfl (by simp [encode])

/-- The pc's advance as a number (R15). -/
theorem nextInSequence_setReg_advance (s : State) (d : Reg) (v : Word) :
    NextInSequence s (s.setReg d v).advance := by
  simp [NextInSequence, BitVec.toNat_add]

/-- The frame of a register write followed by the pc's advance (R12, R25). -/
theorem onlyReg_setReg_advance (s : State) (d : Reg) (v : Word) : OnlyReg d s (s.setReg d v).advance := by
  refine ⟨?regs, fun _ => rfl, rfl, rfl, rfl, rfl⟩
  case regs =>
    intro q hq
    have hne : q ≠ d := by simpa using hq
    exact ⟨s.setReg_reg_other v hne, s.setReg_isWritten_other v hne⟩

/-- An instruction that reads its operands and then writes one register with `v` meets every property of `v`. -/
theorem writesRegister_of_exec {i : Instr} {s : State} {d : Reg} {v : Word} {P : Word → Prop}
    (hexec : exec i s = readOperands (reads i) s (writeReg d v s)) (hv : P v) : WritesRegister i s d P := by
  intro hread
  refine ⟨(s.setReg d v).advance, ?runs, ?value, ?mark, nextInSequence_setReg_advance s d v,
    onlyReg_setReg_advance s d v⟩
  case runs => rw [hexec, readOperands_ok _ ((canRead_iff s _).mp hread), writeReg]
  case value => simpa using hv
  case mark => simp

theorem exec_or (d r : Reg) (s : State) : exec (.or d r) s =
    readOperands (reads (.or d r)) s (writeReg d (s.reg d ||| s.reg r) s) := rfl

theorem exec_and (d r : Reg) (s : State) : exec (.and d r) s =
    readOperands (reads (.and d r)) s (writeReg d (s.reg d &&& s.reg r) s) := rfl

theorem exec_xor (d r : Reg) (s : State) : exec (.xor d r) s =
    readOperands (reads (.xor d r)) s (writeReg d (s.reg d ^^^ s.reg r) s) := rfl

theorem exec_mv (d r : Reg) (s : State) : exec (.mv d r) s =
    readOperands (reads (.mv d r)) s (writeReg d (s.reg r) s) := rfl

/-- Settles O26: each word decodes, and the one register written holds the word's or, and, exclusive or. -/
theorem registerLogicIsBitwise : Obligations.RegisterLogicIsBitwise := by
  intro d r s
  exact ⟨decode_orWord d r, writesRegister_of_exec (exec_or d r s) fun _ _ => BitVec.getLsbD_or,
    decode_andWord d r, writesRegister_of_exec (exec_and d r s) fun _ _ => BitVec.getLsbD_and,
    decode_xorWord d r, writesRegister_of_exec (exec_xor d r s) fun _ _ => BitVec.getLsbD_xor⟩

/-- Settles O27: MV's operand read is of rs2 alone, and what it writes is that register's value. -/
theorem moveCopiesSource : Obligations.MoveCopiesSource := by
  intro d r s
  exact ⟨decode_mvWord d r, writesRegister_of_exec (exec_mv d r s) rfl⟩

end Sys2Proof.Proofs
end

