-- ==== Sys2Proof/Proofs/ITypeLogic.lean ====
section
/-! SUPPORT. The I-type logic instructions and LI (spec/41_i_type.md, R126–R129): how an I-type word of the rules
decodes, and what the sign-extended immediate is, bit by bit and as a number. -/

namespace Sys2Proof.Proofs

open Sys2Proof.Machine Sys2Proof.Statements Sys2Proof.Laws

/-- The rules' formula `base | (imm7 & 0x7F)<<9 | d<<6` is the I format (R62), where `base` holds func3 and the
opcode. -/
theorem iWord_eq_encodeI (f3 : BitVec 3) (imm : BitVec 7) (d : Reg) :
    iWord (0#10 ++ f3 ++ 0b001#3) imm d = encodeI imm d f3 := by
  apply BitVec.eq_of_getLsbD_eq
  intro i hi
  simp only [iWord, regAt, encodeI, BitVec.getLsbD_or, BitVec.getLsbD_append, BitVec.getLsbD_shiftLeft,
    BitVec.getLsbD_setWidth]
  interval_cases i <;> simp

theorem decode_oriWord (imm : BitVec 7) (d : Reg) : decode (iWord 0x0021#16 imm d) = .ok (.ori d imm) :=
  decode_of_row (iWord_eq_encodeI 0b100#3 imm d) (EncodeMatches.ori d imm) rfl (by simp [encode])

theorem decode_andiWord (imm : BitVec 7) (d : Reg) : decode (iWord 0x0029#16 imm d) = .ok (.andi d imm) :=
  decode_of_row (iWord_eq_encodeI 0b101#3 imm d) (EncodeMatches.andi d imm) rfl (by simp [encode])

theorem decode_xoriWord (imm : BitVec 7) (d : Reg) : decode (iWord 0x0031#16 imm d) = .ok (.xori d imm) :=
  decode_of_row (iWord_eq_encodeI 0b110#3 imm d) (EncodeMatches.xori d imm) rfl (by simp [encode])

theorem decode_liWord (imm : BitVec 7) (d : Reg) : decode (iWord 0x0039#16 imm d) = .ok (.li d imm) :=
  decode_of_row (iWord_eq_encodeI 0b111#3 imm d) (EncodeMatches.li d imm) rfl (by simp [encode])

/-- Every bit of the immediate from bit 6 on is its sign. -/
theorem getLsbD_immI (imm : BitVec 7) {k : Nat} (hk : k < 16) :
    (immI imm).getLsbD k = imm.getLsbD (min k 6) := by
  rw [immI, BitVec.getLsbD_signExtend]
  by_cases hlow : k < 7
  · rw [Nat.min_eq_left (by omega)]
    simp [hk, hlow]
  · rw [Nat.min_eq_right (by omega)]
    simp [hk, hlow, BitVec.msb_eq_getLsbD_last]

theorem toInt_immI (imm : BitVec 7) : (immI imm).toInt = imm.toInt :=
  BitVec.toInt_signExtend_of_le (by decide)

theorem exec_ori (d : Reg) (imm : BitVec 7) (s : State) : exec (.ori d imm) s =
    readOperands (reads (.ori d imm)) s (writeReg d (s.reg d ||| immI imm) s) := rfl

theorem exec_andi (d : Reg) (imm : BitVec 7) (s : State) : exec (.andi d imm) s =
    readOperands (reads (.andi d imm)) s (writeReg d (s.reg d &&& immI imm) s) := rfl

theorem exec_xori (d : Reg) (imm : BitVec 7) (s : State) : exec (.xori d imm) s =
    readOperands (reads (.xori d imm)) s (writeReg d (s.reg d ^^^ immI imm) s) := rfl

theorem exec_li (d : Reg) (imm : BitVec 7) (s : State) : exec (.li d imm) s =
    readOperands (reads (.li d imm)) s (writeReg d (immI imm) s) := rfl

/-- Settles O33: each word decodes, and bit `k` of the result joins bit `k` of `rd` with that bit of the
sign-extended immediate. -/
theorem logicImmediateSignExtends : Obligations.LogicImmediateSignExtends := by
  intro d imm s
  exact ⟨decode_oriWord imm d,
    writesRegister_of_exec (exec_ori d imm s) fun _ hk => by rw [BitVec.getLsbD_or, getLsbD_immI imm hk],
    decode_andiWord imm d,
    writesRegister_of_exec (exec_andi d imm s) fun _ hk => by rw [BitVec.getLsbD_and, getLsbD_immI imm hk],
    decode_xoriWord imm d,
    writesRegister_of_exec (exec_xori d imm s) fun _ hk => by rw [BitVec.getLsbD_xor, getLsbD_immI imm hk]⟩

/-- Settles O34: LI has no operand to read, and sign extension keeps the signed value. -/
theorem loadImmediateSignExtends : Obligations.LoadImmediateSignExtends := by
  intro d imm s
  exact ⟨decode_liWord imm d, writesRegister_of_exec (exec_li d imm s) (toInt_immI imm)⟩

end Sys2Proof.Proofs
end

