-- ==== Sys2Proof/Proofs/UTypeLui.lean ====
section
/-! SUPPORT. LUI (spec/46_u_type.md, R191): how a U-type word of the rules decodes, and what the shifted
immediate is as a number. -/

namespace Sys2Proof.Proofs

open Sys2Proof.Machine Sys2Proof.Statements Sys2Proof.Laws

/-- The rules' formula `base | imm9[8:3]<<9 | d<<6 | imm9[2:0]<<3` is the U format (R67), where `base` holds the
flag bit and the opcode. -/
theorem uWord_eq_encodeU (flag : BitVec 1) (imm9 : BitVec 9) (d : Reg) :
    uWord (flag ++ 0#12 ++ 0b110#3) imm9 d = encodeU flag imm9 d := by
  apply BitVec.eq_of_getLsbD_eq
  intro i hi
  simp only [uWord, regAt, encodeU, BitVec.getLsbD_or, BitVec.getLsbD_append, BitVec.getLsbD_shiftLeft,
    BitVec.getLsbD_setWidth]
  interval_cases i <;> simp

theorem decode_luiWord (imm9 : BitVec 9) (d : Reg) : decode (uWord 0x0006#16 imm9 d) = .ok (.lui d imm9) :=
  decode_of_row (uWord_eq_encodeU 0b0#1 imm9 d) (EncodeMatches.lui d imm9) rfl
    (by simp [encode, fieldImm9_encodeU])

/-- The seven bits appended below the immediate are zero, and nothing is lost at the top: no reduction modulo
2^16 is needed. -/
theorem toNat_immU (imm9 : BitVec 9) : (immU imm9).toNat = imm9.toNat * 128 := by
  calc (immU imm9).toNat
      = imm9.toNat <<< 7 ||| (0#7).toNat := BitVec.toNat_append imm9 0#7
    _ = imm9.toNat * 128 := by simp [Nat.shiftLeft_eq]

/-- LUI reads no register, so its operand read is of the empty list. -/
theorem exec_lui (d : Reg) (imm9 : BitVec 9) (s : State) : exec (.lui d imm9) s =
    readOperands (reads (.lui d imm9)) s (writeReg d (immU imm9) s) := rfl

/-- Settles O46: the word decodes, and the one register written holds the immediate with seven zeros below. -/
theorem loadUpperImmediateShiftsBySeven : Obligations.LoadUpperImmediateShiftsBySeven := by
  intro d imm9 s
  exact ⟨decode_luiWord imm9 d, writesRegister_of_exec (exec_lui d imm9 s) (toNat_immU imm9)⟩

end Sys2Proof.Proofs
end

/-! SUPPORT. Decoding and encoding (spec/30_encoding.md): both round trips and the reserved words, with the number
a masked word is. -/

namespace Sys2Proof.Proofs

open Sys2Proof.Machine Sys2Proof.Statements Sys2Proof.Laws

/-! Decoding an encoded word (R60–R87). -/

/-- The word of every instruction matches the instruction's own row of the opcode table (R80). -/
theorem encode_matches (i : Instr) : EncodeMatches.Statement i := by
  cases i with
  | add => exact EncodeMatches.add ..
  | sub => exact EncodeMatches.sub ..
  | slt => exact EncodeMatches.slt ..
  | sltu => exact EncodeMatches.sltu ..
  | sll => exact EncodeMatches.sll ..
  | srl => exact EncodeMatches.srl ..
  | sra => exact EncodeMatches.sra ..
  | or => exact EncodeMatches.or ..
  | and => exact EncodeMatches.and ..
  | xor => exact EncodeMatches.xor ..
  | mv => exact EncodeMatches.mv ..
  | jr => exact EncodeMatches.jr ..
  | jalr => exact EncodeMatches.jalr ..
  | addi => exact EncodeMatches.addi ..
  | slti => exact EncodeMatches.slti ..
  | sltui => exact EncodeMatches.sltui ..
  | slli => exact EncodeMatches.slli ..
  | srli => exact EncodeMatches.srli ..
  | srai => exact EncodeMatches.srai ..
  | ori => exact EncodeMatches.ori ..
  | andi => exact EncodeMatches.andi ..
  | xori => exact EncodeMatches.xori ..
  | li => exact EncodeMatches.li ..
  | beq => exact EncodeMatches.beq ..
  | bne => exact EncodeMatches.bne ..
  | bz => exact EncodeMatches.bz ..
  | bnz => exact EncodeMatches.bnz ..
  | blt => exact EncodeMatches.blt ..
  | bge => exact EncodeMatches.bge ..
  | bltu => exact EncodeMatches.bltu ..
  | bgeu => exact EncodeMatches.bgeu ..
  | sb => exact EncodeMatches.sb ..
  | sw => exact EncodeMatches.sw ..
  | lb => exact EncodeMatches.lb ..
  | lw => exact EncodeMatches.lw ..
  | lbu => exact EncodeMatches.lbu ..
  | j => exact EncodeMatches.j ..
  | jal => exact EncodeMatches.jal ..
  | lui => exact EncodeMatches.lui ..
  | auipc => exact EncodeMatches.auipc ..
  | ecall => exact EncodeMatches.ecall ..

/-- The row of a well-formed instruction builds it back from its word: every operand survives encoding (R69–R76). -/
theorem build_encode {i : Instr} (hi : wellFormed i = true) {row : OpcodeRow}
    (hrow : opcodeTable[EncodeMatches.rowIndex i]? = some row) : row.build (encode i) = i := by
  cases i <;> obtain rfl := Option.some.inj hrow <;>
    simp_all [encode, wellFormed, fieldImm9_encodeU, fieldBranchOffset_encodeB, fieldJumpOffset_encodeJ]

/-- Settles O6: the word matches the instruction's own row, no other row overlaps with it, and the row builds the
instruction back. -/
theorem decodeOfEncodeIsIdentity : Obligations.DecodeOfEncodeIsIdentity := by
  intro i hi
  obtain ⟨row, hrow, _⟩ := encode_matches i
  exact decode_of_row rfl (encode_matches i) hrow (build_encode hi hrow)

/-- A word that says which instruction it encodes decodes to it (R80). -/
theorem decode_of_eq_encode {w : Word} {i : Instr} (hw : w = encode i) (hi : wellFormed i = true) :
    decode w = .ok i :=
  hw ▸ decodeOfEncodeIsIdentity i hi

/-! Encoding a decoded word (R80, R87): each format is put together again from the fields of a word, where the
masked bits of the word are those that the row looks at. -/

/-- The bits of a word under a mask, from the equation a row tests. -/
theorem getLsbD_of_and_eq {w mask key : Word} (h : w &&& mask = key) (k : Nat) :
    (w.getLsbD k && mask.getLsbD k) = key.getLsbD k := by
  rw [← h, BitVec.getLsbD_and]

/-- A branch offset read from a word has its implied bit 0 (R72). -/
theorem evenBranchOffset_field (w : Word) : evenBranchOffset (fieldBranchOffset w) = true := by
  rw [evenBranchOffset, fieldBranchOffset, BitVec.getLsbD_append]
  rfl

/-- A jump offset read from a word has its implied bit 0 (R74). -/
theorem evenJumpOffset_field (w : Word) : evenJumpOffset (fieldJumpOffset w) = true := by
  rw [evenJumpOffset, fieldJumpOffset, BitVec.getLsbD_append]
  rfl

theorem encodeR_of_fields {w : Word} {f4 : BitVec 4} {f3 : BitVec 3}
    (h : w &&& 0xF03F#16 = f4 ++ 0#6 ++ f3 ++ 0b000#3) : encodeR f4 (fieldRs2 w) (fieldRd w) f3 = w := by
  apply BitVec.eq_of_getLsbD_eq
  intro i hi
  have hk := getLsbD_of_and_eq h i
  simp only [encodeR, fieldRs2, fieldRd, Reg.bits_ofBits, BitVec.getLsbD_append,
    BitVec.getLsbD_extractLsb'] at hk ⊢
  interval_cases i <;> simp_all

theorem encodeI_of_fields {w : Word} {f3 : BitVec 3}
    (h : w &&& 0x003F#16 = 0#10 ++ f3 ++ 0b001#3) : encodeI (fieldImm7 w) (fieldRd w) f3 = w := by
  apply BitVec.eq_of_getLsbD_eq
  intro i hi
  have hk := getLsbD_of_and_eq h i
  simp only [encodeI, fieldImm7, fieldRd, Reg.bits_ofBits, BitVec.getLsbD_append,
    BitVec.getLsbD_extractLsb'] at hk ⊢
  interval_cases i <;> simp_all

theorem encodeShift_of_fields {w : Word} {ty : BitVec 3}
    (h : w &&& 0xE03F#16 = ty ++ 0#7 ++ 0b011#3 ++ 0b001#3) : encodeShift ty (fieldShamt w) (fieldRd w) = w := by
  apply BitVec.eq_of_getLsbD_eq
  intro i hi
  have hk := getLsbD_of_and_eq h i
  simp only [encodeShift, fieldShamt, fieldRd, Reg.bits_ofBits, BitVec.getLsbD_append,
    BitVec.getLsbD_extractLsb'] at hk ⊢
  interval_cases i <;> simp_all

theorem encodeB_of_fields {w : Word} {f3 : BitVec 3}
    (h : w &&& 0x003F#16 = 0#10 ++ f3 ++ 0b010#3) : encodeB (fieldBranchOffset w) (fieldRs2 w) (fieldRd w) f3 = w := by
  apply BitVec.eq_of_getLsbD_eq
  intro i hi
  have hk := getLsbD_of_and_eq h i
  simp only [encodeB, fieldBranchOffset, fieldRs2, fieldRd, Reg.bits_ofBits, BitVec.getLsbD_append,
    BitVec.getLsbD_extractLsb'] at hk ⊢
  interval_cases i <;> simp_all

theorem encodeS_of_fields {w : Word} {f3 : BitVec 3}
    (h : w &&& 0x003F#16 = 0#10 ++ f3 ++ 0b011#3) : encodeS (fieldImm4 w) (fieldRs2 w) (fieldRd w) f3 = w := by
  apply BitVec.eq_of_getLsbD_eq
  intro i hi
  have hk := getLsbD_of_and_eq h i
  simp only [encodeS, fieldImm4, fieldRs2, fieldRd, Reg.bits_ofBits, BitVec.getLsbD_append,
    BitVec.getLsbD_extractLsb'] at hk ⊢
  interval_cases i <;> simp_all

theorem encodeL_of_fields {w : Word} {f3 : BitVec 3}
    (h : w &&& 0x003F#16 = 0#10 ++ f3 ++ 0b100#3) : encodeL (fieldImm4 w) (fieldRs2 w) (fieldRd w) f3 = w := by
  apply BitVec.eq_of_getLsbD_eq
  intro i hi
  have hk := getLsbD_of_and_eq h i
  simp only [encodeL, fieldImm4, fieldRs2, fieldRd, Reg.bits_ofBits, BitVec.getLsbD_append,
    BitVec.getLsbD_extractLsb'] at hk ⊢
  interval_cases i <;> simp_all

theorem encodeJ_of_fields {w : Word} {l : BitVec 1}
    (h : w &&& 0x8007#16 = l ++ 0#12 ++ 0b101#3) : encodeJ l (fieldJumpOffset w) (fieldRd w) = w := by
  apply BitVec.eq_of_getLsbD_eq
  intro i hi
  have hk := getLsbD_of_and_eq h i
  simp only [encodeJ, fieldJumpOffset, fieldRd, Reg.bits_ofBits, BitVec.getLsbD_append,
    BitVec.getLsbD_extractLsb'] at hk ⊢
  interval_cases i <;> simp_all

theorem encodeU_of_fields {w : Word} {fl : BitVec 1}
    (h : w &&& 0x8007#16 = fl ++ 0#12 ++ 0b110#3) : encodeU fl (fieldImm9 w) (fieldRd w) = w := by
  apply BitVec.eq_of_getLsbD_eq
  intro i hi
  have hk := getLsbD_of_and_eq h i
  simp only [encodeU, fieldImm9, fieldRd, Reg.bits_ofBits, BitVec.getLsbD_append,
    BitVec.getLsbD_extractLsb'] at hk ⊢
  interval_cases i <;> simp_all

theorem encodeSys_of_fields {w : Word} 
    (h : w &&& 0x003F#16 = 0#10 ++ 0b000#3 ++ 0b111#3) : encodeSys (fieldSvc w) = w := by
  apply BitVec.eq_of_getLsbD_eq
  intro i hi
  have hk := getLsbD_of_and_eq h i
  simp only [encodeSys, fieldSvc, BitVec.getLsbD_append, BitVec.getLsbD_extractLsb'] at hk ⊢
  interval_cases i <;> simp_all

/-- Assembling the unused rs2 field as 000 clears it (R87). -/
theorem encodeR_clearRs2 (f4 : BitVec 4) (rs rd : Reg) (f3 : BitVec 3) :
    encodeR f4 .x0 rd f3 = encodeR f4 rs rd f3 &&& ~~~0x0E00#16 := by
  apply BitVec.eq_of_getLsbD_eq
  intro i hi
  simp only [encodeR, BitVec.getLsbD_and, BitVec.getLsbD_append]
  interval_cases i <;> simp [Reg.bits]

theorem encodeB_clearRs2 (off : BitVec 5) (rs rd : Reg) (f3 : BitVec 3) :
    encodeB off .x0 rd f3 = encodeB off rs rd f3 &&& ~~~0x0E00#16 := by
  apply BitVec.eq_of_getLsbD_eq
  intro i hi
  simp only [encodeB, BitVec.getLsbD_and, BitVec.getLsbD_append]
  interval_cases i <;> simp [Reg.bits]

/-- Assembling the unused rd field as 000 clears it (R87). -/
theorem encodeJ_clearRd (l : BitVec 1) (off : BitVec 10) (rd : Reg) :
    encodeJ l off .x0 = encodeJ l off rd &&& ~~~0x01C0#16 := by
  apply BitVec.eq_of_getLsbD_eq
  intro i hi
  simp only [encodeJ, BitVec.getLsbD_and, BitVec.getLsbD_append]
  interval_cases i <;> simp [Reg.bits]

/-- What a row builds from a word that matches it is well-formed and encodes to that word, the ignored fields
cleared. -/
def RowRoundTrips (r : OpcodeRow) : Prop :=
  ∀ w : Word, w &&& r.mask = r.pattern →
    wellFormed (r.build w) = true ∧ encode (r.build w) = w &&& ~~~ ignoredBits (r.build w)

/-- An instruction without an ignored field encodes to its word outright. -/
theorem roundTrip_whole {w : Word} {i : Instr} (hwf : wellFormed i = true) (hign : ignoredBits i = 0x0000#16)
    (h : encode i = w) : wellFormed i = true ∧ encode i = w &&& ~~~ ignoredBits i := by
  refine ⟨hwf, ?_⟩
  rw [hign, h, show ~~~0x0000#16 = BitVec.allOnes 16 from rfl, BitVec.and_allOnes]

theorem rTypeRows_roundTrip : ∀ r ∈ rTypeRows, RowRoundTrips r := by
  unfold rTypeRows
  simp only [List.forall_mem_cons]
  refine ⟨?_, ?_, ?_, ?_, ?_, ?_, ?_, ?_, ?_, ?_, ?_, ?jr, ?_, List.forall_mem_nil _⟩
  case jr =>
    intro w h
    refine ⟨rfl, (encodeR_clearRs2 _ (fieldRs2 w) _ _).trans ?_⟩
    rw [encodeR_of_fields h]
    rfl
  all_goals exact fun w h => roundTrip_whole rfl rfl (encodeR_of_fields h)

theorem iTypeRows_roundTrip : ∀ r ∈ iTypeRows, RowRoundTrips r := by
  unfold iTypeRows
  simp only [List.forall_mem_cons]
  refine ⟨?_, ?_, ?_, ?slli, ?srli, ?srai, ?_, ?_, ?_, ?_, List.forall_mem_nil _⟩
  case slli | srli | srai => exact fun w h => roundTrip_whole rfl rfl (encodeShift_of_fields h)
  all_goals exact fun w h => roundTrip_whole rfl rfl (encodeI_of_fields h)

theorem bTypeRows_roundTrip : ∀ r ∈ bTypeRows, RowRoundTrips r := by
  unfold bTypeRows
  simp only [List.forall_mem_cons]
  refine ⟨?_, ?_, ?bz, ?bnz, ?_, ?_, ?_, ?_, List.forall_mem_nil _⟩
  case bz | bnz =>
    intro w h
    refine ⟨evenBranchOffset_field w, (encodeB_clearRs2 _ (fieldRs2 w) _ _).trans ?_⟩
    rw [encodeB_of_fields h]
    rfl
  all_goals exact fun w h => roundTrip_whole (evenBranchOffset_field w) rfl (encodeB_of_fields h)

theorem sTypeRows_roundTrip : ∀ r ∈ sTypeRows, RowRoundTrips r := by
  unfold sTypeRows
  simp only [List.forall_mem_cons]
  refine ⟨?_, ?_, List.forall_mem_nil _⟩
  all_goals exact fun w h => roundTrip_whole rfl rfl (encodeS_of_fields h)

theorem lTypeRows_roundTrip : ∀ r ∈ lTypeRows, RowRoundTrips r := by
  unfold lTypeRows
  simp only [List.forall_mem_cons]
  refine ⟨?_, ?_, ?_, List.forall_mem_nil _⟩
  all_goals exact fun w h => roundTrip_whole rfl rfl (encodeL_of_fields h)

theorem jTypeRows_roundTrip : ∀ r ∈ jTypeRows, RowRoundTrips r := by
  unfold jTypeRows
  simp only [List.forall_mem_cons]
  refine ⟨?j, ?jal, List.forall_mem_nil _⟩
  case j =>
    intro w h
    refine ⟨evenJumpOffset_field w, (encodeJ_clearRd _ _ (fieldRd w)).trans ?_⟩
    rw [encodeJ_of_fields h]
    rfl
  case jal => exact fun w h => roundTrip_whole (evenJumpOffset_field w) rfl (encodeJ_of_fields h)

theorem uTypeRows_roundTrip : ∀ r ∈ uTypeRows, RowRoundTrips r := by
  unfold uTypeRows
  simp only [List.forall_mem_cons]
  refine ⟨?_, ?_, List.forall_mem_nil _⟩
  all_goals exact fun w h => roundTrip_whole rfl rfl (encodeU_of_fields h)

theorem sysTypeRows_roundTrip : ∀ r ∈ sysTypeRows, RowRoundTrips r := by
  unfold sysTypeRows
  simp only [List.forall_mem_cons]
  exact ⟨fun w h => roundTrip_whole rfl rfl (encodeSys_of_fields h), List.forall_mem_nil _⟩

/-- A property of all 41 rows is one of the rows of each format (R80). -/
theorem forall_opcodeTable {P : OpcodeRow → Prop} : (∀ r ∈ opcodeTable, P r) ↔
    (∀ r ∈ rTypeRows, P r) ∧ (∀ r ∈ iTypeRows, P r) ∧ (∀ r ∈ bTypeRows, P r) ∧ (∀ r ∈ sTypeRows, P r) ∧
    (∀ r ∈ lTypeRows, P r) ∧ (∀ r ∈ jTypeRows, P r) ∧ (∀ r ∈ uTypeRows, P r) ∧ (∀ r ∈ sysTypeRows, P r) := by
  simp only [opcodeTable, List.forall_mem_append, and_assoc]

/-- Settles O7: the row that a decodable word matches builds an instruction whose word is put together from the
fields of that word, an unused field as 000. -/
theorem encodeOfDecodeClearsIgnoredFields : Obligations.EncodeOfDecodeClearsIgnoredFields := by
  intro w i h
  obtain ⟨r, hr, hmatch, rfl⟩ := row_of_decode h
  have hall : ∀ r ∈ opcodeTable, RowRoundTrips r :=
    forall_opcodeTable.mpr ⟨rTypeRows_roundTrip, iTypeRows_roundTrip, bTypeRows_roundTrip, sTypeRows_roundTrip,
      lTypeRows_roundTrip, jTypeRows_roundTrip, uTypeRows_roundTrip, sysTypeRows_roundTrip⟩
  exact hall r hr w (by simpa [OpcodeRow.matches] using hmatch)

/-! Illegal words (R81–R86): what a row's mask leaves of a word, as a number. -/

theorem toNat_append_add {m n : Nat} (x : BitVec m) (y : BitVec n) :
    (x ++ y).toNat = x.toNat * 2 ^ n + y.toNat := by
  rw [BitVec.toNat_append, ← Nat.shiftLeft_add_eq_or_of_lt y.isLt, Nat.shiftLeft_eq]

/-- A row does not match exactly where the masked word is another number than its pattern. -/
theorem matches_eq_false_iff (r : OpcodeRow) (w : Word) :
    r.matches w = false ↔ (w &&& r.mask).toNat ≠ r.pattern.toNat := by
  simp [OpcodeRow.matches, BitVec.toNat_eq]

/-- A row that looks at the opcode and func3 (I, B, S, L, SYS). -/
theorem row003F_iff (m : String) {p : Word} (f : Word → Instr) (w : Word) (hp : p.toNat < 64) :
    OpcodeRow.matches ⟨m, 0x003F#16, p, f⟩ w = false ↔
      ¬ (w.toNat % 8 = p.toNat % 8 ∧ w.toNat / 8 % 8 = p.toNat / 8) := by
  have h : (w &&& 0x003F#16).toNat = w.toNat % 64 := Nat.and_two_pow_sub_one_eq_mod w.toNat 6
  rw [matches_eq_false_iff, h]
  dsimp only
  omega

/-- A row that looks at the opcode, func3 and funct4 (R). -/
theorem rowF03F_iff (m : String) {p : Word} (f : Word → Instr) (w : Word) (hp : p.toNat / 64 % 64 = 0) :
    OpcodeRow.matches ⟨m, 0xF03F#16, p, f⟩ w = false ↔
      ¬ (w.toNat % 8 = p.toNat % 8 ∧ w.toNat / 8 % 8 = p.toNat / 8 % 8 ∧ w.toNat / 4096 = p.toNat / 4096) := by
  have h : w &&& 0xF03F#16 = w.extractLsb' 12 4 ++ 0#6 ++ w.extractLsb' 0 6 := by
    apply BitVec.eq_of_getLsbD_eq
    intro i hi
    simp only [BitVec.getLsbD_and, BitVec.getLsbD_append, BitVec.getLsbD_extractLsb']
    interval_cases i <;> simp
  have := w.isLt
  rw [matches_eq_false_iff, h, toNat_append_add, toNat_append_add, BitVec.extractLsb'_toNat,
    BitVec.extractLsb'_toNat, Nat.shiftRight_eq_div_pow]
  simp
  omega

/-- A row that looks at the opcode, func3 and the shift type (I-type shifts). -/
theorem rowE03F_iff (m : String) {p : Word} (f : Word → Instr) (w : Word) (hp : p.toNat / 64 % 128 = 0) :
    OpcodeRow.matches ⟨m, 0xE03F#16, p, f⟩ w = false ↔
      ¬ (w.toNat % 8 = p.toNat % 8 ∧ w.toNat / 8 % 8 = p.toNat / 8 % 8 ∧ w.toNat / 8192 = p.toNat / 8192) := by
  have h : w &&& 0xE03F#16 = w.extractLsb' 13 3 ++ 0#7 ++ w.extractLsb' 0 6 := by
    apply BitVec.eq_of_getLsbD_eq
    intro i hi
    simp only [BitVec.getLsbD_and, BitVec.getLsbD_append, BitVec.getLsbD_extractLsb']
    interval_cases i <;> simp
  have := w.isLt
  rw [matches_eq_false_iff, h, toNat_append_add, toNat_append_add, BitVec.extractLsb'_toNat,
    BitVec.extractLsb'_toNat, Nat.shiftRight_eq_div_pow]
  simp
  omega

/-- A row that looks at the opcode and bit 15 (J, U). -/
theorem row8007_iff (m : String) {p : Word} (f : Word → Instr) (w : Word) (hp : p.toNat / 8 % 4096 = 0) :
    OpcodeRow.matches ⟨m, 0x8007#16, p, f⟩ w = false ↔
      ¬ (w.toNat % 8 = p.toNat % 8 ∧ w.toNat / 32768 = p.toNat / 32768) := by
  have h : w &&& 0x8007#16 = w.extractLsb' 15 1 ++ 0#12 ++ w.extractLsb' 0 3 := by
    apply BitVec.eq_of_getLsbD_eq
    intro i hi
    simp only [BitVec.getLsbD_and, BitVec.getLsbD_append, BitVec.getLsbD_extractLsb']
    interval_cases i <;> simp
  have := w.isLt
  rw [matches_eq_false_iff, h, toNat_append_add, toNat_append_add, BitVec.extractLsb'_toNat,
    BitVec.extractLsb'_toNat, Nat.shiftRight_eq_div_pow]
  simp
  omega

/-- A word is illegal exactly where it matches no row (R81). -/
theorem illegal_iff_no_row (w : Word) :
    (∃ e, decode w = .error e) ↔ ∀ r ∈ opcodeTable, r.matches w = false := by
  refine ⟨fun ⟨_, he⟩ => no_row_of_illegal he, fun h => ⟨illegalReason w, ?_⟩⟩
  have hnone : opcodeTable.find? (fun r => r.matches w) = none := by simpa [List.find?_eq_none] using h
  simp [decode, hnone]

theorem no_rTypeRow_iff (w : Word) : (∀ r ∈ rTypeRows, r.matches w = false) ↔
    (w.toNat % 8 = 0 → (w.toNat / 4096, w.toNat / 8 % 8) ∉ [(0, 0), (1, 0), (2, 1), (3, 2), (4, 3), (5, 3), (6, 3),
      (7, 4), (8, 5), (9, 6), (10, 7), (11, 0), (12, 0)]) := by
  simp (disch := decide) only [rTypeRows, List.forall_mem_cons, rowF03F_iff]
  generalize w.toNat / 4096 = funct4, w.toNat / 8 % 8 = func3
  by_cases hop : w.toNat % 8 = 0
  · simp [hop, imp_not_comm]
  · simp [hop]

theorem no_iTypeRow_iff (w : Word) : (∀ r ∈ iTypeRows, r.matches w = false) ↔
    (w.toNat % 8 = 1 → w.toNat / 8 % 8 = 3 ∧ w.toNat / 8192 ∉ [1, 2, 4]) := by
  simp (disch := decide) only [iTypeRows, List.forall_mem_cons, row003F_iff, rowE03F_iff]
  simp
  omega

theorem no_bTypeRow_iff (w : Word) : (∀ r ∈ bTypeRows, r.matches w = false) ↔
    (w.toNat % 8 ≠ 2) := by
  simp (disch := decide) only [bTypeRows, List.forall_mem_cons, row003F_iff]
  simp
  omega

theorem no_sTypeRow_iff (w : Word) : (∀ r ∈ sTypeRows, r.matches w = false) ↔
    (w.toNat % 8 = 3 → w.toNat / 8 % 8 ∉ [0, 1]) := by
  simp (disch := decide) only [sTypeRows, List.forall_mem_cons, row003F_iff]
  simp
  omega

theorem no_lTypeRow_iff (w : Word) : (∀ r ∈ lTypeRows, r.matches w = false) ↔
    (w.toNat % 8 = 4 → w.toNat / 8 % 8 ∉ [0, 1, 4]) := by
  simp (disch := decide) only [lTypeRows, List.forall_mem_cons, row003F_iff]
  simp
  omega

theorem no_jTypeRow_iff (w : Word) : (∀ r ∈ jTypeRows, r.matches w = false) ↔
    (w.toNat % 8 ≠ 5) := by
  simp (disch := decide) only [jTypeRows, List.forall_mem_cons, row8007_iff]
  simp
  omega

theorem no_uTypeRow_iff (w : Word) : (∀ r ∈ uTypeRows, r.matches w = false) ↔
    (w.toNat % 8 ≠ 6) := by
  simp (disch := decide) only [uTypeRows, List.forall_mem_cons, row8007_iff]
  simp
  omega

theorem no_sysTypeRow_iff (w : Word) : (∀ r ∈ sysTypeRows, r.matches w = false) ↔
    (w.toNat % 8 = 7 → w.toNat / 8 % 8 ≠ 0) := by
  simp (disch := decide) only [sysTypeRows, List.forall_mem_cons, row003F_iff]
  simp

/-- Settles O8: format by format, the words of an opcode that match no row of it; every B-, J- and U-type word
matches one. -/
theorem illegalWordsAreTheReservedSets : Obligations.IllegalWordsAreTheReservedSets := by
  intro w
  rw [illegal_iff_no_row, forall_opcodeTable, no_rTypeRow_iff, no_iTypeRow_iff, no_bTypeRow_iff, no_sTypeRow_iff,
    no_lTypeRow_iff, no_jTypeRow_iff, no_uTypeRow_iff, no_sysTypeRow_iff]
  have hop : w.toNat % 8 < 8 := Nat.mod_lt _ (by decide)
  simp only [Reserved]
  generalize w.toNat % 8 = op at hop
  interval_cases op <;> simp

/-- Settles O5: evaluation of the decoder on fourteen words. -/
theorem sampleWordsDecode : Obligations.SampleWordsDecode := by
  refine ⟨?_, ?_, ?_, ?_, ?_, ?_, ?_, ?_, ?_, ?_, ?_, ?_, ?_, ?_⟩ <;> decide

end Sys2Proof.Proofs

/-! SUPPORT. The instruction cycle (spec/10_state.md, R23): the three outcomes of a fetch, what a step does with the
fetched word, the run, and the state after reset. -/

namespace Sys2Proof.Proofs

open Sys2Proof.Machine Sys2Proof.Statements Sys2Proof.Laws

/-! The fetch and the step (R23). -/

theorem fetch_odd {s : State} (h : s.pc.toNat % 2 = 1) : fetch s = .error (.misalignedFetch s.pc) := by
  simp [fetch, (isOdd_iff s.pc).mpr h]

theorem fetch_mmio {s : State} (h2 : s.pc.toNat % 2 = 0) (hm : 0xF000 ≤ s.pc.toNat) :
    fetch s = .error (.fetchFromMmio s.pc) := by
  simp [fetch, (not_isOdd_iff s.pc).mpr h2, (inMmio_iff s.pc).mpr hm]

theorem fetch_storage {s : State} (h2 : s.pc.toNat % 2 = 0) (hm : s.pc.toNat < 0xF000) :
    fetch s = .ok (s.wordAt s.pc) := by
  simp [fetch, (not_isOdd_iff s.pc).mpr h2, (not_inMmio_iff s.pc).mpr hm]

theorem step_of_fetch_error {s : State} {f : Fault} (hr : s.runState = .running) (h : fetch s = .error f) :
    step s = .fault f := by
  simp [step, hr, stepRunning, h, raise]

theorem step_of_fetch_ok {s : State} {w : Word} (hr : s.runState = .running) (h : fetch s = .ok w) :
    step s = execWord w s := by
  simp [step, hr, stepRunning, h]

theorem execWord_ok {w : Word} {i : Instr} (s : State) (h : decode w = .ok i) : execWord w s = exec i s := by
  simp [execWord, h]

theorem execWord_illegal {w : Word} {e : Illegal} (s : State) (h : decode w = .error e) :
    execWord w s = .fault (.illegalInstruction s.pc w) := by
  simp [execWord, h, raise]

/-- A halted run takes no step (log 8). -/
theorem step_halted {s : State} {svc : BitVec 10} (h : s.runState = .halted svc) : step s = .next s := by
  simp [step, h]

/-- Settles O1: the fetch decides between its two faults and the word at the pc, which execution decodes. -/
theorem stepFollowsTheInstructionCycle : Obligations.StepFollowsTheInstructionCycle := by
  intro s hr
  refine ⟨fun h => step_of_fetch_error hr (fetch_odd h), fun h2 hm => step_of_fetch_error hr (fetch_mmio h2 hm), ?_⟩
  intro h2 hm w hw
  obtain rfl : w = s.wordAt s.pc := BitVec.eq_of_toNat_eq (hw.trans (s.wordAt_toNat h2).symm)
  have hstep := step_of_fetch_ok hr (fetch_storage h2 hm)
  exact ⟨fun i hi _ => hstep.trans (execWord_ok s hi), fun e he => hstep.trans (execWord_illegal s he)⟩

/-- A step from an even storage pc runs the instruction that the word there decodes to. -/
theorem step_eq_exec {s : State} {i : Instr} (hr : s.runState = .running) (h2 : s.pc.toNat % 2 = 0)
    (hm : s.pc.toNat < 0xF000) (hi : decode (s.wordAt s.pc) = .ok i) : step s = exec i s :=
  (step_of_fetch_ok hr (fetch_storage h2 hm)).trans (execWord_ok s hi)

/-! Bytes and words in storage (R30). -/

/-- A word written low byte first reads back whole (R30, R31). -/
theorem wordAt_of_write {s : State} {m : Memory} {a w : Word} (h2 : a.toNat % 2 = 0)
    (hm : s.mem = (m.write a.toNat (lowByte w)).write (a + 1#16).toNat (highByte w)) : s.wordAt a = w := by
  have hne : a.toNat ≠ (a + 1#16).toNat := by rw [toNat_add_one h2]; omega
  rw [State.wordAt, State.byteAt, State.byteAt, hm, Memory.readByte_write_other _ _ hne, Memory.readByte_write_same,
    Memory.readByte_write_same, wordOfBytes_bytes]

/-- Settles O2: the two bytes placed at the pc are the ones the fetch reads, and their word decodes back. -/
theorem placedInstructionRunsNext : Obligations.PlacedInstructionRunsNext := by
  intro i s hi h2 hm t
  have hdec : decode (encode i) = .ok i := decodeOfEncodeIsIdentity i hi
  have hword : t.wordAt t.pc = encode i :=
    wordAt_of_write (m := s.mem) h2 (by simp only [t, State.withFetchWord, tableWord_toNat]; rfl)
  refine ⟨?table, step_eq_exec rfl h2 hm (by rw [hword, hdec]), rfl, rfl, fun _ _ => ⟨rfl, rfl⟩, rfl, rfl, rfl, ?bytes⟩
  case table => simp [decodeTableWord, decodeBytes, hdec]
  case bytes =>
    intro a ha ha'
    rw [← toNat_add_one h2] at ha'
    exact (Memory.readByte_write_other _ _ ha').trans (Memory.readByte_write_other _ _ ha)

/-! Runs (R276). -/

theorem run_succ_eq (n : Nat) {s t : State} (h : step s = .next t) :
    Host.Core.run core (n + 1) s = Host.Core.run core n t := by
  simp only [Host.Core.run]
  rw [show core.step s = .next t from h]

/-- If a run of `n + 1` steps answers a state, its first step answered one and the others went on from there. -/
theorem run_succ_next {n : Nat} {s t : State} (h : Host.Core.run core (n + 1) s = .next t) :
    ∃ u, step s = .next u ∧ Host.Core.run core n u = .next t := by
  simp only [Host.Core.run] at h
  split at h
  · next u hu => exact ⟨u, hu, h⟩
  · cases h
  · cases h

/-- A relation that holds from every state to itself, over each step and one after the other holds over every run. -/
theorem run_keeps {R : State → State → Prop} (refl : ∀ s, R s s) (trans : ∀ s t u, R s t → R t u → R s u)
    (hstep : ∀ s t, step s = .next t → R s t) :
    ∀ (n : Nat) (s t : State), Host.Core.run core n s = .next t → R s t := by
  intro n
  induction n with
  | zero =>
    intro s t h
    cases h
    exact refl s
  | succ n ih =>
    intro s t h
    obtain ⟨u, hu, hrest⟩ := run_succ_next h
    exact trans s u t (hstep s u hu) (ih u t hrest)

/-- Settles O18: by induction on the number of steps, each of which answers the same state. -/
theorem haltedRunStays : Obligations.HaltedRunStays := by
  intro s svc n h
  refine ⟨step_halted h, ?_⟩
  induction n with
  | zero => rfl
  | succ n ih => rw [run_succ_eq n (step_halted h), ih]

/-! Reset (R24, R271, R274). -/

/-- Settles O4: a loaded image and a device model's initial state are in canonical form. -/
theorem resetSatisfiesInvariant : Obligations.ResetSatisfiesInvariant :=
  have h (p : Platform) (image : Image) : StorageInv (State.resetOn p image) :=
    ⟨Memory.wf_resetOn p image, p.initialDeviceRegs_wf⟩
  ⟨h _ _, h⟩

/-- An address below the MMIO window, as the image's filter and the statements write it (R41). -/
theorem lt_mmioBase_iff (a : Word) : a < Config.mmioBase ↔ a.toNat < 0xF000 := by
  simp [BitVec.lt_def, Config.mmioBase]

theorem resetOn_holdsImage (p : Platform) (image : Image) : HoldsImage image (State.resetOn p image) := by
  constructor
  · rintro a b ⟨pre, post, rfl, hlast⟩ ha
    exact Memory.readByte_ofImage_last pre post b ((lt_mmioBase_iff a).mpr ha) hlast
  · intro a h
    exact Memory.readByte_ofImage_unlisted fun e he hlt => h e he ((lt_mmioBase_iff e.1).mp hlt)

theorem initialDeviceRegs_none {p : Platform} (h : p.device = none) : p.initialDeviceRegs = [] := by
  simp [Platform.initialDeviceRegs, h]

theorem initialDeviceRegs_some {p : Platform} {d : Device} (h : p.device = some d) :
    p.initialDeviceRegs = Table.ofList d.initial := by
  simp [Platform.initialDeviceRegs, h]

theorem resetOn_holdsInitialDevice (p : Platform) (image : Image) :
    HoldsInitialDevice p (State.resetOn p image) := by
  constructor
  · rintro d hd i v ⟨pre, post, hinit, hlast⟩
    rw [State.resetOn_deviceRegs, initialDeviceRegs_some hd, readDeviceReg, hinit,
      Table.lookup_ofList_last pre post i v hlast, Option.getD_some]
  · intro i h
    rw [State.resetOn_deviceRegs, readDeviceReg]
    cases hd : p.device with
    | none => rw [initialDeviceRegs_none hd]; rfl
    | some d =>
      have hne : ∀ e ∈ d.initial, e.1.toNat ≠ i.toNat := by
        rintro ⟨j, v⟩ he hj
        obtain rfl : j = i := BitVec.eq_of_toNat_eq hj
        exact h d v hd he
      rw [initialDeviceRegs_some hd, Table.lookup_ofList_none hne, Option.getD_none]

/-- Small steps from an address below the MMIO window do not wrap round. -/
theorem toNat_add_small {a : Word} {k : Nat} (hk : a.toNat + k < 65536) :
    (a + BitVec.ofNat 16 k).toNat = a.toNat + k := by
  rw [BitVec.toNat_add, BitVec.toNat_ofNat]
  omega

/-- The addresses of an image of words in a row. -/
theorem words_range {a x : Word} {b : Byte} {ws : List Word} (hfit : a.toNat + 2 * ws.length ≤ 0xF000)
    (h : (x, b) ∈ Image.words a ws) : a.toNat ≤ x.toNat := by
  induction ws generalizing a with
  | nil => cases h
  | cons w rest ih =>
    rw [List.length_cons] at hfit
    have h1 : (a + 1#16).toNat = a.toNat + 1 := toNat_add_small (by omega)
    have h2 : (a + 2#16).toNat = a.toNat + 2 := toNat_add_small (by omega)
    simp only [Image.words, List.mem_cons, Prod.mk.injEq] at h
    rcases h with ⟨rfl, _⟩ | ⟨rfl, _⟩ | h
    · omega
    · omega
    · have := ih (by omega) h
      omega

/-- A pair in front of a list leaves the last pairs of the list the last ones. -/
theorem givesLast_cons {β : Type} {l : List (Word × β)} {k : Word} {v : β} (e : Word × β) (h : GivesLast l k v) :
    GivesLast (e :: l) k v := by
  obtain ⟨pre, post, rfl, hlast⟩ := h
  exact ⟨e :: pre, post, rfl, hlast⟩

/-- Each word of an image of words in a row lies at its place, low byte first (R31, R274). -/
theorem words_givesLast {a x : Word} {ws : List Word} {k : Nat} {w : Word} (hk : ws[k]? = some w)
    (hfit : a.toNat + 2 * ws.length ≤ 0xF000) :
    (x.toNat = a.toNat + 2 * k → GivesLast (Image.words a ws) x (lowByte w)) ∧
    (x.toNat = a.toNat + 2 * k + 1 → GivesLast (Image.words a ws) x (highByte w)) := by
  induction ws generalizing a k with
  | nil => cases hk
  | cons w' rest ih =>
    rw [List.length_cons] at hfit
    have h1 : (a + 1#16).toNat = a.toNat + 1 := toNat_add_small (by omega)
    have h2 : (a + 2#16).toNat = a.toNat + 2 := toNat_add_small (by omega)
    have hrest {y : Word} {b : Byte} (h : (y, b) ∈ Image.words (a + 2#16) rest) : a.toNat + 2 ≤ y.toNat :=
      h2 ▸ words_range (by omega) h
    cases k with
    | zero =>
      obtain rfl : w' = w := by simpa using hk
      constructor
      · intro hx
        obtain rfl : x = a := BitVec.eq_of_toNat_eq hx
        refine ⟨[], _, rfl, fun c hc => ?_⟩
        rcases List.mem_cons.mp hc with hc | hc
        · have := congrArg (fun e : Word × Byte => e.1.toNat) hc
          simp only [h1] at this
          omega
        · have := hrest hc
          omega
      · intro hx
        obtain rfl : x = a + 1#16 := BitVec.eq_of_toNat_eq (hx.trans h1.symm)
        refine ⟨[(a, lowByte w')], _, rfl, fun c hc => ?_⟩
        have := hrest hc
        omega
    | succ k =>
      obtain ⟨hlow, hhigh⟩ := ih (a := a + 2#16) (k := k) (by simpa using hk) (by omega)
      exact ⟨fun hx => givesLast_cons _ (givesLast_cons _ (hlow (by omega))),
        fun hx => givesLast_cons _ (givesLast_cons _ (hhigh (by omega)))⟩

/-- The words of an image lie in the storage after reset, low byte first. -/
theorem resetOn_words (p : Platform) {a w : Word} {ws : List Word} {k : Nat} (hk : ws[k]? = some w)
    (hfit : a.toNat + 2 * ws.length ≤ 0xF000) :
    byteValue (State.resetOn p (Image.words a ws)) (a.toNat + 2 * k) = w.toNat % 256 ∧
    byteValue (State.resetOn p (Image.words a ws)) (a.toNat + 2 * k + 1) = w.toNat / 256 := by
  have hlen : k < ws.length := (List.getElem?_eq_some_iff.mp hk).1
  obtain ⟨hbytes, _⟩ := resetOn_holdsImage p (Image.words a ws)
  have hlow : (a + BitVec.ofNat 16 (2 * k)).toNat = a.toNat + 2 * k := toNat_add_small (by omega)
  have hhigh : (a + BitVec.ofNat 16 (2 * k + 1)).toNat = a.toNat + 2 * k + 1 := toNat_add_small (by omega)
  constructor
  · rw [byteValue, ← hlow, hbytes _ _ ((words_givesLast hk hfit).1 hlow) (by omega), lowByte_toNat]
  · rw [byteValue, ← hhigh, hbytes _ _ ((words_givesLast hk hfit).2 hhigh) (by omega), highByte_toNat]

/-- Where the image gives the bytes at 0x0000, the first step runs the instruction of their word (R272). -/
theorem resetOn_step {p : Platform} {image : Image} {lo hi : Byte} {w : Word} {i : Instr}
    (hlo : GivesLast image 0x0000#16 lo) (hhi : GivesLast image 0x0001#16 hi) (hw : w.toNat = lo.toNat + 256 * hi.toNat)
    (hdec : decode w = .ok i) : step (State.resetOn p image) = exec i (State.resetOn p image) := by
  obtain ⟨hbytes, _⟩ := resetOn_holdsImage p image
  have hword : (State.resetOn p image).wordAt 0x0000#16 = w := by
    apply BitVec.eq_of_toNat_eq
    rw [State.wordAt_toNat _ rfl, hw, ← hbytes _ _ hlo (by decide), ← hbytes _ _ hhi (by decide)]
    rfl
  exact step_eq_exec rfl rfl (show (0x0000#16).toNat < 0xF000 by decide) (hdec ▸ congrArg decode hword)

/-- Settles O3: the fields that reset sets, the image's bytes and words, the device's initial registers, the first
step. -/
theorem resetLeavesPcZeroAndTheImage : Obligations.ResetLeavesPcZeroAndTheImage := by
  refine ⟨fun p image => ⟨rfl, rfl, rfl, rfl, State.resetOn_isWritten p image, resetOn_holdsImage p image,
    resetOn_holdsInitialDevice p image, fun _ _ _ _ => resetOn_step⟩, ?words, ⟨rfl, rfl, rfl, rfl⟩, rfl⟩
  case words => exact fun p _ _ _ _ hk hfit => resetOn_words p hk hfit

end Sys2Proof.Proofs

/-! SUPPORT. What an instruction can do, said once: the kinds of instruction, the shape of every memory access, and
what the storage goes through. From them the frame, the trace, the pc's advance, the refusals, the invariant and
read-only storage. -/

namespace Sys2Proof.Proofs

open Sys2Proof.Machine Sys2Proof.Statements Sys2Proof.Laws

/-! The shape of a memory access. -/

/-- One access of the device, from `s` to `u`: the effects of the supplied model, if any, and one event (R44). -/
def Accessed (s : State) (e : Event) (u : State) : Prop :=
  ∃ es : List (Effect DeviceTarget DeviceRegion), es.all s.deviceMay = true ∧ (s.platform.device = none → es = []) ∧
    u = (es.foldl applyDeviceEffect s).emit e

/-- A read that completes leaves storage alone, or is one access of the device (R36). -/
theorem memRead_ok {s u : State} {a v : Word} {n : Width} (h : memRead s a n = .ok (v, u)) :
    (inMmio a = false ∧ u = s) ∨ (inMmio a = true ∧ Accessed s (.mmioRead a n) u) := by
  rcases memRead_cases h with ⟨_, e⟩ | ⟨_, hm, e⟩ | ⟨_, hm, ⟨_, e⟩ | ⟨_, e⟩⟩
  · cases e
  · right
    refine ⟨hm, ?_⟩
    rcases deviceRead_cases e.symm with ⟨hd, e⟩ | ⟨d, es, hd, _, hes, e⟩ | ⟨_, _, _, e⟩
    · cases e
      exact ⟨[], rfl, fun _ => rfl, rfl⟩
    · cases e
      exact ⟨es, hes, fun hnone => (nomatch hd.symm.trans hnone), rfl⟩
    · cases e
  all_goals
    cases e
    exact .inl ⟨hm, rfl⟩

/-- A write that completes stores aligned bytes outside ROM, or is one access of the device (R37). -/
theorem memWrite_ok {s u : State} {a v : Word} {n : Width} (h : memWrite s a n v = .ok u) :
    (inMmio a = false ∧ misaligned a n = false ∧ s.storeHitsRom a n = false ∧ u = s.storeBytes a v n) ∨
    (inMmio a = true ∧ Accessed s (.mmioWrite a n (lowBits n v)) u) := by
  rcases memWrite_cases h with ⟨_, e⟩ | ⟨_, hm, e⟩ | ⟨_, _, _, e⟩ | ⟨hal, hm, hrom, e⟩
  · cases e
  · right
    refine ⟨hm, ?_⟩
    rcases deviceWrite_cases e.symm with ⟨hd, e⟩ | ⟨d, es, hd, _, hes, e⟩ | ⟨_, _, _, e⟩
    · cases e
      exact ⟨[], rfl, fun _ => rfl, rfl⟩
    · cases e
      exact ⟨es, hes, fun hnone => (nomatch hd.symm.trans hnone), rfl⟩
    · cases e
  · cases e
  · cases e
    exact .inl ⟨hm, hal, hrom, rfl⟩

/-- What an access of the device leaves as it was, and the event it appends (R40, R44). -/
theorem Accessed.core {s u : State} {e : Event} (h : Accessed s e u) :
    u.regs = s.regs ∧ u.written = s.written ∧ u.pc = s.pc ∧ u.trace = s.trace ++ [e] ∧ u.runState = s.runState ∧
    u.platform = s.platform := by
  obtain ⟨es, _, _, rfl⟩ := h
  obtain ⟨hregs, hwritten, hpc, htrace, hrun, hplatform⟩ := deviceEffects_core es s
  exact ⟨hregs, hwritten, hpc, by rw [State.emit_trace, htrace], hrun, hplatform⟩

/-- Where no device model is supplied, an access changes neither the storage nor device registers (log 5). -/
theorem Accessed.no_model {s u : State} {e : Event} (h : Accessed s e u) (hd : s.platform.device = none) :
    u.mem = s.mem ∧ u.deviceRegs = s.deviceRegs := by
  obtain ⟨es, _, hnone, rfl⟩ := h
  rw [hnone hd]
  exact ⟨rfl, rfl⟩

/-- A load that completes leaves every register as it was but its destination, which it writes next. -/
theorem memRead_regs {s u : State} {a v : Word} {n : Width} (h : memRead s a n = .ok (v, u)) :
    u.regs = s.regs ∧ u.written = s.written ∧ u.pc = s.pc ∧ u.runState = s.runState ∧ u.platform = s.platform := by
  rcases memRead_ok h with ⟨_, rfl⟩ | ⟨_, hacc⟩
  · exact ⟨rfl, rfl, rfl, rfl, rfl⟩
  · obtain ⟨hregs, hwritten, hpc, _, hrun, hplatform⟩ := hacc.core
    exact ⟨hregs, hwritten, hpc, hrun, hplatform⟩

theorem memWrite_regs {s u : State} {a v : Word} {n : Width} (h : memWrite s a n v = .ok u) :
    u.regs = s.regs ∧ u.written = s.written ∧ u.pc = s.pc ∧ u.runState = s.runState ∧ u.platform = s.platform := by
  rcases memWrite_ok h with ⟨_, _, _, rfl⟩ | ⟨_, hacc⟩
  · cases n <;> exact ⟨rfl, rfl, rfl, rfl, rfl⟩
  · obtain ⟨hregs, hwritten, hpc, _, hrun, hplatform⟩ := hacc.core
    exact ⟨hregs, hwritten, hpc, hrun, hplatform⟩

/-! The kinds of instruction. -/

/-- The low byte of a stored value, as the event of the store gives it (R37). -/
theorem zeroExtendByte_eq_ofNat (v : Word) : zeroExtendByte v = BitVec.ofNat 16 (v.toNat % 256) := by
  apply BitVec.eq_of_toNat_eq
  rw [zeroExtendByte, BitVec.toNat_setWidth, lowByte_toNat, BitVec.toNat_ofNat]

/-- What `i` does at `s`, as one of five kinds, each with what the terms of the statements say of it. -/
inductive Acts (i : Instr) (s : State) : Prop where
  /-- It gives one register a value and moves the pc. -/
  | setsReg (d : Reg) (v target : Word) (hwrites : writes i = [d]) (hevents : deviceEvents s i = [])
      (hseq : isSequential i = true → target = s.pc + 2#16)
      (hexec : exec i s = readOperands (reads i) s (.next ((s.setReg d v).setPc target)))
  /-- It only moves the pc. -/
  | setsPc (target : Word) (hwrites : writes i = []) (hevents : deviceEvents s i = [])
      (hseq : isSequential i = false) (hexec : exec i s = readOperands (reads i) s (.next (s.setPc target)))
  /-- It loads from an effective address. -/
  | loads (n : Width) (extend : Word → Word) (d : Reg) (off : BitVec 4) (base : Reg) (hwrites : writes i = [d])
      (haddr : accessAddress s i = some (effectiveAddress (s.reg base) off))
      (hevents : deviceEvents s i = if 0xF000 ≤ (effectiveAddress (s.reg base) off).toNat then
        [.mmioRead (effectiveAddress (s.reg base) off) n] else [])
      (hexec : exec i s = load n extend d off base s)
  /-- It stores at an effective address. -/
  | stores (n : Width) (data : Reg) (off : BitVec 4) (base : Reg) (hwrites : writes i = []) (hmay : mayStore i = true)
      (haddr : accessAddress s i = some (effectiveAddress (s.reg base) off))
      (hevents : deviceEvents s i = if 0xF000 ≤ (effectiveAddress (s.reg base) off).toNat then
        [.mmioWrite (effectiveAddress (s.reg base) off) n (lowBits n (s.reg data))] else [])
      (hexec : exec i s = store n data off base s)
  /-- It calls a service. -/
  | calls (svc : BitVec 10) (hi : i = .ecall svc)

/-- Every instruction is of one of the five kinds. -/
theorem acts (i : Instr) (s : State) : Acts i s := by
  cases i with
  | sb rs2 off rs1 =>
    refine .stores .byte rs2 off rs1 rfl rfl rfl ?_ rfl
    simp only [deviceEvents, lowBits, zeroExtendByte_eq_ofNat]
  | sw rs2 off rs1 => exact .stores .word rs2 off rs1 rfl rfl rfl rfl rfl
  | lb rd off rs2 => exact .loads .byte _ rd off rs2 rfl rfl rfl rfl
  | lw rd off rs2 => exact .loads .word _ rd off rs2 rfl rfl rfl rfl
  | lbu rd off rs2 => exact .loads .byte _ rd off rs2 rfl rfl rfl rfl
  | ecall svc => exact .calls svc rfl
  | jr | beq | bne | bz | bnz | blt | bge | bltu | bgeu | j => exact .setsPc _ rfl rfl rfl rfl
  | jalr | jal => exact .setsReg _ _ _ rfl rfl (fun h => nomatch h) rfl
  | _ => exact .setsReg _ _ _ rfl rfl (fun _ => rfl) rfl

/-- Once its operands are read, an instruction answers the state that its reading rests on. -/
theorem eq_of_readOperands_next {l : List Reg} {s t u : State} {o : Host.Outcome State Fault Refusal}
    (hexec : o = readOperands l s (.next u)) (h : o = .next t) : t = u := by
  obtain ⟨_, hnext⟩ := readOperands_next (hexec.symm.trans h)
  cases hnext
  rfl

/-! What a store or an effect of the environment does to the storage (R37, R40, R201). -/

/-- What every byte written outside ROM and the MMIO window, and every write to a device register, keeps. -/
structure KeptByWrites (p : Platform) (P : Memory → Table Word → Prop) : Prop where
  byte : ∀ m d (a : Word) (b : Byte), a.toNat < 0xF000 → ¬ InRom p a → P m d → P (m.write a.toNat b) d
  register : ∀ m d (i v : Word), P m d → P m (d.write i.toNat v)

theorem storable_iff (s : State) (a : Word) :
    s.storable a = true ↔ a.toNat < 0xF000 ∧ ¬ InRom s.platform a := by
  rw [State.storable, ← inRom_iff, ← not_inMmio_iff]
  simp

theorem storeHitsRom_iff (s : State) (a : Word) (n : Width) :
    s.storeHitsRom a n = true ↔ InRom s.platform a ∨ (n = .word ∧ InRom s.platform (a + 1#16)) := by
  cases n <;> simp [State.storeHitsRom, inRom_iff]

section Writes

variable {P : Memory → Table Word → Prop}

/-- A store that R37 lets through. -/
theorem KeptByWrites.storeBytes {s : State} (hP : KeptByWrites s.platform P) {a v : Word} {n : Width}
    (hm : inMmio a = false) (hal : misaligned a n = false) (hrom : s.storeHitsRom a n = false)
    (hs : P s.mem s.deviceRegs) : P (s.storeBytes a v n).mem (s.storeBytes a v n).deviceRegs := by
  have ha : a.toNat < 0xF000 := (not_inMmio_iff a).mp hm
  have hnot := mt (storeHitsRom_iff s a n).mpr (by simp [hrom])
  rw [not_or] at hnot
  obtain ⟨hlow, hhigh⟩ := hnot
  cases n with
  | byte => exact hP.byte _ _ a _ ha hlow hs
  | word =>
    obtain ⟨_, _, hnext⟩ := storage_next hal hm
    exact hP.byte _ _ (a + 1#16) _ hnext (fun h => hhigh ⟨rfl, h⟩) (hP.byte _ _ a _ ha hlow hs)

/-- The effects of a device model that it may have. -/
theorem KeptByWrites.deviceEffects {s : State} (hP : KeptByWrites s.platform P)
    {es : List (Effect DeviceTarget DeviceRegion)} (hes : es.all s.deviceMay = true) (hs : P s.mem s.deviceRegs) :
    P (es.foldl applyDeviceEffect s).mem (es.foldl applyDeviceEffect s).deviceRegs := by
  refine foldl_keeps (P := fun u => P u.mem u.deviceRegs) (fun e he u hu => ?_) s hs
  have hmay := List.all_eq_true.mp hes e he
  cases e with
  | set t v => exact hu
  | store r a v =>
    cases r with
    | register => exact hP.register _ _ a v hu
    | storage =>
      obtain ⟨ha, hrom⟩ := (storable_iff s a).mp hmay
      exact hP.byte _ _ a _ ha hrom hu
  | asked => exact hu

/-- The effects of a service that R201 grants. -/
theorem KeptByWrites.serviceEffects {s : State} (hP : KeptByWrites s.platform P) (svc : BitVec 10)
    {es : List (Effect ServiceTarget ServiceRegion)} (hes : es.all s.serviceMay = true) (hs : P s.mem s.deviceRegs) :
    P (es.foldl (applyServiceEffect svc) s).mem (es.foldl (applyServiceEffect svc) s).deviceRegs := by
  refine foldl_keeps (P := fun u => P u.mem u.deviceRegs) (fun e he u hu => ?_) s hs
  have hmay := List.all_eq_true.mp hes e he
  cases e with
  | set t v => cases t <;> exact hu
  | store r a v =>
    cases r
    obtain ⟨ha, hrom⟩ := (storable_iff s a).mp hmay
    exact hP.byte _ _ a _ ha hrom hu
  | asked => exact hu

/-- Whatever the permitted writes keep, an instruction keeps. -/
theorem exec_keeps {i : Instr} {s t : State} (hP : KeptByWrites s.platform P) (h : exec i s = .next t)
    (hs : P s.mem s.deviceRegs) : P t.mem t.deviceRegs := by
  cases acts i s with
  | setsReg d v target _ _ _ hexec => exact eq_of_readOperands_next hexec h ▸ hs
  | setsPc target _ _ _ hexec => exact eq_of_readOperands_next hexec h ▸ hs
  | loads n extend d off base _ _ _ hexec =>
    obtain ⟨v, u, hread, rfl⟩ := load_next (hexec.symm.trans h)
    rcases memRead_ok hread with ⟨_, rfl⟩ | ⟨_, es, hes, _, rfl⟩
    · exact hs
    · exact hP.deviceEffects hes hs
  | stores n data off base _ _ _ _ hexec =>
    obtain ⟨u, hwrite, rfl⟩ := store_next (hexec.symm.trans h)
    rcases memWrite_ok hwrite with ⟨hm, hal, hrom, rfl⟩ | ⟨_, es, hes, _, rfl⟩
    · exact hP.storeBytes hm hal hrom hs
    · exact hP.deviceEffects hes hs
  | calls svc hi =>
    subst hi
    obtain ⟨v, es, _, _, hes, rfl⟩ := execEcall_next h
    simpa using hP.serviceEffects svc hes hs

/-- Whatever the permitted writes keep, a step keeps. -/
theorem step_keeps {s t : State} (hP : KeptByWrites s.platform P) (h : step s = .next t)
    (hs : P s.mem s.deviceRegs) : P t.mem t.deviceRegs := by
  rcases step_next h with ⟨_, rfl⟩ | ⟨_, w, i, _, _, hexec⟩
  · exact hs
  · exact exec_keeps hP hexec hs

end Writes

/-- No instruction changes the platform's parameters (R7). -/
theorem exec_platform {i : Instr} {s t : State} (h : exec i s = .next t) : t.platform = s.platform := by
  cases acts i s with
  | setsReg d v target _ _ _ hexec => exact eq_of_readOperands_next hexec h ▸ rfl
  | setsPc target _ _ _ hexec => exact eq_of_readOperands_next hexec h ▸ rfl
  | loads n extend d off base _ _ _ hexec =>
    obtain ⟨v, u, hread, rfl⟩ := load_next (hexec.symm.trans h)
    obtain ⟨_, _, _, _, hplatform⟩ := memRead_regs hread
    exact hplatform
  | stores n data off base _ _ _ _ hexec =>
    obtain ⟨u, hwrite, rfl⟩ := store_next (hexec.symm.trans h)
    obtain ⟨_, _, _, _, hplatform⟩ := memWrite_regs hwrite
    exact hplatform
  | calls svc hi =>
    subst hi
    obtain ⟨v, es, _, _, _, rfl⟩ := execEcall_next h
    obtain ⟨_, _, _, hplatform⟩ := serviceEffects_frame svc es s
    simpa using hplatform

theorem step_platform {s t : State} (h : step s = .next t) : t.platform = s.platform := by
  rcases step_next h with ⟨_, rfl⟩ | ⟨_, w, i, _, _, hexec⟩
  · rfl
  · exact exec_platform hexec

/-! The invariant (R41) and read-only storage (R43). -/

theorem keptByWrites_wf (p : Platform) : KeptByWrites p (fun m d => m.wf = true ∧ deviceRegsWf d = true) where
  byte _ _ _ b ha _ := fun ⟨hm, hd⟩ => ⟨Memory.wf_write b hm ha, hd⟩
  register _ _ i v := fun ⟨hm, hd⟩ => ⟨hm, deviceRegsWf_write i v hd⟩

/-- Settles O9: the canonical form is kept by every write that a store, a service or a device model may make. -/
theorem stepKeepsInvariant : Obligations.StepKeepsInvariant := by
  intro s t hs h
  exact step_keeps (keptByWrites_wf s.platform) h hs

/-- The read-only bytes read as those of a given memory. -/
def RomReads (p : Platform) (m₀ m : Memory) : Prop :=
  ∀ a : Word, InRom p a → m.readByte a.toNat = m₀.readByte a.toNat

theorem keptByWrites_rom (p : Platform) (m₀ : Memory) : KeptByWrites p (fun m _ => RomReads p m₀ m) where
  byte m _ a b _ hrom := by
    intro hm c hc
    have hne : c.toNat ≠ a.toNat := fun e => hrom (BitVec.eq_of_toNat_eq e ▸ hc)
    rw [Memory.readByte_write_other m b hne, hm c hc]
  register _ _ _ _ := id

/-- A run keeps the platform and the read-only bytes. -/
theorem run_keeps_rom {n : Nat} {s t : State} (h : Host.Core.run core n s = .next t) :
    t.platform = s.platform ∧ RomReads s.platform s.mem t.mem := by
  refine run_keeps (R := fun s t => t.platform = s.platform ∧ RomReads s.platform s.mem t.mem)
    (fun s => ⟨rfl, fun _ _ => rfl⟩) ?trans ?step n s t h
  case trans =>
    rintro s t u ⟨hp, hrom⟩ ⟨hp', hrom'⟩
    exact ⟨hp'.trans hp, fun a ha => (hrom' a (hp ▸ ha)).trans (hrom a ha)⟩
  case step =>
    intro s t hstep
    exact ⟨step_platform hstep, step_keeps (keptByWrites_rom s.platform s.mem) hstep fun _ _ => rfl⟩

/-- Settles O10: by induction on the run; from reset the read-only bytes are the image's. -/
theorem runKeepsRomAndPlatform : Obligations.RunKeepsRomAndPlatform := by
  refine ⟨fun n s t h => run_keeps_rom h, fun n p image t h a b hrom hlast ha => ?_⟩
  obtain ⟨_, hkept⟩ := run_keeps_rom h
  obtain ⟨himage, _⟩ := resetOn_holdsImage p image
  rw [hkept a hrom, himage a b hlast ha]

end Sys2Proof.Proofs

/-! SUPPORT. The frame of every instruction (R12, R25), the trace (R48), the pc (R15, R17), the refusals (R44, R201)
and the faults (R240), each read off the kinds of instruction. -/

namespace Sys2Proof.Proofs

open Sys2Proof.Machine Sys2Proof.Statements Sys2Proof.Laws

/-! The trace (R48). -/

/-- The one event of a read, where it reaches the device. -/
theorem memRead_trace {s u : State} {a v : Word} {n : Width} (h : memRead s a n = .ok (v, u)) :
    u.trace = s.trace ++ if 0xF000 ≤ a.toNat then [.mmioRead a n] else [] := by
  rcases memRead_ok h with ⟨hm, rfl⟩ | ⟨hm, hacc⟩
  · have := (not_inMmio_iff a).mp hm
    rw [if_neg (by omega), List.append_nil]
  · obtain ⟨_, _, _, htrace, _⟩ := hacc.core
    rw [htrace, if_pos ((inMmio_iff a).mp hm)]

/-- The one event of a write, where it reaches the device. -/
theorem memWrite_trace {s u : State} {a v : Word} {n : Width} (h : memWrite s a n v = .ok u) :
    u.trace = s.trace ++ if 0xF000 ≤ a.toNat then [.mmioWrite a n (lowBits n v)] else [] := by
  rcases memWrite_ok h with ⟨hm, _, _, rfl⟩ | ⟨hm, hacc⟩
  · have := (not_inMmio_iff a).mp hm
    rw [if_neg (by omega), List.append_nil, State.storeBytes_trace]
  · obtain ⟨_, _, _, htrace, _⟩ := hacc.core
    rw [htrace, if_pos ((inMmio_iff a).mp hm)]

/-- Settles O11: only a load or store reaches the device, and it appends its one event. -/
theorem traceGrowsByTheDeviceAccess : Obligations.TraceGrowsByTheDeviceAccess := by
  intro i s t hnoEcall h
  cases acts i s with
  | setsReg d v target _ hevents _ hexec =>
    rw [eq_of_readOperands_next hexec h, hevents, List.append_nil]
    rfl
  | setsPc target _ hevents _ hexec =>
    rw [eq_of_readOperands_next hexec h, hevents, List.append_nil]
    rfl
  | loads n extend d off base _ _ hevents hexec =>
    obtain ⟨v, u, hread, rfl⟩ := load_next (hexec.symm.trans h)
    rw [hevents, State.advance_trace, State.setReg_trace, memRead_trace hread]
  | stores n data off base _ _ _ hevents hexec =>
    obtain ⟨u, hwrite, rfl⟩ := store_next (hexec.symm.trans h)
    rw [hevents, State.advance_trace, memWrite_trace hwrite]
  | calls svc hi =>
    subst hi
    cases hnoEcall

/-! The pc (R15, R17). -/

theorem nextInSequence_of_pc {s t : State} (h : t.pc = s.pc + 2#16) : NextInSequence s t := by
  rw [NextInSequence, h, BitVec.toNat_add]
  rfl

/-- Settles O17: every kind that transfers no control ends with the pc's advance. -/
theorem sequentialInstructionsAdvanceByTwo : Obligations.SequentialInstructionsAdvanceByTwo := by
  intro i s t hseq h
  apply nextInSequence_of_pc
  cases acts i s with
  | setsReg d v target _ _ htarget hexec =>
    rw [eq_of_readOperands_next hexec h, ← htarget hseq]
    rfl
  | setsPc target _ _ hnot => rw [hseq] at hnot; cases hnot
  | loads n extend d off base _ _ _ hexec =>
    obtain ⟨v, u, hread, rfl⟩ := load_next (hexec.symm.trans h)
    obtain ⟨_, _, hpc, _⟩ := memRead_regs hread
    simp [hpc]
  | stores n data off base _ _ _ _ hexec =>
    obtain ⟨u, hwrite, rfl⟩ := store_next (hexec.symm.trans h)
    obtain ⟨_, _, hpc, _⟩ := memWrite_regs hwrite
    simp [hpc]
  | calls svc hi =>
    subst hi
    cases hseq

/-- An even offset, sign-extended, keeps an even pc even: the modulus is even too (R17). -/
theorem even_add_signExtend {n : Nat} {p : Word} {x : BitVec n} (hn : n ≤ 16) (hp : p.toNat % 2 = 0)
    (hx : x.toInt % 2 = 0) : (p + x.signExtend 16).toNat % 2 = 0 := by
  have := add_signExtend_toNat p x hn
  omega

theorem even_toInt {n : Nat} {x : BitVec (n + 1)} (h : x.getLsbD 0 = false) : x.toInt % 2 = 0 := by
  have hx : x.toNat % 2 = 0 := by simpa [BitVec.getLsbD] using h
  have hpow : (2 ^ (n + 1) : Nat) % 2 = 0 := by rw [pow_succ]; omega
  rw [BitVec.toInt_eq_toNat_cond]
  split <;> omega

theorem even_branchOffset {p : Word} {off : BitVec 5} (hp : p.toNat % 2 = 0) (h : evenBranchOffset off = true) :
    (p + branchOffset off).toNat % 2 = 0 :=
  even_add_signExtend (by decide) hp (even_toInt (by simpa [evenBranchOffset] using h))

theorem even_jumpOffset {p : Word} {off : BitVec 10} (hp : p.toNat % 2 = 0) (h : evenJumpOffset off = true) :
    (p + jumpOffset off).toNat % 2 = 0 :=
  even_add_signExtend (by decide) hp (even_toInt (by simpa [evenJumpOffset] using h))

theorem even_add_two {p : Word} (hp : p.toNat % 2 = 0) : (p + 2#16).toNat % 2 = 0 := by
  rw [BitVec.toNat_add]
  simp
  omega

/-- A branch with an even offset keeps an even pc even. -/
theorem branchIf_even {l : List Reg} {c : Bool} {off : BitVec 5} {s t : State} (hp : s.pc.toNat % 2 = 0)
    (hoff : evenBranchOffset off = true) (h : branchIf l c off s = .next t) : t.pc.toNat % 2 = 0 := by
  rcases branchIf_next h with ⟨_, rfl⟩ | ⟨_, rfl⟩
  · exact even_branchOffset hp hoff
  · exact even_add_two hp

/-- Settles O12: a sequential instruction adds 2, a branch or jump an even offset, and a service leaves the pc or
adds 2. -/
theorem pcStaysEvenExceptRegisterJumps : Obligations.PcStaysEvenExceptRegisterJumps := by
  intro i s t hwf hjump hp h
  cases hseq : isSequential i with
  | true =>
    have := sequentialInstructionsAdvanceByTwo i s t hseq h
    rw [NextInSequence] at this
    omega
  | false =>
    cases i with
    | jr | jalr => cases hjump
    | beq | bne | bz | bnz | blt | bge | bltu | bgeu => exact branchIf_even hp hwf h
    | j off =>
      cases h
      exact even_jumpOffset hp hwf
    | jal d off =>
      cases h
      exact even_jumpOffset hp hwf
    | ecall svc =>
      obtain ⟨v, es, _, _, _, rfl⟩ := execEcall_next h
      obtain ⟨hpc, _⟩ := serviceEffects_frame svc es s
      unfold finishService
      split
      · rwa [← hpc] at hp
      · exact even_add_two (by rwa [hpc])
    | _ => cases hseq

/-! The frame (R12, R25, R40). -/

theorem sameRegsBut_of_core {l : List Reg} {s u : State} (hregs : u.regs = s.regs) (hwritten : u.written = s.written) :
    SameRegsBut l s u := by
  intro r _
  rw [State.reg, State.reg, State.isWritten, State.isWritten, hregs, hwritten]
  exact ⟨rfl, rfl⟩

theorem sameRegsBut_setReg {s u : State} (d : Reg) (v : Word) (h : SameRegsBut [d] s u) :
    SameRegsBut [d] s (u.setReg d v) := by
  intro r hr
  have hne : r ≠ d := by simpa using hr
  rw [State.setReg_reg_other _ _ hne, State.setReg_isWritten_other _ _ hne]
  exact h r hr

/-- A mark that is set stays so where only listed registers may change, and those are marked (R25). -/
theorem marked_of_sameRegsBut {l : List Reg} {s t : State} (h : SameRegsBut l s t)
    (hl : ∀ r ∈ l, t.isWritten r = true) (r : Reg) (hr : r ∈ l ∨ s.isWritten r = true) : t.isWritten r = true := by
  by_cases hmem : r ∈ l
  · exact hl r hmem
  · rw [(h r hmem).2]
    exact hr.resolve_left hmem

/-- The frame of every instruction but ECALL: its destinations, their marks and the run state. -/
theorem exec_regs {i : Instr} {s t : State} (hnoEcall : isEcall i = false) (h : exec i s = .next t) :
    SameRegsBut (writes i) s t ∧ (∀ r ∈ writes i, t.isWritten r = true) ∧ t.runState = s.runState := by
  cases acts i s with
  | setsReg d v target hwrites _ _ hexec =>
    rw [eq_of_readOperands_next hexec h, hwrites]
    exact ⟨sameRegsBut_setReg d v (sameRegsBut_of_core rfl rfl), by simp, rfl⟩
  | setsPc target hwrites _ _ hexec =>
    rw [eq_of_readOperands_next hexec h, hwrites]
    exact ⟨sameRegsBut_of_core rfl rfl, by simp, rfl⟩
  | loads n extend d off base hwrites _ _ hexec =>
    obtain ⟨v, u, hread, rfl⟩ := load_next (hexec.symm.trans h)
    obtain ⟨hregs, hwritten, _, hrun, _⟩ := memRead_regs hread
    rw [hwrites]
    exact ⟨sameRegsBut_setReg d _ (sameRegsBut_of_core hregs hwritten), by simp, hrun⟩
  | stores n data off base hwrites _ _ _ hexec =>
    obtain ⟨u, hwrite, rfl⟩ := store_next (hexec.symm.trans h)
    obtain ⟨hregs, hwritten, _, hrun, _⟩ := memWrite_regs hwrite
    rw [hwrites]
    exact ⟨sameRegsBut_of_core hregs hwritten, by simp, hrun⟩
  | calls svc hi =>
    subst hi
    cases hnoEcall

/-- The effects of a service never clear a mark (R25). -/
theorem serviceEffects_keep_marks (svc : BitVec 10) (es : List (Effect ServiceTarget ServiceRegion)) (s : State)
    {r : Reg} (h : s.isWritten r = true) : (es.foldl (applyServiceEffect svc) s).isWritten r = true := by
  refine foldl_keeps (P := fun u => u.isWritten r = true) (fun e _ u hu => ?_) s h
  cases e with
  | set t v =>
    cases t with
    | reg q => exact State.setReg_isWritten_keeps q v hu
    | output | endRun => exact hu
  | store region a v => cases region; simpa [applyServiceEffect] using hu
  | asked => exact hu

/-- A mark is set by a write and never cleared (R25). -/
theorem exec_marks {i : Instr} {s t : State} (h : exec i s = .next t) (r : Reg)
    (hr : r ∈ writes i ∨ s.isWritten r = true) : t.isWritten r = true := by
  cases hi : isEcall i with
  | false =>
    obtain ⟨hregs, hmarks, _⟩ := exec_regs hi h
    exact marked_of_sameRegsBut hregs hmarks r hr
  | true =>
    cases i with
    | ecall svc =>
      obtain ⟨v, es, _, _, _, rfl⟩ := execEcall_next h
      simpa using serviceEffects_keep_marks svc es s (hr.resolve_left (by simp [writes]))
    | _ => cases hi

/-- An address of the window, where the access cannot reach a device model, belongs to a platform without one. -/
theorem no_model_of_not_reaches {i : Instr} {s : State} {a : Word} (haddr : accessAddress s i = some a)
    (hm : inMmio a = true) (hno : ∀ a, ¬ ReachesDeviceModel s i a) : s.platform.device = none := by
  by_contra hd
  exact hno a ⟨hd, haddr, (inMmio_iff a).mp hm⟩

/-- Storage and device registers where no supplied device model is reached. -/
theorem exec_storage {i : Instr} {s t : State} (h : exec i s = .next t) (hno : ∀ a, ¬ ReachesDeviceModel s i a) :
    (mayStore i = false → SameMemory s t) ∧ t.deviceRegs = s.deviceRegs := by
  cases acts i s with
  | setsReg d v target _ _ _ hexec =>
    rw [eq_of_readOperands_next hexec h]
    exact ⟨fun _ _ => rfl, rfl⟩
  | setsPc target _ _ _ hexec =>
    rw [eq_of_readOperands_next hexec h]
    exact ⟨fun _ _ => rfl, rfl⟩
  | loads n extend d off base _ haddr _ hexec =>
    obtain ⟨v, u, hread, rfl⟩ := load_next (hexec.symm.trans h)
    rcases memRead_ok hread with ⟨_, rfl⟩ | ⟨hm, hacc⟩
    · exact ⟨fun _ _ => rfl, rfl⟩
    · obtain ⟨hmem, hdev⟩ := hacc.no_model (no_model_of_not_reaches haddr hm hno)
      exact ⟨fun _ a => congrArg (Memory.readByte · a) hmem, hdev⟩
  | stores n data off base _ hmay haddr _ hexec =>
    obtain ⟨u, hwrite, rfl⟩ := store_next (hexec.symm.trans h)
    refine ⟨fun hnot => (nomatch hnot.symm.trans hmay), ?_⟩
    rcases memWrite_ok hwrite with ⟨_, _, _, rfl⟩ | ⟨hm, hacc⟩
    · simp
    · exact (hacc.no_model (no_model_of_not_reaches haddr hm hno)).2
  | calls svc hi =>
    subst hi
    obtain ⟨v, es, _, _, _, rfl⟩ := execEcall_next h
    obtain ⟨_, _, hdev, _⟩ := serviceEffects_frame svc es s
    exact ⟨fun hnot => (nomatch hnot), by simpa using hdev⟩

/-- Settles O16: the frame of the registers, the marks, the storage and the platform, each by the kinds of
instruction. -/
theorem onlyNamedDestinationsChange : Obligations.OnlyNamedDestinationsChange := by
  intro i s t h
  refine ⟨fun hi => ?regs, exec_marks h, fun hmay hno => (exec_storage h hno).1 hmay,
    fun hno => (exec_storage h hno).2, exec_platform h⟩
  case regs =>
    obtain ⟨hregs, _, hrun⟩ := exec_regs hi h
    exact ⟨hregs, hrun⟩

/-! Refusals (R44, R201). -/

theorem readOperands_refused {l : List Reg} {s : State} {rest : Host.Outcome State Fault Refusal} {r : Refusal}
    (h : readOperands l s rest = .refused r) : rest = .refused r := by
  rcases readOperands_cases h with ⟨_, _, _, _, _, _, e⟩ | ⟨_, e⟩
  · cases e
  · exact e.symm

/-- Only a supplied device model refuses a read. -/
theorem memRead_refused {s : State} {a : Word} {n : Width} {r : Refusal}
    (h : memRead s a n = .error (.refusal r)) :
    s.platform.device ≠ none ∧ 0xF000 ≤ a.toNat ∧ r = .deviceRefused a := by
  rcases memRead_cases h with ⟨_, e⟩ | ⟨_, hm, e⟩ | ⟨_, _, ⟨_, e⟩ | ⟨_, e⟩⟩
  · cases e
  · rcases deviceRead_cases e.symm with ⟨_, e⟩ | ⟨_, _, _, _, _, e⟩ | ⟨d, hd, _, e⟩
    · cases e
    · cases e
    · cases e
      exact ⟨by simp [hd], (inMmio_iff a).mp hm, rfl⟩
  all_goals cases e

/-- Only a supplied device model refuses a write. -/
theorem memWrite_refused {s : State} {a v : Word} {n : Width} {r : Refusal}
    (h : memWrite s a n v = .error (.refusal r)) :
    s.platform.device ≠ none ∧ 0xF000 ≤ a.toNat ∧ r = .deviceRefused a := by
  rcases memWrite_cases h with ⟨_, e⟩ | ⟨_, hm, e⟩ | ⟨_, _, _, e⟩ | ⟨_, _, _, e⟩
  · cases e
  · rcases deviceWrite_cases e.symm with ⟨_, e⟩ | ⟨_, _, _, _, _, e⟩ | ⟨d, hd, _, e⟩
    · cases e
    · cases e
    · cases e
      exact ⟨by simp [hd], (inMmio_iff a).mp hm, rfl⟩
  all_goals cases e

/-- Settles O14: nothing but a device access or a service can be refused. -/
theorem onlyTheEnvironmentRefuses : Obligations.OnlyTheEnvironmentRefuses := by
  intro i s r h
  cases acts i s with
  | setsReg d v target _ _ _ hexec => cases readOperands_refused (hexec.symm.trans h)
  | setsPc target _ _ _ hexec => cases readOperands_refused (hexec.symm.trans h)
  | loads n extend d off base _ haddr _ hexec =>
    obtain ⟨hd, hm, hr⟩ := memRead_refused (loadAt_refused (readOperands_refused (hexec.symm.trans h)))
    exact .inr ⟨_, ⟨hd, haddr, hm⟩, hr⟩
  | stores n data off base _ _ haddr _ hexec =>
    obtain ⟨hd, hm, hr⟩ := memWrite_refused (storeAt_refused (readOperands_refused (hexec.symm.trans h)))
    exact .inr ⟨_, ⟨hd, haddr, hm⟩, hr⟩
  | calls svc hi =>
    subst hi
    rcases execEcall_cases h with ⟨_, e⟩ | ⟨_, _, _, e⟩ | ⟨_, _, _, _, _, e⟩ | ⟨_, _, _, _, _, e⟩
    · cases e
      exact .inl ⟨svc, rfl, .inl rfl⟩
    · cases e
      exact .inl ⟨svc, rfl, .inr rfl⟩
    · cases e
    · cases e

/-! Faults (R240, R248). -/

/-- The operand read faults on the first register that may not be read; else what follows it does. -/
theorem readOperands_fault_iff (l : List Reg) (s : State) (rest : Host.Outcome State Fault Refusal) (f : Fault) :
    readOperands l s rest = .fault f ↔
      (∃ r, FirstUndefined s l r ∧ f = .undefinedRegisterRead s.pc r) ∨ (CanRead s l ∧ rest = .fault f) := by
  constructor
  · intro h
    rcases readOperands_cases h with ⟨r, pre, post, hl, hpre, hr, e⟩ | ⟨hl, e⟩
    · cases e
      exact .inl ⟨r, (firstUndefined_iff s l r).mpr ⟨pre, post, hl, hpre, hr⟩, rfl⟩
    · exact .inr ⟨(canRead_iff s l).mpr hl, e.symm⟩
  · rintro (⟨r, hundef, rfl⟩ | ⟨hread, hrest⟩)
    · obtain ⟨pre, post, hl, hpre, hr⟩ := (firstUndefined_iff s l r).mp hundef
      have hfind : l.find? (fun q => !s.readable q) = some r :=
        List.find?_eq_some_iff_append.mpr ⟨by simp [hr], pre, post, hl, by simpa using hpre⟩
      rw [readOperands, hfind]
      rfl
    · rw [readOperands_ok _ ((canRead_iff s l).mp hread), hrest]

/-- The faults of an instruction are those of its operand read and those of what follows. -/
theorem exec_fault_iff {i : Instr} {s : State} {f : Fault} {rest : Host.Outcome State Fault Refusal}
    (hexec : exec i s = readOperands (reads i) s rest) (hlater : rest = .fault f ↔ RaisesLater s f i) :
    exec i s = .fault f ↔ RaisesFault s f i := by
  rw [hexec, readOperands_fault_iff, hlater, RaisesFault]

theorem misaligned_word_iff (a : Word) : misaligned a .word = true ↔ a.toNat % 2 = 1 := isOdd_iff a

theorem aligned_word_iff (a : Word) : misaligned a .word = false ↔ a.toNat % 2 = 0 := not_isOdd_iff a

/-- A load faults exactly at an address its width may not have (R33, R244). -/
theorem loadAt_fault_iff {n : Width} {extend : Word → Word} {d : Reg} {a : Word} {s : State} {f : Fault} :
    loadAt n extend d a s = .fault f ↔ misaligned a n = true ∧ f = .misalignedAccess s.pc a := by
  constructor
  · intro h
    rcases memRead_cases (loadAt_fault h) with ⟨hal, e⟩ | ⟨_, _, e⟩ | ⟨_, _, ⟨_, e⟩ | ⟨_, e⟩⟩
    · cases e
      exact ⟨hal, rfl⟩
    · rcases deviceRead_cases e.symm with ⟨_, e⟩ | ⟨_, _, _, _, _, e⟩ | ⟨_, _, _, e⟩ <;> cases e
    all_goals cases e
  · rintro ⟨hal, rfl⟩
    simp [loadAt, memRead, hal, stop, raise]

/-- A store faults exactly at an address its width may not have, or on ROM outside the window (R37, R244, R245). -/
theorem storeAt_fault_iff {n : Width} {v a : Word} {s : State} {f : Fault} :
    storeAt n v a s = .fault f ↔ (misaligned a n = true ∧ f = .misalignedAccess s.pc a) ∨
      (misaligned a n = false ∧ inMmio a = false ∧ s.storeHitsRom a n = true ∧ f = .storeToRom s.pc a) := by
  constructor
  · intro h
    rcases memWrite_cases (storeAt_fault h) with ⟨hal, e⟩ | ⟨_, _, e⟩ | ⟨hal, hm, hrom, e⟩ | ⟨_, _, _, e⟩
    · cases e
      exact .inl ⟨hal, rfl⟩
    · rcases deviceWrite_cases e.symm with ⟨_, e⟩ | ⟨_, _, _, _, _, e⟩ | ⟨_, _, _, e⟩ <;> cases e
    · cases e
      exact .inr ⟨hal, hm, hrom, rfl⟩
    · cases e
  · rintro (⟨hal, rfl⟩ | ⟨hal, hm, hrom, rfl⟩)
    · simp [storeAt, memWrite, hal, stop, raise]
    · simp [storeAt, memWrite, hal, hm, hrom, stop, raise]

theorem not_readable_iff (s : State) (r : Reg) :
    s.readable r = false ↔ s.platform.undefRegRead = .fault ∧ s.isWritten r = false := by
  rw [← Bool.not_eq_true, State.readable_iff, Classical.not_imp, Bool.not_eq_true]

/-- An ECALL faults exactly where its service reads a register that may not be read (R201, R247). -/
theorem execEcall_fault_iff (svc : BitVec 10) (s : State) (f : Fault) :
    execEcall svc s = .fault f ↔ RaisesLater s f (.ecall svc) := by
  constructor
  · intro h
    rcases execEcall_cases h with ⟨_, e⟩ | ⟨_, _, _, e⟩ | ⟨v, r, hv, hr, he, e⟩ | ⟨_, _, _, _, _, e⟩
    · cases e
    · cases e
    · cases e
      obtain ⟨hundef, hunwritten⟩ := (not_readable_iff s r).mp hr
      exact ⟨v, r, hv, he, hundef, hunwritten, rfl⟩
    · cases e
  · rintro ⟨v, r, hv, he, _, _, rfl⟩
    have hv : s.platform.service svc = some v := hv
    simp [execEcall, hv, he, stop, raise]

/-- Settles O13: after the operand read only a load, a store or a service can fault. -/
theorem faultsOfDecodedInstructionsAreExact : Obligations.FaultsOfDecodedInstructionsAreExact := by
  intro i s f
  cases i with
  | lw d off base =>
    refine exec_fault_iff rfl (loadAt_fault_iff.trans ?_)
    rw [misaligned_word_iff]
    rfl
  | lb d off base | lbu d off base =>
    refine exec_fault_iff rfl (loadAt_fault_iff.trans ?_)
    simp [misaligned, RaisesLater]
  | sw data off base =>
    refine exec_fault_iff rfl (storeAt_fault_iff.trans ?_)
    rw [misaligned_word_iff, aligned_word_iff, not_inMmio_iff, storeHitsRom_iff]
    simp [RaisesLater]
  | sb data off base =>
    refine exec_fault_iff rfl (storeAt_fault_iff.trans ?_)
    rw [not_inMmio_iff, storeHitsRom_iff]
    simp [misaligned, RaisesLater]
  | ecall svc => exact exec_fault_iff rfl (execEcall_fault_iff svc s f)
  | _ => exact exec_fault_iff (rest := .next _) rfl (by simp [RaisesLater])

end Sys2Proof.Proofs

/-! SUPPORT. Unread registers (R12): a register that an instruction does not read, changed before it or after it,
comes to the same. Each shared operation commutes with the change; the instructions follow. -/

namespace Sys2Proof.Proofs

open Sys2Proof.Machine Sys2Proof.Statements Sys2Proof.Laws

/-! Two writes of registers. -/

theorem setReg_setReg_same (s : State) (r : Reg) (v w : Word) : (s.setReg r v).setReg r w = s.setReg r w := by
  have hmark : (s.written.mark r).mark r = s.written.mark r :=
    WrittenMarks.mark_of_get (WrittenMarks.get_mark_same s.written r)
  simp only [State.setReg, RegFile.set_set_same, hmark]

theorem setReg_setReg_comm (s : State) {r q : Reg} (v w : Word) (h : q ≠ r) :
    (s.setReg r v).setReg q w = (s.setReg q w).setReg r v := by
  simp only [State.setReg, RegFile.set_set_comm s.regs v w h, WrittenMarks.mark_mark_comm s.written r q]

/-- What the change of register `r` to `v` before an instruction with destinations `l` comes to after it. -/
def changeAfter (l : List Reg) (r : Reg) (v : Word) (t : State) : State := if r ∈ l then t else t.setReg r v

theorem setReg_changeAfter (s : State) (r d : Reg) (v w : Word) :
    (s.setReg r v).setReg d w = changeAfter [d] r v (s.setReg d w) := by
  by_cases h : d = r
  · subst h
    rw [setReg_setReg_same, changeAfter, if_pos (List.mem_singleton_self d)]
  · rw [setReg_setReg_comm s v w h, changeAfter, if_neg (by simpa using Ne.symm h)]

theorem changeAfter_setPc (l : List Reg) (r : Reg) (v a : Word) (t : State) :
    changeAfter l r v (t.setPc a) = (changeAfter l r v t).setPc a := by
  unfold changeAfter
  split <;> rfl

/-! The shared operations. -/

section Unread

variable {s : State} {r : Reg} {v : Word}

theorem reg_setReg_unread {l : List Reg} (hr : r ∉ l) {q : Reg} (hq : q ∈ l) : (s.setReg r v).reg q = s.reg q :=
  s.setReg_reg_other v fun e => hr (e ▸ hq)

theorem readable_setReg_unread {l : List Reg} (hr : r ∉ l) {q : Reg} (hq : q ∈ l) :
    (s.setReg r v).readable q = s.readable q := by
  have hne : q ≠ r := fun e => hr (e ▸ hq)
  rw [Bool.eq_iff_iff, State.readable_iff, State.readable_iff, State.setReg_platform,
    State.setReg_isWritten_other s v hne]

/-- The operand read takes no notice of a register outside its list. -/
theorem readOperands_unread {l : List Reg} (hr : r ∉ l) {g : State → State}
    {rest rest' : Host.Outcome State Fault Refusal} (hrest : rest' = mapNext g rest) :
    readOperands l (s.setReg r v) rest' = mapNext g (readOperands l s rest) := by
  have hfind : l.find? (fun q => !(s.setReg r v).readable q) = l.find? (fun q => !s.readable q) :=
    List.find?_congr fun q hq => by rw [readable_setReg_unread hr hq]
  unfold readOperands
  rw [hfind, hrest]
  split <;> rfl

/-- The effects of a device model and the change of a register commute (R40). -/
theorem deviceEffects_setReg (es : List (Effect DeviceTarget DeviceRegion)) (s : State) :
    es.foldl applyDeviceEffect (s.setReg r v) = (es.foldl applyDeviceEffect s).setReg r v := by
  induction es generalizing s with
  | nil => rfl
  | cons e rest ih =>
    have he : applyDeviceEffect (s.setReg r v) e = (applyDeviceEffect s e).setReg r v := by
      rcases e with ⟨_, _⟩ | ⟨⟨⟩, _, _⟩ | _ <;> rfl
    rw [List.foldl_cons, List.foldl_cons, he, ih]

theorem runDevice_setReg (p : Program DeviceSource DeviceTarget DeviceRegion) (a : Word) (n : Width) (x : Word) :
    runDevice p (s.setReg r v) a n x =
      (runDevice p s a n x).map (fun y => (y.1, y.2.setReg r v)) := by
  have henv : deviceEnv (s.setReg r v) a n x = deviceEnv s a n x := rfl
  have hmay : (s.setReg r v).deviceMay = s.deviceMay := rfl
  unfold runDevice
  rw [henv, hmay]
  split
  · split
    · rw [deviceEffects_setReg]
      rfl
    · rfl
  · rfl

theorem deviceRead_setReg (a : Word) (n : Width) :
    deviceRead (s.setReg r v) a n = (deviceRead s a n).map (fun y => (y.1, y.2.setReg r v)) := by
  unfold deviceRead
  rw [State.setReg_platform]
  split
  · rfl
  · rw [runDevice_setReg]
    cases runDevice _ s a n 0#16 <;> rfl

theorem deviceWrite_setReg (a : Word) (n : Width) (x : Word) :
    deviceWrite (s.setReg r v) a n x = (deviceWrite s a n x).map (·.setReg r v) := by
  unfold deviceWrite
  rw [State.setReg_platform]
  split
  · rfl
  · rw [runDevice_setReg]
    cases runDevice _ s a n x <;> rfl

theorem memRead_setReg (a : Word) (n : Width) :
    memRead (s.setReg r v) a n = (memRead s a n).map (fun y => (y.1, y.2.setReg r v)) := by
  unfold memRead
  split
  · rfl
  · split
    · exact deviceRead_setReg a n
    · cases n <;> rfl

theorem memWrite_setReg (a : Word) (n : Width) (x : Word) :
    memWrite (s.setReg r v) a n x = (memWrite s a n x).map (·.setReg r v) := by
  have hrom : (s.setReg r v).storeHitsRom a n = s.storeHitsRom a n := by cases n <;> rfl
  unfold memWrite
  rw [hrom]
  split
  · rfl
  · split
    · exact deviceWrite_setReg a n _
    · split
      · rfl
      · cases n <;> rfl

theorem mapNext_stop (g : State → State) (e : Stop) : mapNext g (stop e) = stop e := by cases e <;> rfl

theorem load_unread {n : Width} {extend : Word → Word} {d base : Reg} {off : BitVec 4} (hr : r ∉ [base]) :
    load n extend d off base (s.setReg r v) = mapNext (changeAfter [d] r v) (load n extend d off base s) := by
  refine readOperands_unread hr ?_
  rw [reg_setReg_unread hr (List.mem_singleton_self base), loadAt, loadAt, memRead_setReg]
  cases memRead s (effectiveAddress (s.reg base) off) n with
  | ok y =>
    simp only [Except.map, mapNext, State.advance, setReg_changeAfter, changeAfter_setPc]
    congr 2
    unfold changeAfter
    split <;> rfl
  | error e => exact (mapNext_stop _ e).symm

theorem store_unread {n : Width} {data base : Reg} {off : BitVec 4} (hr : r ∉ [base, data]) :
    store n data off base (s.setReg r v) = mapNext (changeAfter [] r v) (store n data off base s) := by
  refine readOperands_unread hr ?_
  rw [reg_setReg_unread hr (List.mem_cons_self ..), reg_setReg_unread hr (by simp), storeAt, storeAt, memWrite_setReg]
  cases memWrite s (effectiveAddress (s.reg base) off) n (s.reg data) with
  | ok u => rfl
  | error e => exact (mapNext_stop _ e).symm

end Unread

/-- An instruction that sets one register, its value and the pc's computed from what it reads. -/
theorem unread_of_setsReg {i : Instr} {d : Reg} {value target : State → Word} {r : Reg} (hr : r ∉ reads i)
    (hwrites : writes i = [d])
    (hexec : ∀ s, exec i s = readOperands (reads i) s (.next ((s.setReg d (value s)).setPc (target s))))
    {s : State} {v : Word} (hvalue : value (s.setReg r v) = value s) (htarget : target (s.setReg r v) = target s) :
    exec i (s.setReg r v) = mapNext (changeAfter (writes i) r v) (exec i s) := by
  rw [hexec, hexec, hwrites]
  refine readOperands_unread hr ?_
  rw [hvalue, htarget, setReg_changeAfter, mapNext, changeAfter_setPc]

/-- An instruction that only moves the pc, to what it computes from what it reads. -/
theorem unread_of_setsPc {i : Instr} {target : State → Word} {r : Reg} (hr : r ∉ reads i) (hwrites : writes i = [])
    (hexec : ∀ s, exec i s = readOperands (reads i) s (.next (s.setPc (target s))))
    {s : State} {v : Word} (htarget : target (s.setReg r v) = target s) :
    exec i (s.setReg r v) = mapNext (changeAfter (writes i) r v) (exec i s) := by
  rw [hexec, hexec, hwrites]
  refine readOperands_unread hr ?_
  rw [htarget]
  rfl

/-- Settles O15: the value, the address and the target of every instruction are functions of its read set. -/
theorem unreadRegistersDoNotMatter : Obligations.UnreadRegistersDoNotMatter := by
  intro i s r v hnoEcall hr
  have hreg : ∀ q ∈ reads i, (s.setReg r v).reg q = s.reg q := fun q hq => reg_setReg_unread hr hq
  cases i with
  | lb | lw | lbu => exact load_unread hr
  | sb | sw => exact store_unread hr
  | ecall => cases hnoEcall
  | li | lui | auipc | jal => exact unread_of_setsReg hr rfl (fun _ => rfl) rfl rfl
  | j => exact unread_of_setsPc hr rfl (fun _ => rfl) rfl
  | jr | beq | bne | bz | bnz | blt | bge | bltu | bgeu =>
    simp only [reads, List.forall_mem_cons] at hreg
    exact unread_of_setsPc hr rfl (fun _ => rfl) (by simp only [hreg, State.setReg_pc])
  | _ =>
    simp only [reads, List.forall_mem_cons] at hreg
    exact unread_of_setsReg hr rfl (fun _ => rfl) (by simp only [hreg, State.setReg_pc])
      (by simp only [hreg, State.setReg_pc])

end Sys2Proof.Proofs

/-! SUPPORT. The instructions whose result is a register or the pc: arithmetic, comparison and shifts (R100–R106,
R120–R125), branches (R140–R148), jumps (R111, R112, R181, R182) and AUIPC (R192). -/

namespace Sys2Proof.Proofs

open Sys2Proof.Machine Sys2Proof.Statements Sys2Proof.Laws

/-! The rules' encoding formulas as the formats (R61–R67). -/

theorem shiftWord_eq_encodeShift (ty : BitVec 3) (shamt : BitVec 4) (d : Reg) :
    shiftWord (ty ++ 0#7 ++ 0b011#3 ++ 0b001#3) shamt d = encodeShift ty shamt d := by
  apply BitVec.eq_of_getLsbD_eq
  intro i hi
  simp only [shiftWord, regAt, encodeShift, BitVec.getLsbD_or, BitVec.getLsbD_append, BitVec.getLsbD_shiftLeft,
    BitVec.getLsbD_setWidth]
  interval_cases i <;> simp

theorem bWord_eq_encodeB (f3 : BitVec 3) (off : BitVec 5) (b a : Reg) :
    bWord (0#10 ++ f3 ++ 0b010#3) off b a = encodeB off b a f3 := by
  apply BitVec.eq_of_getLsbD_eq
  intro i hi
  simp only [bWord, regAt, encodeB, BitVec.getLsbD_or, BitVec.getLsbD_and, BitVec.getLsbD_append,
    BitVec.getLsbD_shiftLeft, BitVec.getLsbD_ushiftRight, BitVec.getLsbD_setWidth, BitVec.getLsbD_extractLsb']
  interval_cases i <;> simp

theorem jWord_eq_encodeJ (link : BitVec 1) (off : BitVec 10) (d : Reg) :
    jWord (link ++ 0#12 ++ 0b101#3) off d = encodeJ link off d := by
  apply BitVec.eq_of_getLsbD_eq
  intro i hi
  simp only [jWord, regAt, encodeJ, BitVec.getLsbD_or, BitVec.getLsbD_append, BitVec.getLsbD_shiftLeft,
    BitVec.getLsbD_setWidth]
  interval_cases i <;> simp

/-- A word under a row's mask decodes to what the row builds from it, whatever its other bits (R80, R87). -/
theorem decode_of_key {w : Word} (n : Nat) {row : OpcodeRow} (hrow : opcodeTable[n]? = some row)
    (hkey : w &&& row.mask = row.pattern) : decode w = .ok (row.build w) :=
  decode_of_matches (List.mem_of_getElem? hrow) (by simp [OpcodeRow.matches, hkey])

/-! Values as numbers. -/

theorem toNat_conditionWord (c : Bool) : (conditionWord c).toNat = if c then 1 else 0 := by cases c <;> rfl

theorem toNat_setLessSigned (a b : Word) : (setLessSigned a b).toNat = if a.toInt < b.toInt then 1 else 0 := by
  simp [setLessSigned, toNat_conditionWord, lessSigned, BitVec.slt_eq_decide]

theorem toNat_setLessUnsigned (a b : Word) : (setLessUnsigned a b).toNat = if a.toNat < b.toNat then 1 else 0 := by
  simp [setLessUnsigned, toNat_conditionWord, lessUnsigned, BitVec.ult_eq_decide]

/-- The low four bits of a word are the word modulo 16 (R104). -/
theorem shiftAmount_eq (v : Word) : shiftAmount v = v.toNat % 16 :=
  Nat.and_two_pow_sub_one_eq_mod v.toNat 4

theorem toNat_shiftLeft (v : Word) (n : Nat) : (Machine.shiftLeft v n).toNat = v.toNat * 2 ^ n % 65536 := by
  rw [Machine.shiftLeft, BitVec.toNat_shiftLeft, Nat.shiftLeft_eq]

theorem toNat_shiftRightLogical (v : Word) (n : Nat) : (shiftRightLogical v n).toNat = v.toNat / 2 ^ n := by
  rw [shiftRightLogical, BitVec.toNat_ushiftRight, Nat.shiftRight_eq_div_pow]

/-- Copies of the sign entering from above make the floor of the signed quotient (R106). -/
theorem toInt_shiftRightArithmetic (v : Word) (n : Nat) : (shiftRightArithmetic v n).toInt = v.toInt / 2 ^ n := by
  rw [shiftRightArithmetic, BitVec.toInt_sshiftRight, Int.shiftRight_eq_div_pow]
  norm_num

theorem toNat_add_word (a b : Word) : (a + b).toNat = (a.toNat + b.toNat) % 65536 := BitVec.toNat_add a b

theorem toNat_sub_word (a b : Word) : ((a - b).toNat : Int) = ((a.toNat : Int) - b.toNat) % 65536 := by
  have := b.isLt
  rw [BitVec.toNat_sub]
  omega

/-- The sign-extended immediate, read as 0 to 65535. -/
theorem toNat_immI (imm : BitVec 7) : ((immI imm).toNat : Int) = imm.toInt % 65536 := by
  have h := add_signExtend_toNat 0#16 imm (by decide)
  rw [BitVec.zero_add] at h
  simpa [immI] using h

/-! Instructions that write one register. -/

/-- Settles O23. -/
theorem addAndSubAreModulo : Obligations.AddAndSubAreModulo := by
  intro d r s
  exact ⟨decode_of_eq_encode (rWord_eq_encodeR 0b0000#4 0b000#3 r d) rfl,
    writesRegister_of_exec rfl (toNat_add_word _ _),
    decode_of_eq_encode (rWord_eq_encodeR 0b0001#4 0b000#3 r d) rfl,
    writesRegister_of_exec rfl (toNat_sub_word _ _)⟩

/-- Settles O24. -/
theorem setLessThanComparesExactly : Obligations.SetLessThanComparesExactly := by
  intro d r s
  exact ⟨decode_of_eq_encode (rWord_eq_encodeR 0b0010#4 0b001#3 r d) rfl,
    writesRegister_of_exec rfl (toNat_setLessSigned _ _),
    decode_of_eq_encode (rWord_eq_encodeR 0b0011#4 0b010#3 r d) rfl,
    writesRegister_of_exec rfl (toNat_setLessUnsigned _ _)⟩

/-- Settles O25: the amount is the low four bits, and each shift is a product or quotient by its power of two. -/
theorem registerShiftsUseLowFourBits : Obligations.RegisterShiftsUseLowFourBits := by
  intro d r s
  rw [← shiftAmount_eq]
  exact ⟨decode_of_eq_encode (rWord_eq_encodeR 0b0100#4 0b011#3 r d) rfl,
    writesRegister_of_exec rfl (toNat_shiftLeft _ _),
    decode_of_eq_encode (rWord_eq_encodeR 0b0101#4 0b011#3 r d) rfl,
    writesRegister_of_exec rfl (toNat_shiftRightLogical _ _),
    decode_of_eq_encode (rWord_eq_encodeR 0b0110#4 0b011#3 r d) rfl,
    writesRegister_of_exec rfl (toInt_shiftRightArithmetic _ _)⟩

/-- Settles O30. -/
theorem addImmediateIsModulo : Obligations.AddImmediateIsModulo := by
  intro d imm s
  exact ⟨decode_of_eq_encode (iWord_eq_encodeI 0b000#3 imm d) rfl,
    writesRegister_of_exec rfl (add_signExtend_toNat _ imm (by decide))⟩

/-- Settles O31: the immediate keeps its signed value; read unsigned it is that value modulo 2^16. -/
theorem setLessThanImmediateSignExtends : Obligations.SetLessThanImmediateSignExtends := by
  intro d imm s
  refine ⟨decode_of_eq_encode (iWord_eq_encodeI 0b001#3 imm d) rfl, writesRegister_of_exec rfl ?signed,
    decode_of_eq_encode (iWord_eq_encodeI 0b010#3 imm d) rfl, writesRegister_of_exec rfl ?unsigned⟩
  case signed => rw [toNat_setLessSigned, toInt_immI]
  case unsigned =>
    rw [toNat_setLessUnsigned, ← toNat_immI]
    simp only [Nat.cast_lt]

/-- Settles O32. -/
theorem immediateShiftsByShamt : Obligations.ImmediateShiftsByShamt := by
  intro d sh s
  exact ⟨decode_of_eq_encode (shiftWord_eq_encodeShift 0b001#3 sh d) rfl,
    writesRegister_of_exec rfl (toNat_shiftLeft _ _),
    decode_of_eq_encode (shiftWord_eq_encodeShift 0b010#3 sh d) rfl,
    writesRegister_of_exec rfl (toNat_shiftRightLogical _ _),
    decode_of_eq_encode (shiftWord_eq_encodeShift 0b100#3 sh d) rfl,
    writesRegister_of_exec rfl (toInt_shiftRightArithmetic _ _)⟩

/-- Settles O47: AUIPC adds to the pc of its own state. -/
theorem addUpperImmediateToOwnAddress : Obligations.AddUpperImmediateToOwnAddress := by
  intro d imm9 s
  refine ⟨decode_of_eq_encode (uWord_eq_encodeU 0b1#1 imm9 d) rfl, writesRegister_of_exec rfl ?_⟩
  rw [toNat_add_word, toNat_immU]

/-! Instructions that move the pc. -/

/-- Moving the pc changes nothing else. -/
theorem onlyPc_setPc (s : State) (a : Word) : OnlyPc s (s.setPc a) :=
  ⟨fun _ _ => ⟨rfl, rfl⟩, fun _ => rfl, rfl, rfl, rfl, rfl⟩

theorem onlyReg_setReg_setPc (s : State) (d : Reg) (v a : Word) : OnlyReg d s ((s.setReg d v).setPc a) :=
  onlyReg_setReg_advance s d v

/-- A branch that reads what its condition rests on goes where the condition says (R140). -/
theorem branchesWhen_of_exec {i : Instr} {s : State} {c : Bool} {off : BitVec 5} {cond : Prop}
    (hexec : exec i s = branchIf (reads i) c off s) (hc : c = true ↔ cond) : BranchesWhen i s cond off := by
  intro hread
  refine ⟨s.setPc (if c then s.pc + branchOffset off else s.pc + 2#16), ?runs, fun h => ?taken, fun h => ?notTaken,
    onlyPc_setPc s _⟩
  case runs => rw [hexec, branchIf, readOperands_ok _ ((canRead_iff s _).mp hread)]
  case taken =>
    rw [State.setPc_pc, if_pos (hc.mpr h)]
    exact add_signExtend_toNat s.pc off (by decide)
  case notTaken =>
    apply nextInSequence_of_pc
    rw [State.setPc_pc, if_neg (mt hc.mp h)]

theorem lessSigned_iff (a b : Word) : lessSigned a b = true ↔ a.toInt < b.toInt := BitVec.slt_iff_toInt_lt

theorem lessUnsigned_iff (a b : Word) : lessUnsigned a b = true ↔ a.toNat < b.toNat := BitVec.ult_iff_lt

/-- Settles O35. -/
theorem branchEqualAndNotEqual : Obligations.BranchEqualAndNotEqual := by
  intro a b off s
  exact ⟨fun h => ⟨decode_of_eq_encode (bWord_eq_encodeB 0b000#3 off b a) h,
      decode_of_eq_encode (bWord_eq_encodeB 0b001#3 off b a) h⟩,
    branchesWhen_of_exec rfl beq_iff_eq, branchesWhen_of_exec rfl bne_iff_ne⟩

/-- The row of BZ or BNZ looks at no bit of the rs2 field (R87). -/
theorem decode_zeroBranch (off : BitVec 5) (k a : Reg) (h : evenBranchOffset off = true) :
    decode (bWord 0x0012#16 off k a) = .ok (.bz a off) ∧ decode (bWord 0x001A#16 off k a) = .ok (.bnz a off) := by
  have hbz : bWord 0x0012#16 off k a = encodeB off k a 0b010#3 := bWord_eq_encodeB 0b010#3 off k a
  have hbnz : bWord 0x001A#16 off k a = encodeB off k a 0b011#3 := bWord_eq_encodeB 0b011#3 off k a
  rw [hbz, hbnz, decode_of_key 25 rfl (key_encodeB off k a 0b010#3), decode_of_key 26 rfl (key_encodeB off k a 0b011#3)]
  simp only [fieldRd_encodeB, fieldBranchOffset_encodeB _ _ _ _ h, and_self]

/-- Settles O36. -/
theorem branchZeroIgnoresSecondField : Obligations.BranchZeroIgnoresSecondField := by
  intro a k off s
  have hzero : s.reg a = 0#16 ↔ (s.reg a).toNat = 0 := BitVec.toNat_eq
  exact ⟨decode_zeroBranch off k a, branchesWhen_of_exec rfl (beq_iff_eq.trans hzero),
    branchesWhen_of_exec rfl (bne_iff_ne.trans hzero.not)⟩

/-- Settles O37. -/
theorem branchSignedOrder : Obligations.BranchSignedOrder := by
  intro a b off s
  refine ⟨fun h => ⟨decode_of_eq_encode (bWord_eq_encodeB 0b100#3 off b a) h,
      decode_of_eq_encode (bWord_eq_encodeB 0b101#3 off b a) h⟩,
    branchesWhen_of_exec rfl (lessSigned_iff _ _), branchesWhen_of_exec rfl ?_⟩
  rw [Bool.not_eq_true', ← Bool.not_eq_true, lessSigned_iff, not_lt]

/-- Settles O38. -/
theorem branchUnsignedOrder : Obligations.BranchUnsignedOrder := by
  intro a b off s
  refine ⟨fun h => ⟨decode_of_eq_encode (bWord_eq_encodeB 0b110#3 off b a) h,
      decode_of_eq_encode (bWord_eq_encodeB 0b111#3 off b a) h⟩,
    branchesWhen_of_exec rfl (lessUnsigned_iff _ _), branchesWhen_of_exec rfl ?_⟩
  rw [Bool.not_eq_true', ← Bool.not_eq_true, lessUnsigned_iff, not_lt]

/-- The next fetch checks the pc that a register jump left (R243, R246). -/
theorem targetCheckedByNextFetch_pc {s t : State} (hrun : t.runState = s.runState) :
    TargetCheckedByNextFetch s t t.pc := by
  intro hr
  have hr' := hrun.trans hr
  exact ⟨fun hodd => step_of_fetch_error hr' (fetch_odd hodd),
    fun heven hm => step_of_fetch_error hr' (fetch_mmio heven hm)⟩

/-- The row of JR looks at no bit of the rs2 field (R87). -/
theorem decode_jrWord (k d : Reg) : decode (rWord 0xB000#16 k d) = .ok (.jr d) := by
  have hw : rWord 0xB000#16 k d = encodeR 0b1011#4 k d 0b000#3 := rWord_eq_encodeR 0b1011#4 0b000#3 k d
  rw [hw, decode_of_key 11 rfl (key_encodeR 0b1011#4 k d 0b000#3)]
  simp only [fieldRd_encodeR]

/-- Settles O28. -/
theorem jumpRegisterCopiesAllBits : Obligations.JumpRegisterCopiesAllBits := by
  intro d k s
  refine ⟨decode_jrWord k d, fun hread => ⟨s.setPc (s.reg d), ?runs, rfl, onlyPc_setPc s _,
    targetCheckedByNextFetch_pc (t := s.setPc (s.reg d)) rfl⟩⟩
  case runs => exact readOperands_ok _ ((canRead_iff s _).mp hread)

/-- Settles O29: the target is read in the state before the link is written. -/
theorem jumpAndLinkRegisterReadsTargetFirst : Obligations.JumpAndLinkRegisterReadsTargetFirst := by
  intro d r s
  refine ⟨decode_of_eq_encode (rWord_eq_encodeR 0b1100#4 0b000#3 r d) rfl, fun hread =>
    ⟨(s.setReg d (s.pc + 2#16)).setPc (s.reg r), ?runs, rfl, ?link, by simp, onlyReg_setReg_setPc s d _ _,
      targetCheckedByNextFetch_pc (t := (s.setReg d (s.pc + 2#16)).setPc (s.reg r)) rfl⟩⟩
  case runs => exact readOperands_ok _ ((canRead_iff s _).mp hread)
  case link => rw [State.setPc_reg, State.setReg_reg_same, toNat_add_word]; rfl

/-- The row of J looks at no bit of the rd field (R87). -/
theorem decode_jWord (off : BitVec 10) (k : Reg) (h : evenJumpOffset off = true) :
    decode (jWord 0x0005#16 off k) = .ok (.j off) := by
  have hw : jWord 0x0005#16 off k = encodeJ 0b0#1 off k := jWord_eq_encodeJ 0b0#1 off k
  rw [hw, decode_of_key 36 rfl (key_encodeJ 0b0#1 off k)]
  simp only [fieldJumpOffset_encodeJ _ _ _ h]

/-- Settles O44. -/
theorem jumpIsRelativeAndWritesNoRegister : Obligations.JumpIsRelativeAndWritesNoRegister := by
  intro off k s
  exact ⟨decode_jWord off k, s.setPc (s.pc + jumpOffset off), rfl, add_signExtend_toNat s.pc off (by decide),
    onlyPc_setPc s _⟩

/-- Settles O45. -/
theorem jumpAndLinkUsesItsOwnAddress : Obligations.JumpAndLinkUsesItsOwnAddress := by
  intro off d s
  refine ⟨fun h => decode_of_eq_encode (jWord_eq_encodeJ 0b1#1 off d) h,
    (s.setReg d (s.pc + 2#16)).setPc (s.pc + jumpOffset off), rfl, add_signExtend_toNat s.pc off (by decide), ?link,
    by simp, onlyReg_setReg_setPc s d _ _⟩
  case link => rw [State.setPc_reg, State.setReg_reg_same, toNat_add_word]; rfl

/-- Settles O21: the offset 0 from the jump's own address. -/
theorem selfLoopLeavesStateUnchanged : Obligations.SelfLoopLeavesStateUnchanged := by
  intro s
  refine ⟨by decide, ?_⟩
  have hpc : s.pc + jumpOffset 0#10 = s.pc := BitVec.add_zero s.pc
  rw [exec, execJ, hpc]
  rfl

/-! NOP (R225, R226). -/

theorem canRead_single_iff (s : State) (r : Reg) : CanRead s [r] ↔ s.readable r = true := by
  rw [canRead_iff, List.forall_mem_singleton]

/-- NOP writes back to x0 what x0 holds. -/
theorem nop_value (s : State) : s.reg .x0 ||| immI 0#7 = s.reg .x0 := BitVec.or_zero

/-- Where x0 may not be read, NOP's operand read faults (R247). -/
theorem exec_nop_fault {s : State} (h : ¬ CanRead s [.x0]) :
    exec (.ori .x0 0#7) s = .fault (.undefinedRegisterRead s.pc .x0) := by
  have hread : s.readable .x0 = false := by simpa [canRead_single_iff] using h
  obtain ⟨hundef, hunwritten⟩ := (not_readable_iff s .x0).mp hread
  exact (faultsOfDecodedInstructionsAreExact _ _ _).mpr
    (.inl ⟨.x0, ⟨hundef, [], [], rfl, by simp, hunwritten⟩, rfl⟩)

/-- Settles O22. -/
theorem nopOnlyAdvancesPc : Obligations.NopOnlyAdvancesPc := by
  intro s
  refine ⟨rfl, rfl, by decide, fun hread => ⟨(s.setReg .x0 (s.reg .x0)).advance, ?runs,
    nextInSequence_setReg_advance s .x0 _, by simp, onlyReg_setReg_advance s .x0 _, ?state, fun hw => ?same⟩,
    exec_nop_fault⟩
  case runs =>
    rw [exec_ori, nop_value]
    exact readOperands_ok _ ((canRead_iff s _).mp hread)
  case state =>
    rw [State.setReg, State.reg, RegFile.set_get_self]
    rfl
  case same =>
    rw [State.setReg_reg_self hw]
    rfl

end Sys2Proof.Proofs

/-! SUPPORT. Loads and stores (R160–R173) in storage, on ROM and at the device, and what byte and word accesses to one
word see of each other (R32, R51). -/

namespace Sys2Proof.Proofs

open Sys2Proof.Machine Sys2Proof.Statements Sys2Proof.Laws

/-! The rules' encoding formulas as the S and L formats (R64, R65). -/

theorem memWord_eq_encodeS (f3 : BitVec 3) (off : BitVec 4) (x y : Reg) :
    memWord (0#10 ++ f3 ++ 0b011#3) off x y = encodeS off x y f3 := by
  apply BitVec.eq_of_getLsbD_eq
  intro i hi
  simp only [memWord, regAt, encodeS, BitVec.getLsbD_or, BitVec.getLsbD_append, BitVec.getLsbD_shiftLeft,
    BitVec.getLsbD_setWidth]
  interval_cases i <;> simp

theorem memWord_eq_encodeL (f3 : BitVec 3) (off : BitVec 4) (x y : Reg) :
    memWord (0#10 ++ f3 ++ 0b100#3) off x y = encodeL off x y f3 := by
  apply BitVec.eq_of_getLsbD_eq
  intro i hi
  simp only [memWord, regAt, encodeL, BitVec.getLsbD_or, BitVec.getLsbD_append, BitVec.getLsbD_shiftLeft,
    BitVec.getLsbD_setWidth]
  interval_cases i <;> simp

/-- The effective address is the formula of R46. -/
theorem addressFormula (s : State) (base : Reg) (off : BitVec 4) :
    AddressFormula s base off (effectiveAddress (s.reg base) off) :=
  add_signExtend_toNat (s.reg base) off (by decide)

/-! Bytes as parts of words. -/

theorem lowByte_setWidth (b : Byte) : lowByte (b.setWidth 16) = b := by
  apply BitVec.eq_of_toNat_eq
  have := b.isLt
  rw [lowByte_toNat, BitVec.toNat_setWidth]
  omega

theorem lowByte_eq_setWidth (w : Word) : lowByte w = w.setWidth 8 := by
  apply BitVec.eq_of_toNat_eq
  rw [lowByte_toNat, BitVec.toNat_setWidth]

theorem toInt_signExtendByte (w : Word) : (signExtendByte w).toInt = (lowByte w).toInt :=
  BitVec.toInt_signExtend_of_le (by decide)

theorem toNat_zeroExtendByte (w : Word) : (zeroExtendByte w).toNat = w.toNat % 256 := by
  rw [zeroExtendByte, BitVec.toNat_setWidth_of_le (by decide), lowByte_toNat]

theorem lowByte_zeroExtendByte (w : Word) : lowByte (zeroExtendByte w) = lowByte w := lowByte_setWidth (lowByte w)

/-! Stores to storage (R37). -/

/-- The two bytes of a stored word. -/
theorem readByte_storeWord {s : State} {a v : Word} (h2 : a.toNat % 2 = 0) :
    (s.storeBytes a v .word).mem.readByte a.toNat = lowByte v ∧
    (s.storeBytes a v .word).mem.readByte (a.toNat + 1) = highByte v ∧
    ∀ b : Nat, b ≠ a.toNat → b ≠ a.toNat + 1 → (s.storeBytes a v .word).mem.readByte b = s.mem.readByte b := by
  have h1 := toNat_add_one h2
  simp only [State.storeBytes, State.setMem_mem, h1]
  refine ⟨?_, Memory.readByte_write_same _ _ _, fun b hb hb' => ?_⟩
  · rw [Memory.readByte_write_other _ _ (by omega), Memory.readByte_write_same]
  · rw [Memory.readByte_write_other _ _ hb', Memory.readByte_write_other _ _ hb]

theorem readByte_storeByte (s : State) (a v : Word) :
    (s.storeBytes a v .byte).mem.readByte a.toNat = lowByte v ∧
    ∀ b : Nat, b ≠ a.toNat → (s.storeBytes a v .byte).mem.readByte b = s.mem.readByte b :=
  ⟨Memory.readByte_write_same _ _ _, fun _ hb => Memory.readByte_write_other _ _ hb⟩

/-- A store whose operands may be read is its memory write. -/
theorem store_eq_storeAt {n : Width} {data base : Reg} {off : BitVec 4} {s : State} (hread : CanRead s [base, data]) :
    store n data off base s = storeAt n (s.reg data) (effectiveAddress (s.reg base) off) s :=
  readOperands_ok _ ((canRead_iff s _).mp hread)

theorem storeAt_storage {n : Width} {v a : Word} {s : State} (hal : misaligned a n = false)
    (hm : a.toNat < 0xF000) (hrom : s.storeHitsRom a n = false) :
    storeAt n v a s = .next (s.storeBytes a v n).advance := by
  simp [storeAt, memWrite, hal, (not_inMmio_iff a).mpr hm, hrom]

/-- A store to storage leaves the registers, the marks and the world, and the next instruction follows. -/
theorem storeBytes_frame (s : State) (a v : Word) (n : Width) :
    SameRegsBut [] s (s.storeBytes a v n).advance ∧ SameWorld s (s.storeBytes a v n).advance ∧
    NextInSequence s (s.storeBytes a v n).advance := by
  refine ⟨fun r _ => ?_, ?_, nextInSequence_of_pc ?_⟩ <;> simp [SameWorld]

theorem storeHitsRom_byte {s : State} {a : Word} (h : ¬ InRom s.platform a) : s.storeHitsRom a .byte = false := by
  rw [← Bool.not_eq_true, storeHitsRom_iff]
  simpa using h

theorem storeHitsRom_word {s : State} {a : Word} (h : ¬ InRom s.platform a) (h' : ¬ InRom s.platform (a + 1#16)) :
    s.storeHitsRom a .word = false := by
  rw [← Bool.not_eq_true, storeHitsRom_iff]
  simpa using ⟨h, h'⟩

/-- SB to a writable storage byte. -/
theorem sb_completes {t a : Reg} {off : BitVec 4} {s : State} {ea : Word} (hea : ea = effectiveAddress (s.reg a) off)
    (hread : CanRead s [a, t]) (hm : ea.toNat < 0xF000) (hrom : ¬ InRom s.platform ea) :
    Completes (.sb t off a) s (fun u =>
      byteValue u ea.toNat = (s.reg t).toNat % 256 ∧
      (∀ b : Nat, b ≠ ea.toNat → u.mem.readByte b = s.mem.readByte b) ∧
      SameRegsBut [] s u ∧ SameWorld s u ∧ NextInSequence s u) := by
  obtain ⟨hbyte, hother⟩ := readByte_storeByte s ea (s.reg t)
  refine ⟨(s.storeBytes ea (s.reg t) .byte).advance, ?runs, ?byte, hother, storeBytes_frame s _ _ _⟩
  case runs => exact (store_eq_storeAt hread).trans (hea ▸ storeAt_storage rfl hm (storeHitsRom_byte hrom))
  case byte => rw [byteValue, State.advance_mem, hbyte, lowByte_toNat]

/-- SW to a writable even storage address. -/
theorem sw_completes {t a : Reg} {off : BitVec 4} {s : State} {ea : Word} (hea : ea = effectiveAddress (s.reg a) off)
    (hread : CanRead s [a, t]) (h2 : ea.toNat % 2 = 0) (hm : ea.toNat < 0xF000) (hrom : ¬ InRom s.platform ea)
    (hrom' : ¬ InRom s.platform (ea + 1#16)) :
    Completes (.sw t off a) s (fun u =>
      byteValue u ea.toNat = (s.reg t).toNat % 256 ∧ byteValue u (ea.toNat + 1) = (s.reg t).toNat / 256 ∧
      (∀ b : Nat, b ≠ ea.toNat → b ≠ ea.toNat + 1 → u.mem.readByte b = s.mem.readByte b) ∧
      SameRegsBut [] s u ∧ SameWorld s u ∧ NextInSequence s u) := by
  obtain ⟨hlow, hhigh, hother⟩ := readByte_storeWord (s := s) (v := s.reg t) h2
  refine ⟨(s.storeBytes ea (s.reg t) .word).advance, ?runs, ?low, ?high, hother, storeBytes_frame s _ _ _⟩
  case runs =>
    exact (store_eq_storeAt hread).trans
      (hea ▸ storeAt_storage ((aligned_word_iff ea).mpr h2) hm (storeHitsRom_word hrom hrom'))
  case low => rw [byteValue, State.advance_mem, hlow, lowByte_toNat]
  case high => rw [byteValue, State.advance_mem, hhigh, highByte_toNat]

/-! The device (R44). -/

theorem deviceMay_iff (s : State) (e : Effect DeviceTarget DeviceRegion) : s.deviceMay e = true ↔ DeviceMay s e := by
  cases e with
  | set t v => simp [State.deviceMay, DeviceMay]
  | store r a v =>
    cases r with
    | register => simp [State.deviceMay, DeviceMay]
    | storage => exact storable_iff s a
  | asked => simp [State.deviceMay, DeviceMay]

theorem all_deviceMay_iff (s : State) (es : List (Effect DeviceTarget DeviceRegion)) :
    es.all s.deviceMay = true ↔ ∀ e ∈ es, DeviceMay s e := by
  simp only [List.all_eq_true, deviceMay_iff]

theorem not_all_deviceMay_iff (s : State) (es : List (Effect DeviceTarget DeviceRegion)) :
    es.all s.deviceMay = false ↔ ∃ e ∈ es, ¬ DeviceMay s e := by
  rw [← Bool.not_eq_true, all_deviceMay_iff]
  push Not
  rfl

/-- Effects that store nothing to a byte leave it. -/
theorem deviceEffects_byte_other {es : List (Effect DeviceTarget DeviceRegion)} {b : Nat}
    (h : ∀ a x, Effect.store .storage a x ∈ es → a.toNat ≠ b) (s : State) :
    (es.foldl applyDeviceEffect s).mem.readByte b = s.mem.readByte b := by
  refine foldl_keeps (P := fun u => u.mem.readByte b = s.mem.readByte b) (fun e he u hu => ?_) s rfl
  rcases e with ⟨_, _⟩ | ⟨_ | _, a, x⟩ | _
  · exact hu
  · exact hu
  · exact (Memory.readByte_write_other _ _ (h a x he).symm).trans hu
  · exact hu

/-- Effects that store nothing to a register of the device leave it. -/
theorem deviceEffects_register_other {es : List (Effect DeviceTarget DeviceRegion)} {i : Word}
    (h : ∀ x, Effect.store .register i x ∉ es) (s : State) :
    readDeviceReg (es.foldl applyDeviceEffect s).deviceRegs i = readDeviceReg s.deviceRegs i := by
  refine foldl_keeps (P := fun u => readDeviceReg u.deviceRegs i = readDeviceReg s.deviceRegs i)
    (fun e he u hu => ?_) s rfl
  rcases e with ⟨_, _⟩ | ⟨_ | _, j, x⟩ | _
  · exact hu
  · have hne : i ≠ j := fun e => h x (e ▸ he)
    exact (readDeviceReg_write_other _ _ hne).trans hu
  · exact hu
  · exact hu

/-- The effects one after the other: the last store to a place stands, and every other place is as before. -/
theorem deviceEffectsDone_foldl (es : List (Effect DeviceTarget DeviceRegion)) (s : State) :
    DeviceEffectsDone es s (es.foldl applyDeviceEffect s) := by
  refine ⟨fun b h => deviceEffects_byte_other h s, ?lastByte, fun i h => deviceEffects_register_other h s, ?lastReg⟩
  case lastByte =>
    rintro a x pre post rfl hpost
    have hother : ∀ c y, Effect.store .storage c y ∈ post → c.toNat ≠ a.toNat :=
      fun c y hc e => hpost y (BitVec.eq_of_toNat_eq e ▸ hc)
    rw [List.foldl_append, List.foldl_cons, deviceEffects_byte_other hother, applyDeviceEffect,
      (readByte_storeByte _ a x).1, lowByte_toNat]
  case lastReg =>
    rintro i x pre post rfl hpost
    rw [List.foldl_append, List.foldl_cons, deviceEffects_register_other hpost, applyDeviceEffect,
      State.setDeviceRegs_deviceRegs, readDeviceReg_write_same]

/-- An access of the device keeps what an access keeps; the instruction then goes on. -/
theorem accessFrame_of_accessed {s u : State} {e : Event} (h : Accessed s e u) : AccessFrame [] s u.advance := by
  obtain ⟨hregs, hwritten, hpc, _, hrun, hplatform⟩ := h.core
  exact ⟨sameRegsBut_of_core hregs hwritten, hrun, hplatform,
    nextInSequence_of_pc (by rw [State.advance_pc, hpc])⟩

theorem accessFrame_of_accessed_setReg {s u : State} {e : Event} (h : Accessed s e u) (d : Reg) (v : Word) :
    AccessFrame [d] s (u.setReg d v).advance := by
  obtain ⟨hregs, hwritten, hpc, _, hrun, hplatform⟩ := h.core
  exact ⟨sameRegsBut_setReg d v (sameRegsBut_of_core hregs hwritten), hrun, hplatform,
    nextInSequence_of_pc (by rw [State.advance_pc, State.setReg_pc, hpc])⟩

section DeviceAccess

variable {s : State} {a : Word} {n : Width}

theorem runDevice_ok {p : Program DeviceSource DeviceTarget DeviceRegion} {v : Word}
    {es : List (Effect DeviceTarget DeviceRegion)} (heff : p.effects (deviceEnv s a n v) = .ok es)
    (hmay : ∀ e ∈ es, DeviceMay s e) : runDevice p s a n v = .ok (es, es.foldl applyDeviceEffect s) := by
  simp only [runDevice, heff, if_pos ((all_deviceMay_iff s es).mpr hmay)]

theorem runDevice_refused {p : Program DeviceSource DeviceTarget DeviceRegion} {v : Word}
    (h : ∀ es, p.effects (deviceEnv s a n v) = .ok es → ∃ e ∈ es, ¬ DeviceMay s e) :
    runDevice p s a n v = .error (.refusal (.deviceRefused a)) := by
  rcases runDevice_cases (p := p) (s := s) (addr := a) (n := n) (v := v) rfl with ⟨es, heff, hall, _⟩ | ⟨_, e⟩
  · rw [(not_all_deviceMay_iff s es).mpr (h es heff)] at hall
    cases hall
  · exact e

theorem storeAt_of_ok {x : Word} {u : State} (h : memWrite s a n x = .ok u) : storeAt n x a s = .next u.advance := by
  rw [storeAt, h]

theorem storeAt_of_error {x : Word} {e : Stop} (h : memWrite s a n x = .error e) : storeAt n x a s = stop e := by
  rw [storeAt, h]

theorem loadAt_of_ok {extend : Word → Word} {d : Reg} {x : Word} {u : State} (h : memRead s a n = .ok (x, u)) :
    loadAt n extend d a s = .next (u.setReg d (extend x)).advance := by
  rw [loadAt, h]

theorem loadAt_of_error {extend : Word → Word} {d : Reg} {e : Stop} (h : memRead s a n = .error e) :
    loadAt n extend d a s = stop e := by
  rw [loadAt, h]

/-- What a store that reaches the device does (R37, R44). -/
theorem deviceStored_of_exec {i : Instr} {x : Word} {v : Nat} (hexec : exec i s = storeAt n x a s)
    (hal : misaligned a n = false) (hm : 0xF000 ≤ a.toNat) (hv : (lowBits n x).toNat = v) :
    DeviceStored i s a n v := by
  intro w hw
  obtain rfl : w = lowBits n x := BitVec.eq_of_toNat_eq (hw.trans hv.symm)
  have hwrite : memWrite s a n x = deviceWrite s a n (lowBits n x) := by
    simp [memWrite, hal, (inMmio_iff a).mpr hm]
  refine ⟨fun hd => ?none, fun d hd => ⟨fun es heff hmay => ?done, fun h => ?refused⟩⟩
  case none =>
    have hok : memWrite s a n x = .ok (s.emit (.mmioWrite a n (lowBits n x))) := by simp [hwrite, deviceWrite, hd]
    have hacc : Accessed s (.mmioWrite a n (lowBits n x)) _ := ⟨[], rfl, fun _ => rfl, rfl⟩
    exact ⟨_, hexec.trans (storeAt_of_ok hok), rfl, fun _ => rfl, rfl, accessFrame_of_accessed hacc⟩
  case done =>
    have hok : memWrite s a n x =
        .ok ((es.foldl applyDeviceEffect s).emit (.mmioWrite a n (lowBits n x))) := by
      simp [hwrite, deviceWrite, hd, runDevice_ok heff hmay]
    have hacc : Accessed s (.mmioWrite a n (lowBits n x)) _ :=
      ⟨es, (all_deviceMay_iff s es).mpr hmay, fun hnone => (nomatch hd.symm.trans hnone), rfl⟩
    obtain ⟨_, _, _, htrace, _⟩ := hacc.core
    exact ⟨_, hexec.trans (storeAt_of_ok hok), htrace, deviceEffectsDone_foldl es s, accessFrame_of_accessed hacc⟩
  case refused =>
    have herr : memWrite s a n x = .error (.refusal (.deviceRefused a)) := by
      simp [hwrite, deviceWrite, hd, runDevice_refused h]
    exact hexec.trans (storeAt_of_error herr)

/-- The answer of a device model is its last one, or the free value (R44). -/
theorem answerIs_answerOf (es : List (Effect DeviceTarget DeviceRegion)) (free : Word) :
    AnswerIs es free (answerOf free es) := by
  have hnone {l : List (Effect DeviceTarget DeviceRegion)} (h : ∀ y, Effect.set .answer y ∉ l) :
      l.filterMap answerIn = [] := by
    rw [List.filterMap_eq_nil_iff]
    rintro (⟨⟨⟩, y⟩ | _ | _) he
    · exact absurd he (h y)
    · rfl
    · rfl
  constructor
  · rintro y pre post rfl hpost
    simp [answerOf, List.filterMap_append, answerIn, hnone hpost]
  · intro h
    simp [answerOf, hnone h]

/-- What a load that reaches the device does (R36, R44). -/
theorem deviceLoaded_of_exec {i : Instr} {extend : Word → Word} {d : Reg} {P : Word → Word → Prop}
    (hexec : exec i s = loadAt n extend d a s) (hal : misaligned a n = false) (hm : 0xF000 ≤ a.toNat)
    (hP : ∀ x, P x (extend (lowBits n x))) : DeviceLoaded i s d a n P := by
  have hread : memRead s a n = deviceRead s a n := by simp [memRead, hal, (inMmio_iff a).mpr hm]
  refine ⟨fun hd => ?none, fun dev hd => ⟨fun es heff hmay => ?done, fun h => ?refused⟩⟩
  case none =>
    have hok : memRead s a n =
        .ok (lowBits n (Config.mmioRead s.trace a n), s.emit (.mmioRead a n)) := by simp [hread, deviceRead, hd]
    have hacc : Accessed s (.mmioRead a n) _ := ⟨[], rfl, fun _ => rfl, rfl⟩
    refine ⟨_, hexec.trans (loadAt_of_ok hok), ?_, rfl, fun _ => rfl, rfl, accessFrame_of_accessed_setReg hacc d _⟩
    simpa using hP _
  case done =>
    have hok : memRead s a n = .ok (lowBits n (answerOf (Config.mmioRead s.trace a n) es),
        (es.foldl applyDeviceEffect s).emit (.mmioRead a n)) := by
      simp [hread, deviceRead, hd, runDevice_ok heff hmay]
    have hacc : Accessed s (.mmioRead a n) _ :=
      ⟨es, (all_deviceMay_iff s es).mpr hmay, fun hnone => (nomatch hd.symm.trans hnone), rfl⟩
    obtain ⟨_, _, _, htrace, _⟩ := hacc.core
    refine ⟨_, hexec.trans (loadAt_of_ok hok), ⟨_, answerIs_answerOf es _, ?_⟩, htrace, deviceEffectsDone_foldl es s,
      accessFrame_of_accessed_setReg hacc d _⟩
    simpa using hP _
  case refused =>
    have herr : memRead s a n = .error (.refusal (.deviceRefused a)) := by
      simp [hread, deviceRead, hd, runDevice_refused h]
    exact hexec.trans (loadAt_of_error herr)

end DeviceAccess

/-! The stores (R161, R162). -/

/-- Settles O39. -/
theorem storeByteWritesOneByte : Obligations.StoreByteWritesOneByte := by
  intro t a off s ea
  refine ⟨decode_of_eq_encode (memWord_eq_encodeS 0b000#3 off t a) rfl, addressFormula s a off, sb_completes rfl,
    fun hread hm hrom => ?rom, fun hread hm => ?device⟩
  case rom =>
    refine (store_eq_storeAt hread).trans (storeAt_fault_iff.mpr (.inr ⟨rfl, (not_inMmio_iff ea).mpr hm, ?_, rfl⟩))
    exact (storeHitsRom_iff s ea .byte).mpr (.inl hrom)
  case device => exact deviceStored_of_exec (store_eq_storeAt hread) rfl hm (toNat_zeroExtendByte _)

/-- Settles O40. -/
theorem storeWordIsLittleEndianAndAligned : Obligations.StoreWordIsLittleEndianAndAligned := by
  intro t a off s ea
  refine ⟨decode_of_eq_encode (memWord_eq_encodeS 0b001#3 off t a) rfl, addressFormula s a off,
    fun hread hodd => ?odd, sw_completes rfl, fun hread h2 hm hrom => ?rom, fun hread h2 hm => ?device⟩
  case odd =>
    exact (store_eq_storeAt hread).trans (storeAt_fault_iff.mpr (.inl ⟨(misaligned_word_iff ea).mpr hodd, rfl⟩))
  case rom =>
    refine (store_eq_storeAt hread).trans (storeAt_fault_iff.mpr
      (.inr ⟨(aligned_word_iff ea).mpr h2, (not_inMmio_iff ea).mpr hm, ?_, rfl⟩))
    exact (storeHitsRom_iff s ea .word).mpr (hrom.imp_right fun h => ⟨rfl, h⟩)
  case device => exact deviceStored_of_exec (store_eq_storeAt hread) ((aligned_word_iff ea).mpr h2) hm rfl

/-! The loads (R171–R173). -/

/-- A load whose base may be read is its memory read. -/
theorem load_eq_loadAt {n : Width} {extend : Word → Word} {d base : Reg} {off : BitVec 4} {s : State}
    (hread : CanRead s [base]) :
    load n extend d off base s = loadAt n extend d (effectiveAddress (s.reg base) off) s :=
  readOperands_ok _ ((canRead_iff s _).mp hread)

/-- A byte load from storage is a register write. -/
theorem loadAt_byte_storage {extend : Word → Word} {d : Reg} {a : Word} {s : State} (hm : a.toNat < 0xF000) :
    loadAt .byte extend d a s = writeReg d (extend ((s.byteAt a).setWidth 16)) s :=
  loadAt_of_ok (by simp [memRead, misaligned, (not_inMmio_iff a).mpr hm])

/-- A word load from storage is a register write. -/
theorem loadAt_word_storage {extend : Word → Word} {d : Reg} {a : Word} {s : State} (h2 : a.toNat % 2 = 0)
    (hm : a.toNat < 0xF000) : loadAt .word extend d a s = writeReg d (extend (s.wordAt a)) s :=
  loadAt_of_ok (by simp [memRead, (aligned_word_iff a).mpr h2, (not_inMmio_iff a).mpr hm])

/-- Settles O41. -/
theorem loadByteSignExtends : Obligations.LoadByteSignExtends := by
  intro d a off s ea
  refine ⟨decode_of_eq_encode (memWord_eq_encodeL 0b000#3 off a d) rfl, addressFormula s a off, fun hm => ?storage,
    fun hread hm => deviceLoaded_of_exec (load_eq_loadAt hread) rfl hm fun x => ?device⟩
  case storage =>
    refine writesRegister_of_exec (congrArg (readOperands [a] s) (loadAt_byte_storage hm)) ?_
    rw [toInt_signExtendByte, lowByte_setWidth]
    rfl
  case device => rw [lowBits, toInt_signExtendByte, lowByte_zeroExtendByte, lowByte_eq_setWidth]

/-- Settles O43. -/
theorem loadByteZeroExtends : Obligations.LoadByteZeroExtends := by
  intro d a off s ea
  refine ⟨decode_of_eq_encode (memWord_eq_encodeL 0b100#3 off a d) rfl, addressFormula s a off, fun hm => ?storage,
    fun hread hm => deviceLoaded_of_exec (load_eq_loadAt hread) rfl hm fun x => ?device⟩
  case storage =>
    refine writesRegister_of_exec (congrArg (readOperands [a] s) (loadAt_byte_storage hm)) ?_
    rw [zeroExtendByte, lowByte_setWidth, BitVec.toNat_setWidth_of_le (by decide)]
    rfl
  case device => rw [lowBits, toNat_zeroExtendByte, toNat_zeroExtendByte, Nat.mod_mod]

/-- Settles O42. -/
theorem loadWordIsLittleEndianAndAligned : Obligations.LoadWordIsLittleEndianAndAligned := by
  intro d a off s ea
  refine ⟨decode_of_eq_encode (memWord_eq_encodeL 0b001#3 off a d) rfl, addressFormula s a off,
    fun hread hodd => ?odd, fun h2 hm => ?storage, fun hread h2 hm =>
      deviceLoaded_of_exec (load_eq_loadAt hread) ((aligned_word_iff ea).mpr h2) hm fun x => rfl⟩
  case odd => exact (load_eq_loadAt hread).trans (loadAt_fault_iff.mpr ⟨(misaligned_word_iff ea).mpr hodd, rfl⟩)
  case storage =>
    exact writesRegister_of_exec (congrArg (readOperands [a] s) (loadAt_word_storage h2 hm)) (s.wordAt_toNat h2)

end Sys2Proof.Proofs

/-! SUPPORT. Instructions one after another: how frames compose, what a store leaves for a load and a fetch (R32,
R51), the assembler's ranges (R212) and the pseudo-instructions (R213–R226). -/

namespace Sys2Proof.Proofs

open Sys2Proof.Machine Sys2Proof.Statements Sys2Proof.Laws

/-! Sequences. -/

theorem completes_mono {i : Instr} {s : State} {P Q : State → Prop} (h : Completes i s P) (hPQ : ∀ t, P t → Q t) :
    Completes i s Q := by
  obtain ⟨t, hexec, ht⟩ := h
  exact ⟨t, hexec, hPQ t ht⟩

theorem allComplete_cons {i : Instr} {is : List Instr} {s : State} {P Q : State → Prop} (h : Completes i s P)
    (hrest : ∀ t, P t → AllComplete is t Q) : AllComplete (i :: is) s Q := by
  obtain ⟨t, hexec, ht⟩ := h
  obtain ⟨u, hall, hu⟩ := hrest t ht
  exact ⟨u, by rw [execAll, hexec]; exact hall, hu⟩

theorem allComplete_mono {is : List Instr} {s : State} {P Q : State → Prop} (h : AllComplete is s P)
    (hPQ : ∀ t, P t → Q t) : AllComplete is s Q := by
  obtain ⟨t, hexec, ht⟩ := h
  exact ⟨t, hexec, hPQ t ht⟩

theorem allComplete_single {i : Instr} {s : State} {P : State → Prop} (h : Completes i s P) : AllComplete [i] s P :=
  allComplete_cons h fun t ht => ⟨t, rfl, ht⟩

theorem allComplete_append {is js : List Instr} {s : State} {P Q : State → Prop} (h : AllComplete is s P)
    (hrest : ∀ t, P t → AllComplete js t Q) : AllComplete (is ++ js) s Q := by
  induction is generalizing s with
  | nil =>
    obtain ⟨t, ht, hP⟩ := h
    cases ht
    exact hrest s hP
  | cons i is ih =>
    obtain ⟨t, ht, hP⟩ := h
    rw [execAll] at ht
    split at ht
    · next u hu => exact allComplete_cons (P := (· = u)) ⟨u, hu, rfl⟩ fun _ e => e ▸ ih ⟨t, ht, hP⟩
    · cases ht
    · cases ht

/-! Frames compose. -/

theorem sameRegsBut_trans {l : List Reg} {s t u : State} (h : SameRegsBut l s t) (h' : SameRegsBut l t u) :
    SameRegsBut l s u := fun r hr =>
  ⟨(h' r hr).1.trans (h r hr).1, (h' r hr).2.trans (h r hr).2⟩

theorem sameRegsBut_mono {l l' : List Reg} {s t : State} (hl : l ⊆ l') (h : SameRegsBut l s t) : SameRegsBut l' s t :=
  fun r hr => h r fun hmem => hr (hl hmem)

theorem sameWorld_trans {s t u : State} (h : SameWorld s t) (h' : SameWorld t u) : SameWorld s u := by
  obtain ⟨htrace, hdev, hrun, hplatform⟩ := h
  obtain ⟨htrace', hdev', hrun', hplatform'⟩ := h'
  exact ⟨htrace'.trans htrace, hdev'.trans hdev, hrun'.trans hrun, hplatform'.trans hplatform⟩

theorem onlyReg_trans {d : Reg} {s t u : State} (h : OnlyReg d s t) (h' : OnlyReg d t u) : OnlyReg d s u := by
  obtain ⟨hregs, hmem, hworld⟩ := h
  obtain ⟨hregs', hmem', hworld'⟩ := h'
  exact ⟨sameRegsBut_trans hregs hregs', fun a => (hmem' a).trans (hmem a), sameWorld_trans hworld hworld'⟩

theorem onlyReg_of_onlyPc {d : Reg} {s t : State} (h : OnlyPc s t) : OnlyReg d s t := by
  obtain ⟨hregs, hmem, hworld⟩ := h
  exact ⟨sameRegsBut_mono (List.nil_subset _) hregs, hmem, hworld⟩

theorem pc_add_four {s t u : State} (h : NextInSequence s t) (h' : NextInSequence t u) :
    u.pc.toNat = (s.pc.toNat + 4) % 65536 := by
  unfold NextInSequence at h h'
  omega

/-- A register that could be read, or that has been written since, can be read (R25). -/
theorem canRead_of_sameRegsBut {k l : List Reg} {s t : State} (h : SameRegsBut k s t)
    (hk : ∀ r ∈ k, t.isWritten r = true) (hplatform : t.platform = s.platform)
    (hread : ∀ r ∈ l, r ∉ k → CanRead s [r]) : CanRead t l := by
  intro hundef r hr
  by_cases hmem : r ∈ k
  · exact hk r hmem
  · rw [(h r hmem).2]
    exact hread r hr hmem (hplatform ▸ hundef) r (List.mem_singleton_self r)

theorem canRead_singleton_of_mem {s : State} {l : List Reg} (h : CanRead s l) {r : Reg} (hr : r ∈ l) : CanRead s [r] :=
  fun hundef q hq => h hundef q (List.mem_singleton.mp hq ▸ hr)

/-- The postcondition of a sequence of two whose one result is register `d`. -/
def TwoWrite (d : Reg) (Q : Word → Prop) (s t : State) : Prop :=
  Q (t.reg d) ∧ t.isWritten d = true ∧ t.pc.toNat = (s.pc.toNat + 4) % 65536 ∧ OnlyReg d s t

/-- Two instructions that write the same register, the second reading no other. -/
theorem allComplete_two {i j : Instr} {s : State} {d : Reg} {P Q : Word → Prop} (hread : CanRead s (reads i))
    (hi : WritesRegister i s d P) (hreads : reads j = [d]) (hj : ∀ t, P (t.reg d) → WritesRegister j t d Q) :
    AllComplete [i, j] s (TwoWrite d Q s) := by
  refine allComplete_cons (hi hread) fun t ⟨hP, hwritten, hnext, honly⟩ => allComplete_single ?_
  have hread' : CanRead t (reads j) := hreads ▸ fun _ r hr => List.mem_singleton.mp hr ▸ hwritten
  exact completes_mono (hj t hP hread') fun u ⟨hQ, hwritten', hnext', honly'⟩ =>
    ⟨hQ, hwritten', pc_add_four hnext hnext', onlyReg_trans honly honly'⟩

theorem allComplete_of_twoWrite {is : List Instr} {s : State} {d : Reg} {Q : Word → Prop}
    (h : AllComplete is s (TwoWrite d Q s)) :
    AllComplete is s (fun t => Q (t.reg d) ∧ t.pc.toNat = (s.pc.toNat + 4) % 65536 ∧ OnlyReg d s t) :=
  allComplete_mono h fun _ ⟨hQ, _, hpc, honly⟩ => ⟨hQ, hpc, honly⟩

/-! What a store leaves for a fetch and for a load (R32, R51). -/

/-- Settles O19. -/
theorem storedWordIsSeenByFetch : Obligations.StoredWordIsSeenByFetch := by
  intro t a off s ea hread h2 hm hrom hrom'
  have hstore : exec (.sw t off a) s = .next (s.storeBytes ea (s.reg t) .word).advance :=
    (store_eq_storeAt hread).trans (storeAt_storage ((aligned_word_iff ea).mpr h2) hm (storeHitsRom_word hrom hrom'))
  refine ⟨_, hstore, (fetch_storage h2 hm).trans (congrArg Except.ok ?_)⟩
  exact wordAt_of_write (m := s.mem) h2 rfl

theorem effectiveAddress_zero (a : Word) : effectiveAddress a 0#4 = a := BitVec.add_zero a

theorem effectiveAddress_one (a : Word) : effectiveAddress a 1#4 = a + 1#16 := rfl

/-- A byte of a word as a signed number. -/
theorem toInt_byte (b : Byte) : b.toInt % 256 = b.toNat ∧ -128 ≤ b.toInt ∧ b.toInt < 128 := by
  have := b.isLt
  rw [BitVec.toInt_eq_toNat_cond]
  split <;> omega

/-- The loads from storage, their address given (R171–R173). -/
theorem lbu_writes {d a : Reg} {off : BitVec 4} {s : State} {ea : Word} (hea : effectiveAddress (s.reg a) off = ea)
    (hm : ea.toNat < 0xF000) : WritesRegister (.lbu d off a) s d (fun x => x.toNat = byteValue s ea.toNat) := by
  subst hea
  obtain ⟨_, _, h, _⟩ := loadByteZeroExtends d a off s
  exact h hm

theorem lb_writes {d a : Reg} {off : BitVec 4} {s : State} {ea : Word} (hea : effectiveAddress (s.reg a) off = ea)
    (hm : ea.toNat < 0xF000) :
    WritesRegister (.lb d off a) s d (fun x => x.toInt = (s.mem.readByte ea.toNat).toInt) := by
  subst hea
  obtain ⟨_, _, h, _⟩ := loadByteSignExtends d a off s
  exact h hm

theorem lw_writes {d a : Reg} {off : BitVec 4} {s : State} {ea : Word} (hea : effectiveAddress (s.reg a) off = ea)
    (h2 : ea.toNat % 2 = 0) (hm : ea.toNat < 0xF000) : WritesRegister (.lw d off a) s d
      (fun x => x.toNat = byteValue s ea.toNat + 256 * byteValue s (ea.toNat + 1)) := by
  subst hea
  obtain ⟨_, _, _, h, _⟩ := loadWordIsLittleEndianAndAligned d a off s
  exact h h2 hm

/-- A load after a store through the same base: what the store leaves in storage decides what the load gives. -/
theorem allComplete_store_load {store load : Instr} {b d : Reg} {s : State} {P : State → Prop}
    {Q : State → Word → Prop} {R : Word → Prop} (hread : CanRead s [b]) (hstore : Completes store s P)
    (hframe : ∀ u, P u → SameRegsBut [] s u ∧ SameWorld s u) (hreads : reads load = [b])
    (hload : ∀ u, u.reg b = s.reg b → WritesRegister load u d (Q u)) (hR : ∀ u x, P u → Q u x → R x) :
    AllComplete [store, load] s (fun t => R (t.reg d)) := by
  refine allComplete_cons hstore fun u hP => allComplete_single ?_
  obtain ⟨hregs, _, _, _, hplatform⟩ := hframe u hP
  have hread' : CanRead u (reads load) :=
    hreads ▸ canRead_of_sameRegsBut hregs (by simp) hplatform fun r hr _ => canRead_singleton_of_mem hread hr
  exact completes_mono (hload u (hregs b (by simp)).1 hread') fun _ ⟨hQ, _⟩ => hR u _ hP hQ

/-- Settles O20: each pair is a store and a load through the same base, and the bytes are those of the word. -/
theorem mixedWidthAccessesAgree : Obligations.MixedWidthAccessesAgree := by
  intro v b d s hread h2 hm hrom hrom'
  have hbase : CanRead s [b] := canRead_singleton_of_mem hread (by simp)
  have hnext : (s.reg b + 1#16).toNat = (s.reg b).toNat + 1 := toNat_add_one h2
  have hm' : (s.reg b + 1#16).toNat < 0xF000 := by omega
  have hsw := sw_completes (effectiveAddress_zero _).symm hread h2 hm hrom hrom'
  have hsb := sb_completes (effectiveAddress_zero _).symm hread hm hrom
  have hsb' := sb_completes (effectiveAddress_one _).symm hread hm' hrom'
  have haddr {u : State} (hu : u.reg b = s.reg b) : effectiveAddress (u.reg b) 0#4 = s.reg b :=
    hu ▸ effectiveAddress_zero _
  have haddr' {u : State} (hu : u.reg b = s.reg b) : effectiveAddress (u.reg b) 1#4 = s.reg b + 1#16 :=
    hu ▸ effectiveAddress_one _
  refine ⟨allComplete_store_load hbase hsw (fun u ⟨_, _, _, hregs, hworld, _⟩ => ⟨hregs, hworld⟩) rfl
      (R := fun x => x.toNat = (s.reg v).toNat % 256) (fun u hu => lbu_writes (haddr hu) hm) ?low,
    allComplete_store_load hbase hsw (fun u ⟨_, _, _, hregs, hworld, _⟩ => ⟨hregs, hworld⟩) rfl
      (R := fun x => x.toNat = (s.reg v).toNat / 256) (fun u hu => lbu_writes (haddr' hu) hm') ?high,
    allComplete_store_load hbase hsw (fun u ⟨_, _, _, hregs, hworld, _⟩ => ⟨hregs, hworld⟩) rfl
      (R := fun x => x.toInt % 256 = ((s.reg v).toNat : Int) % 256 ∧ -128 ≤ x.toInt ∧ x.toInt < 128)
      (fun u hu => lb_writes (haddr hu) hm) ?signed,
    allComplete_store_load hbase hsb (fun u ⟨_, _, hregs, hworld, _⟩ => ⟨hregs, hworld⟩) rfl
      (R := fun x => x.toNat = (s.reg v).toNat % 256 + 256 * byteValue s ((s.reg b).toNat + 1))
      (fun u hu => lw_writes (haddr hu) h2 hm) ?lowByte,
    allComplete_store_load hbase hsb' (fun u ⟨_, _, hregs, hworld, _⟩ => ⟨hregs, hworld⟩) rfl
      (R := fun x => x.toNat = byteValue s (s.reg b).toNat + 256 * ((s.reg v).toNat % 256))
      (fun u hu => lw_writes (haddr hu) h2 hm) ?highByte⟩
  case low => exact fun u x ⟨hlow, _⟩ hx => hx.trans hlow
  case high => exact fun u x ⟨_, hhigh, _⟩ hx => hx.trans (hnext ▸ hhigh)
  case signed =>
    rintro u x ⟨hlow, _⟩ hx
    obtain ⟨hmod, hmin, hmax⟩ := toInt_byte (u.mem.readByte (s.reg b).toNat)
    rw [byteValue] at hlow
    omega
  case lowByte =>
    rintro u x ⟨hlow, hother, _⟩ hx
    rw [hx, hlow, byteValue, hother _ (by omega)]
    rfl
  case highByte =>
    rintro u x ⟨hhigh, hother, _⟩ hx
    rw [hnext] at hhigh hother
    rw [hx, hhigh, byteValue, hother _ (by omega)]
    rfl

/-! The assembler's ranges (R212). -/

theorem signedField_iff {n : Nat} (hn : 0 < n) (v : Int) (f : BitVec n) :
    signedField n v = some f ↔ -(2 ^ (n - 1)) ≤ v ∧ v < 2 ^ (n - 1) ∧ f.toInt = v := by
  constructor
  · intro h
    rw [signedField, Option.ite_none_right_eq_some] at h
    obtain ⟨⟨hmin, hmax⟩, hf⟩ := h
    cases hf
    exact ⟨hmin, hmax, BitVec.toInt_ofInt_eq_self hn hmin hmax⟩
  · rintro ⟨hmin, hmax, rfl⟩
    rw [signedField, if_pos ⟨hmin, hmax⟩, BitVec.ofInt_toInt]

theorem unsignedField_iff (n : Nat) (v : Int) (f : BitVec n) :
    unsignedField n v = some f ↔ 0 ≤ v ∧ v < 2 ^ n ∧ (f.toNat : Int) = v := by
  constructor
  · intro h
    rw [unsignedField, Option.ite_none_right_eq_some] at h
    obtain ⟨⟨hmin, hmax⟩, hf⟩ := h
    cases hf
    refine ⟨hmin, hmax, ?_⟩
    rw [BitVec.toNat_ofInt, Int.toNat_of_nonneg (Int.emod_nonneg _ (by positivity)),
      Int.emod_eq_of_lt hmin (by exact_mod_cast hmax)]
  · rintro ⟨hmin, hmax, rfl⟩
    rw [unsignedField, if_pos ⟨hmin, hmax⟩, BitVec.ofInt_natCast, BitVec.ofNat_toNat, BitVec.setWidth_eq]

/-- A field for an even number. -/
theorem evenField_iff {n : Nat} (hn : 0 < n) (v : Int) (f : BitVec n) :
    (if v % 2 = 0 then signedField n v else none) = some f ↔
      v % 2 = 0 ∧ -(2 ^ (n - 1)) ≤ v ∧ v < 2 ^ (n - 1) ∧ f.toInt = v := by
  rw [Option.ite_none_right_eq_some, signedField_iff hn]

/-- Settles O53. -/
theorem assemblerAcceptsExactlyTheRanges : Obligations.AssemblerAcceptsExactlyTheRanges := by
  intro v
  refine ⟨fun f => ?_, fun f => ?_, fun f => ?_, fun f => ?_, fun f => ?_, fun f => ?_, fun f => ?_⟩
  · rw [asmImmI, signedField_iff (by decide)]; norm_num; omega
  · rw [asmByteOffset, signedField_iff (by decide)]; norm_num; omega
  · rw [asmShamt, unsignedField_iff]; norm_num; omega
  · rw [asmImm9, unsignedField_iff]; norm_num; omega
  · rw [asmSvc, unsignedField_iff]; norm_num; omega
  · rw [asmBranch, evenField_iff (by decide)]; norm_num; omega
  · rw [asmJump, evenField_iff (by decide)]; norm_num; omega

/-! Pseudo-instructions (R213–R226). -/

theorem toNat_lowerPart (v : Word) : (lowerPart v).toNat = v.toNat % 128 := by
  rw [lowerPart, BitVec.extractLsb'_toNat]
  simp

/-- The upper part, one more where the lower part is negative (R214, D27). -/
theorem toNat_upperPart (v : Word) :
    (upperPart v).toNat = (v.toNat / 128 + v.toNat / 64 % 2) % 512 := by
  have hv := v.isLt
  have hhigh : (v.extractLsb' 7 9).toNat = v.toNat / 128 := by
    rw [BitVec.extractLsb'_toNat, Nat.shiftRight_eq_div_pow]
    omega
  have hbit : v.getLsbD 6 = decide (v.toNat / 64 % 2 = 1) := by
    simp [BitVec.getLsbD, Nat.testBit_eq_decide_div_mod_eq]
  unfold upperPart
  rw [hbit]
  split
  · next h =>
    rw [BitVec.toNat_add, hhigh]
    simp only [decide_eq_true_eq] at h
    simp
    omega
  · next h =>
    simp only [decide_eq_true_eq] at h
    rw [hhigh]
    omega

/-- The two parts of a constant add up to it (R214). -/
theorem upperPart_add_lowerPart (v : Word) : immU (upperPart v) + immI (lowerPart v) = v := by
  apply BitVec.eq_of_toNat_eq
  have hv := v.isLt
  have hlow := toNat_immI (lowerPart v)
  rw [BitVec.toInt_eq_toNat_cond, toNat_lowerPart] at hlow
  rw [toNat_add_word, toNat_immU, toNat_upperPart]
  split at hlow <;> omega

/-- ADDI puts the sum of its register and the immediate there. -/
theorem addi_writes (d : Reg) (imm : BitVec 7) (s : State) :
    WritesRegister (.addi d imm) s d (· = s.reg d + immI imm) :=
  writesRegister_of_exec rfl rfl

theorem writesRegister_mono {i : Instr} {s : State} {d : Reg} {P Q : Word → Prop} (h : WritesRegister i s d P)
    (hPQ : ∀ v, P v → Q v) : WritesRegister i s d Q := fun hread =>
  completes_mono (h hread) fun _ ⟨hP, hrest⟩ => ⟨hPQ _ hP, hrest⟩

/-- A register that holds the upper part of a value, plus a base, gets the whole by ADDI. -/
theorem addi_lowerPart (d : Reg) (base v : Word) (t : State) (h : t.reg d = base + immU (upperPart v)) :
    WritesRegister (.addi d (lowerPart v)) t d (· = base + v) := by
  refine writesRegister_mono (addi_writes d (lowerPart v) t) fun x hx => ?_
  rw [hx, h, BitVec.add_assoc, upperPart_add_lowerPart]

/-- LI16 (R214). -/
theorem expandLi16_completes (d : Reg) (v : Word) (s : State) :
    AllComplete (expandLi16 d v) s (TwoWrite d (· = v) s) := by
  refine allComplete_two (P := (· = 0#16 + immU (upperPart v))) (fun _ _ h => (nomatch h))
    (writesRegister_of_exec (exec_lui d _ s) (BitVec.zero_add _).symm) rfl fun t ht => ?_
  simpa using addi_lowerPart d 0#16 v t ht

/-- Settles O54. -/
theorem loadConstantExpansionIsExact : Obligations.LoadConstantExpansionIsExact := by
  intro rd v here s
  exact ⟨_, rfl, rfl, allComplete_of_twoWrite (expandLi16_completes rd v s)⟩

/-- Settles O55: the upper part is added to the AUIPC's own address. -/
theorem loadAddressExpansionIsExact : Obligations.LoadAddressExpansionIsExact := by
  intro rd label s
  have hlabel : s.pc + (label - s.pc) = label := by rw [BitVec.add_comm, BitVec.sub_add_cancel]
  have htwo : AllComplete (expandLa rd label s.pc) s (TwoWrite rd (· = s.pc + (label - s.pc)) s) :=
    allComplete_two (P := (· = s.pc + immU (upperPart (label - s.pc)))) (fun _ _ h => (nomatch h))
      (writesRegister_of_exec rfl rfl) rfl fun t ht => addi_lowerPart rd s.pc (label - s.pc) t ht
  rw [hlabel] at htwo
  exact ⟨_, rfl, rfl, allComplete_of_twoWrite htwo⟩

/-- JR through a register that has been written. -/
theorem jr_completes {d : Reg} {s : State} (hread : CanRead s [d]) :
    Completes (.jr d) s (fun t => t.pc = s.reg d ∧ OnlyPc s t) := by
  obtain ⟨_, h⟩ := jumpRegisterCopiesAllBits d .x0 s
  exact completes_mono (h hread) fun t ⟨hpc, honly, _⟩ => ⟨hpc, honly⟩

/-- Settles O56: LI16 into x0, which JR then reads. -/
theorem longJumpReachesItsLabel : Obligations.LongJumpReachesItsLabel := by
  intro label here s
  refine ⟨_, rfl, rfl, allComplete_append (expandLi16_completes .x0 label s) fun t ⟨hreg, hwritten, _, honly⟩ => ?_⟩
  have hread : CanRead t [.x0] := fun _ r hr => List.mem_singleton.mp hr ▸ hwritten
  refine allComplete_single (completes_mono (jr_completes hread) fun u ⟨hpc, honly'⟩ =>
    ⟨hpc.trans hreg, ?_, onlyReg_trans honly (onlyReg_of_onlyPc honly')⟩)
  obtain ⟨hregs, _⟩ := honly'
  rw [(hregs .x0 (by simp)).1, hreg]

/-- The expansion's -1, sign-extended, is the word of all ones. -/
theorem immI_neg_one : immI (-1 : BitVec 7) = BitVec.allOnes 16 := by decide

theorem toNat_immI_neg_one : (immI (-1 : BitVec 7)).toNat = 65535 := by decide

/-- One instruction that writes register `d` in place of a pseudo-instruction. -/
theorem allComplete_one {i : Instr} {s : State} {d : Reg} {P : Word → Prop} (h : WritesRegister i s d P)
    (hread : CanRead s (reads i)) :
    AllComplete [i] s (fun t => P (t.reg d) ∧ NextInSequence s t ∧ OnlyReg d s t) :=
  allComplete_single (completes_mono (h hread) fun _ ⟨hP, _, hnext, honly⟩ => ⟨hP, hnext, honly⟩)

theorem not_writes (d : Reg) (s : State) :
    WritesRegister (.xori d (-1 : BitVec 7)) s d (fun v => v.toNat = 65535 - (s.reg d).toNat) := by
  refine writesRegister_of_exec (exec_xori d _ s) ?_
  rw [immI_neg_one, BitVec.xor_allOnes, BitVec.toNat_not]

theorem clr_writes (d : Reg) (s : State) : WritesRegister (.xor d d) s d (fun v => v.toNat = 0) := by
  refine writesRegister_of_exec (exec_xor d d s) ?_
  rw [BitVec.xor_self]
  rfl

theorem inc_writes (d : Reg) (s : State) :
    WritesRegister (.addi d 1#7) s d (fun v => v.toNat = ((s.reg d).toNat + 1) % 65536) :=
  writesRegister_mono (addi_writes d 1#7 s) fun v hv => by rw [hv, toNat_add_word]; rfl

theorem dec_writes (d : Reg) (s : State) :
    WritesRegister (.addi d (-1 : BitVec 7)) s d (fun v => v.toNat = ((s.reg d).toNat + 65535) % 65536) :=
  writesRegister_mono (addi_writes d (-1) s) fun v hv => by rw [hv, toNat_add_word, toNat_immI_neg_one]

/-- NEG is NOT, then INC (R223). -/
theorem neg_completes {d : Reg} {s : State} (hread : CanRead s [d]) :
    AllComplete [.xori d (-1 : BitVec 7), .addi d 1#7] s
      (TwoWrite d (fun v => v.toNat = (65536 - (s.reg d).toNat) % 65536) s) := by
  have hreg := (s.reg d).isLt
  refine allComplete_two hread (not_writes d s) rfl fun t ht =>
    writesRegister_mono (inc_writes d t) fun v hv => ?_
  omega

/-- Settles O59. -/
theorem arithmeticPseudosCompute : Obligations.ArithmeticPseudosCompute := by
  intro rd here s hread
  have hread2 : CanRead s (reads (.xor rd rd)) := fun h r hr => hread h r (by simpa [reads] using hr)
  have hneg := allComplete_of_twoWrite (neg_completes hread)
  have hnot := allComplete_one (not_writes rd s) hread
  have hclr := allComplete_one (clr_writes rd s) hread2
  have hinc := allComplete_one (inc_writes rd s) hread
  have hdec := allComplete_one (dec_writes rd s) hread
  exact ⟨⟨_, rfl, rfl, hneg⟩, ⟨_, rfl, rfl, hnot⟩, ⟨_, rfl, rfl, hclr⟩, ⟨_, rfl, rfl, hinc⟩, ⟨_, rfl, rfl, hdec⟩⟩

/-- The pc-relative target of a field that holds the distance to a label is the label (R219). -/
theorem pc_add_jumpOffset {pc label : Word} {off : BitVec 10} (h : off.toInt = (label - pc).toInt) :
    pc + jumpOffset off = label := by
  have hoff : jumpOffset off = label - pc :=
    BitVec.eq_of_toInt_eq ((BitVec.toInt_signExtend_of_le (by decide)).trans h)
  rw [hoff, BitVec.add_comm, BitVec.sub_add_cancel]

/-- Every distance in reach has its field (R212). -/
theorem exists_asmJump {v : Int} (heven : v % 2 = 0) (hmin : -512 ≤ v) (hmax : v ≤ 510) :
    ∃ off, asmJump v = some off ∧ off.toInt = v := by
  have hoff : (BitVec.ofInt 10 v).toInt = v :=
    BitVec.toInt_ofInt_eq_self (by decide) (by norm_num; omega) (by norm_num; omega)
  obtain ⟨_, _, _, _, _, _, hjump⟩ := assemblerAcceptsExactlyTheRanges v
  exact ⟨_, (hjump _).mpr ⟨hmin, hmax, heven, hoff⟩, hoff⟩

/-- Settles O60: CALL's field holds the distance, which JAL adds to its own address; RET is JR x1. -/
theorem callAndReturnTransferControl : Obligations.CallAndReturnTransferControl := by
  intro label s
  refine ⟨fun heven hmin hmax => ?call, fun hread => ⟨_, rfl, rfl, allComplete_single (jr_completes hread)⟩⟩
  case call =>
    obtain ⟨off, hfield, hoff⟩ := exists_asmJump heven hmin hmax
    obtain ⟨_, hjal⟩ := jumpAndLinkUsesItsOwnAddress off .x1 s
    refine ⟨[.jal .x1 off], ?expand, rfl, allComplete_single (completes_mono hjal fun t ⟨hpc, hlink, _, honly⟩ =>
      ⟨?target, hlink, honly⟩)⟩
    case expand =>
      rw [expand, expandCall, labelDistance, hfield]
    case target =>
      have htarget := add_signExtend_toNat s.pc off (by decide)
      rw [← jumpOffset, pc_add_jumpOffset hoff] at htarget
      exact BitVec.eq_of_toNat_eq (by omega)

/-- Settles O57: ADDI leaves the decremented stack pointer in x2, through which SW then stores. -/
theorem pushStoresBelowTheStackPointer : Obligations.PushStoresBelowTheStackPointer := by
  intro rd here s sp hread h2 hm hrom hrom'
  have hsp : s.reg .x2 + immI (-2 : BitVec 7) = sp := by
    rw [show immI (-2 : BitVec 7) = -2#16 by decide, ← BitVec.sub_eq_add_neg]
  refine ⟨_, rfl, rfl, allComplete_cons (addi_writes .x2 (-2) s (canRead_singleton_of_mem hread (by simp)))
    fun t ⟨ht, hwritten, hnext, hregs, hmem, hworld⟩ => allComplete_single ?_⟩
  rw [hsp] at ht
  have ⟨_, _, _, hplatform⟩ := hworld
  have hread' : CanRead t [.x2, rd] :=
    canRead_of_sameRegsBut hregs (by simpa using hwritten) hplatform fun r hr _ => canRead_singleton_of_mem hread hr
  have hdata : t.reg rd = if rd = .x2 then sp else s.reg rd := by
    split
    · next h => rw [h, ht]
    · next h => exact (hregs rd (by simpa using h)).1
  refine completes_mono (sw_completes (by rw [ht, effectiveAddress_zero]) hread' h2 hm (hplatform ▸ hrom)
    (hplatform ▸ hrom')) fun u ⟨hlow, hhigh, hother, hregs', hworld', hnext'⟩ => ⟨?sp,
      sameRegsBut_trans hregs (sameRegsBut_mono (List.nil_subset _) hregs'), sameWorld_trans hworld hworld', ?word,
      fun b hb hb' => (hother b hb hb').trans (hmem b), pc_add_four hnext hnext'⟩
  case sp => rw [(hregs' .x2 (by simp)).1, ht]
  case word =>
    rw [hlow, hhigh, ← hdata]
    omega

/-- Settles O58: LW puts the word at the old stack pointer in its register, and ADDI adds 2 to x2, which is that
register for POP x2. -/
theorem popLoadsThenIncrements : Obligations.PopLoadsThenIncrements := by
  intro rd here s hread h2 hm
  refine ⟨_, rfl, rfl, allComplete_cons (lw_writes (effectiveAddress_zero _) h2 hm hread)
    fun t ⟨ht, hwritten, hnext, hregs, hmem, hworld⟩ => allComplete_single ?_⟩
  have ⟨_, _, _, hplatform⟩ := hworld
  have hread' : CanRead t [.x2] :=
    canRead_of_sameRegsBut hregs (by simpa using hwritten) hplatform fun r hr _ => canRead_singleton_of_mem hread hr
  have hadd : WritesRegister (.addi .x2 2#7) t .x2 (fun v => v.toNat = ((t.reg .x2).toNat + 2) % 65536) :=
    writesRegister_mono (addi_writes .x2 2#7 t) fun v hv => by rw [hv, toNat_add_word]; rfl
  refine completes_mono (hadd hread') fun u ⟨hu, _, hnext', hregs', hmem', hworld'⟩ =>
    ⟨fun hne => ?other, fun h => ?same,
      sameRegsBut_trans (sameRegsBut_mono (by simp) hregs) (sameRegsBut_mono (by simp) hregs'),
      fun a => (hmem' a).trans (hmem a), sameWorld_trans hworld hworld', pc_add_four hnext hnext'⟩
  case other =>
    rw [(hregs' rd (by simpa using hne)).1, hu, (hregs .x2 (by simpa using Ne.symm hne)).1]
    exact ⟨ht, rfl⟩
  case same =>
    subst h
    rw [hu, ht]

end Sys2Proof.Proofs

/-! SUPPORT. ECALL (R200–R202): when a service is refused, what its effects leave behind, and what the language of
the environment's programs expresses (logs 7, 28). -/

namespace Sys2Proof.Proofs

open Sys2Proof.Machine Sys2Proof.Statements Sys2Proof.Laws

/-! Refusals (R201). -/

theorem ecallWord_eq_encodeSys (svc : BitVec 10) : 0x0007#16 ||| (svc.setWidth 16 <<< 6) = encodeSys svc := by
  apply BitVec.eq_of_getLsbD_eq
  intro i hi
  simp only [encodeSys, BitVec.getLsbD_or, BitVec.getLsbD_append, BitVec.getLsbD_shiftLeft, BitVec.getLsbD_setWidth]
  interval_cases i <;> simp

/-- Settles O51. -/
theorem undefinedServiceIsRefused : Obligations.UndefinedServiceIsRefused := by
  intro svc s
  refine ⟨decode_of_eq_encode (ecallWord_eq_encodeSys svc) rfl, fun h => ?_⟩
  have hnone : s.platform.service svc = none := by simpa [Platform.service, List.find?_eq_none] using h
  rw [exec, execEcall, hnone]

theorem serviceMay_iff (s : State) (e : Effect ServiceTarget ServiceRegion) :
    s.serviceMay e = true ↔ Permitted s e := by
  cases e with
  | set t v => simp [State.serviceMay, Permitted]
  | store r a v =>
    cases r
    exact storable_iff s a
  | asked => simp [State.serviceMay, Permitted]

theorem all_serviceMay_iff (s : State) (es : List (Effect ServiceTarget ServiceRegion)) :
    es.all s.serviceMay = true ↔ ∀ e ∈ es, Permitted s e := by
  simp only [List.all_eq_true, serviceMay_iff]

/-- An entry of the table has the number it is found by (R201). -/
theorem svc_of_isServiceOf {s : State} {svc : BitVec 10} {v : Service} (h : IsServiceOf s svc v) : v.svc = svc := by
  simpa using List.find?_some h

/-- A service that may have its effects has them (R201). -/
theorem exec_ecall_ok {s : State} {svc : BitVec 10} {v : Service} {es : List (Effect ServiceTarget ServiceRegion)}
    (hv : IsServiceOf s svc v) (heff : v.effects s = .ok es) (hmay : ∀ e ∈ es, Permitted s e) :
    exec (.ecall svc) s = .next (finishService (es.any endsRun) svc (es.foldl (applyServiceEffect svc) s)) := by
  have hv : s.platform.service svc = some v := hv
  simp only [exec, execEcall, hv, heff, if_pos ((all_serviceMay_iff s es).mpr hmay)]

/-- Settles O52. -/
theorem serviceBeyondItsGrantIsRefused : Obligations.ServiceBeyondItsGrantIsRefused := by
  intro svc v s hv hbeyond
  have hv' : s.platform.service svc = some v := hv
  rcases hbeyond with ⟨es, heff, e, he, hnot⟩ | ⟨r, hstop⟩
  · have hall : ¬ es.all s.serviceMay = true := fun h => hnot ((all_serviceMay_iff s es).mp h e he)
    simp only [exec, execEcall, hv', heff, if_neg hall]
  · rcases Service.effects_stops hstop with hr | ⟨q, _, hq⟩
    · rw [svc_of_isServiceOf hv] at hr
      cases hr
      simp only [exec, execEcall, hv', hstop, stop]
    · cases hq

/-! The effects of a service, one after the other (R201). -/

section Effects

variable (svc : BitVec 10) (s : State)

/-- Effects that give a register no value leave it and its mark. -/
theorem serviceEffects_reg_other {es : List (Effect ServiceTarget ServiceRegion)} {r : Reg}
    (h : ∀ x, Effect.set (.reg r) x ∉ es) :
    (es.foldl (applyServiceEffect svc) s).reg r = s.reg r ∧
    (es.foldl (applyServiceEffect svc) s).isWritten r = s.isWritten r := by
  refine foldl_keeps (P := fun u => u.reg r = s.reg r ∧ u.isWritten r = s.isWritten r) (fun e he u hu => ?_) s
    ⟨rfl, rfl⟩
  rcases e with ⟨q | _ | _, x⟩ | ⟨⟨⟩, a, x⟩ | _
  · have hne : r ≠ q := fun e => h x (e ▸ he)
    rwa [applyServiceEffect, State.setReg_reg_other _ _ hne, State.setReg_isWritten_other _ _ hne]
  · exact hu
  · exact hu
  · simpa [applyServiceEffect] using hu
  · exact hu

/-- Effects that store nothing to a byte leave it. -/
theorem serviceEffects_byte_other {es : List (Effect ServiceTarget ServiceRegion)} {b : Nat}
    (h : ∀ a x, Effect.store .storage a x ∈ es → a.toNat ≠ b) :
    (es.foldl (applyServiceEffect svc) s).mem.readByte b = s.mem.readByte b := by
  refine foldl_keeps (P := fun u => u.mem.readByte b = s.mem.readByte b) (fun e he u hu => ?_) s rfl
  rcases e with ⟨_ | _ | _, x⟩ | ⟨⟨⟩, a, x⟩ | _
  · exact hu
  · exact hu
  · exact hu
  · exact (Memory.readByte_write_other _ _ (h a x he).symm).trans hu
  · exact hu

/-- One effect appends its own event, if it has one. -/
theorem applyServiceEffect_trace (t : State) (e : Effect ServiceTarget ServiceRegion) :
    (applyServiceEffect svc t e).trace = t.trace ++ (eventOf svc e).toList := by
  rcases e with ⟨_ | _ | _, x⟩ | ⟨⟨⟩, a, x⟩ | _ <;> simp [applyServiceEffect, eventOf]

/-- The trace grows by the events of the effects, in order. -/
theorem serviceEffects_trace (es : List (Effect ServiceTarget ServiceRegion)) :
    (es.foldl (applyServiceEffect svc) s).trace = s.trace ++ es.filterMap (eventOf svc) := by
  induction es generalizing s with
  | nil => simp
  | cons e rest ih =>
    rw [List.foldl_cons, ih, applyServiceEffect_trace, List.append_assoc, List.filterMap_cons]
    cases eventOf svc e <;> rfl

end Effects

theorem any_endsRun_iff (es : List (Effect ServiceTarget ServiceRegion)) :
    es.any endsRun = true ↔ ∃ x, Effect.set .endRun x ∈ es ∧ x ≠ 0#16 := by
  rw [List.any_eq_true]
  constructor
  · rintro ⟨e, he, hends⟩
    rcases e with ⟨_ | _ | _, x⟩ | _ | _ <;> simp [endsRun] at hends
    exact ⟨x, he, hends⟩
  · rintro ⟨x, he, hx⟩
    exact ⟨_, he, by simpa [endsRun] using hx⟩

/-- A service that declares the end halts the run at the ECALL; any other goes on (R202). -/
theorem finishService_true {ends : Bool} (svc : BitVec 10) (t : State) (h : ends = true) :
    (finishService ends svc t).pc = t.pc ∧ (finishService ends svc t).runState = .halted svc := by
  subst h
  exact ⟨rfl, rfl⟩

theorem finishService_false {ends : Bool} (svc : BitVec 10) (t : State) (h : ends = false) :
    finishService ends svc t = t.advance := by
  subst h
  rfl

/-- The state after a service with the effects `es`. -/
def afterService (svc : BitVec 10) (es : List (Effect ServiceTarget ServiceRegion)) (s : State) : State :=
  finishService (es.any endsRun) svc (es.foldl (applyServiceEffect svc) s)

theorem afterService_ends {svc : BitVec 10} {es : List (Effect ServiceTarget ServiceRegion)} (s : State)
    (h : ∃ x, Effect.set .endRun x ∈ es ∧ x ≠ 0#16) :
    (afterService svc es s).pc = s.pc ∧ (afterService svc es s).runState = .halted svc := by
  obtain ⟨hpc, hrun⟩ := finishService_true svc (es.foldl (applyServiceEffect svc) s) ((any_endsRun_iff es).mpr h)
  obtain ⟨hpc', _⟩ := serviceEffects_frame svc es s
  exact ⟨hpc.trans hpc', hrun⟩

theorem afterService_goesOn {svc : BitVec 10} {es : List (Effect ServiceTarget ServiceRegion)} (s : State)
    (h : ∀ x, Effect.set .endRun x ∈ es → x = 0#16) :
    NextInSequence s (afterService svc es s) ∧ (afterService svc es s).runState = s.runState := by
  have hends : es.any endsRun = false := by
    rw [← Bool.not_eq_true, any_endsRun_iff]
    rintro ⟨x, hx, hne⟩
    exact hne (h x hx)
  obtain ⟨hpc, hrun, _⟩ := serviceEffects_frame svc es s
  rw [afterService, finishService_false svc _ hends]
  exact ⟨nextInSequence_of_pc (by rw [State.advance_pc, hpc]), hrun⟩

theorem afterService_trace (svc : BitVec 10) (es : List (Effect ServiceTarget ServiceRegion)) (s : State) :
    (afterService svc es s).trace = s.trace ++ es.filterMap (eventOf svc) := by
  rw [afterService, finishService_trace, serviceEffects_trace]

/-- The event of an effect stands in the trace between those of the effects before and after it. -/
theorem afterService_event {svc : BitVec 10} {pre post : List (Effect ServiceTarget ServiceRegion)}
    {e : Effect ServiceTarget ServiceRegion} {event : Event} (s : State) (he : eventOf svc e = some event) :
    ∃ before after, (afterService svc (pre ++ e :: post) s).trace = s.trace ++ before ++ event :: after := by
  refine ⟨pre.filterMap (eventOf svc), post.filterMap (eventOf svc), ?_⟩
  rw [afterService_trace, List.filterMap_append, List.filterMap_cons, he, List.append_assoc]

/-- Every effect that no later one overwrites shows after the service. -/
theorem effectsStand_afterService (svc : BitVec 10) (es : List (Effect ServiceTarget ServiceRegion)) (s : State) :
    EffectsStand svc es s (afterService svc es s) := by
  refine ⟨?_, afterService_trace svc es s⟩
  rintro e pre post rfl hpost
  rcases e with ⟨r | _ | _, x⟩ | ⟨⟨⟩, a, x⟩ | _
  case set.reg =>
    have hother : ∀ y, Effect.set (.reg r) y ∉ post := fun y hy => hpost _ hy rfl
    obtain ⟨hreg, hmark⟩ := serviceEffects_reg_other svc
      (applyServiceEffect svc (pre.foldl (applyServiceEffect svc) s) (.set (.reg r) x)) hother
    rw [Stands, afterService, finishService_reg, finishService_isWritten, List.foldl_append, List.foldl_cons, hreg,
      hmark]
    exact ⟨State.setReg_reg_same _ _ _, State.setReg_isWritten_same _ _ _⟩
  case set.output => exact afterService_event s rfl
  case set.endRun => exact fun hx => afterService_ends s ⟨x, by simp, hx⟩
  case store =>
    have hother : ∀ b y, Effect.store .storage b y ∈ post → b.toNat ≠ a.toNat :=
      fun b y hy e => hpost _ hy (BitVec.eq_of_toNat_eq e)
    rw [Stands, afterService, finishService_mem, List.foldl_append, List.foldl_cons,
      serviceEffects_byte_other svc _ hother, applyServiceEffect, (readByte_storeByte _ a x).1, lowByte_toNat]
  case asked => exact afterService_event s rfl

/-- Settles O48: each clause is one of the laws of the effects, carried past the end of the service. -/
theorem ecallPerformsItsService : Obligations.EcallPerformsItsService := by
  intro svc v es s hv heff hmay
  obtain ⟨_, _, hdev, hplatform⟩ := serviceEffects_frame svc es s
  refine ⟨afterService svc es s, exec_ecall_ok hv heff hmay, afterService_goesOn s, afterService_ends s,
    effectsStand_afterService svc es s, fun r h => ?regs, fun b h => ?bytes, ?dev, ?platform⟩
  case regs => simpa [afterService] using serviceEffects_reg_other svc s h
  case bytes => simpa [afterService] using serviceEffects_byte_other svc s h
  case dev => simpa [afterService] using hdev
  case platform => simpa [afterService] using hplatform

/-! Services that are lists of commands. -/

/-- A command that sets or stores the value of an expression adds that effect and touches no scratch cell. -/
theorem run_plainCommand {svc : BitVec 10} {s : State} {c : Program ServiceSource ServiceTarget ServiceRegion}
    {e : Effect ServiceTarget ServiceRegion} {p : Progress ServiceTarget ServiceRegion}
    (hc : plainEffect svc s c = some e) (hp : p.cells = []) : c.run (serviceEnv svc s) p = .ok (p.add e) := by
  cases c with
  | set t x =>
    simp only [plainEffect] at hc
    split at hc
    · next v hx =>
      cases hc
      exact Program.run_set (hp ▸ hx)
    · cases hc
  | store r i x =>
    simp only [plainEffect] at hc
    split at hc
    · next a v hi hx =>
      cases hc
      exact Program.run_store (hp ▸ hi) (hp ▸ hx)
    · cases hc
  | _ => cases hc

/-- Commands one after the other add their effects in order. -/
theorem run_inOrder {svc : BitVec 10} {s : State} {cs : List (Program ServiceSource ServiceTarget ServiceRegion)}
    {es : List (Effect ServiceTarget ServiceRegion)} {p : Progress ServiceTarget ServiceRegion}
    (hcs : cs.map (plainEffect svc s) = es.map some) (hp : p.cells = []) :
    ∃ q, (inOrder cs).run (serviceEnv svc s) p = .ok q ∧ q.effects = p.effects ++ es := by
  induction cs generalizing es p with
  | nil =>
    obtain rfl : es = [] := by simpa using hcs.symm
    exact ⟨p, rfl, by simp⟩
  | cons c cs ih =>
    cases es with
    | nil => cases hcs
    | cons e es =>
      obtain ⟨hc, hrest⟩ := List.cons.inj hcs
      obtain ⟨q, hq, heffects⟩ := ih (p := p.add e) hrest hp
      exact ⟨q, (Program.run_seq (run_plainCommand hc hp)).trans hq, by simp [heffects]⟩

/-- Settles O49: the commands' effects are the service's, and a service's effects stand. -/
theorem ecallCommandsStand : Obligations.EcallCommandsStand := by
  intro svc v cs es s hv haction hcs hmay
  have heff : v.effects s = .ok es := by
    obtain ⟨q, hq, heffects⟩ := run_inOrder (p := Progress.start) hcs rfl
    rw [Service.effects, Program.effects, haction, svc_of_isServiceOf hv, hq]
    simp [heffects]
  exact ⟨heff, afterService svc es s, exec_ecall_ok hv heff hmay, effectsStand_afterService svc es s⟩

end Sys2Proof.Proofs

/-! SUPPORT. The environment's programs express every action (R44, R201; logs 7, 28): a program that tabulates a
function of finitely many words, which may give nothing, and what a service and a device model read. -/

namespace Sys2Proof.Proofs

open Sys2Proof.Machine Sys2Proof.Statements Sys2Proof.Laws

section Tabulate

variable {α β ρ : Type}

/-- Take `k` values from outside, the `j`-th into scratch cell `j`. -/
def askAll : Nat → Program α β ρ
  | 0 => .skip
  | k + 1 => .seq (askAll k) (.ask (.const (BitVec.ofNat 16 k)))

/-- The command with a given effect; taking a value from outside is left to `askAll`. -/
def emitOne : Effect β ρ → Program α β ρ
  | .set t v => .set t (.const v)
  | .store r a v => .store r (.const a) (.const v)
  | .asked => .skip

/-- The branch of the value of `e`, where that is below `n`. -/
def switchBelow (e : ProgramExpr α ρ) (branch : Word → Program α β ρ) : Nat → Program α β ρ
  | 0 => .refuse
  | n + 1 =>
    .cond (.op .equal e (.const (BitVec.ofNat 16 n))) (branch (BitVec.ofNat 16 n)) (switchBelow e branch n)

/-- The effects that `f` gives for the values of the inputs, by a switch over all words for each input in turn. -/
def tabulate : List (ProgramExpr α ρ) → (List Word → Option (List (Effect β ρ))) → Program α β ρ
  | [], f =>
    match f [] with
    | some es => inOrder (es.map emitOne)
    | none => .refuse
  | e :: inputs, f => switchBelow e (fun v => tabulate inputs (fun vs => f (v :: vs))) (2 ^ 16)

/-- The progress of a program that has added the effects `es`. -/
def addAll (p : Progress β ρ) (es : List (Effect β ρ)) : Progress β ρ :=
  { p with effects := p.effects ++ es }

variable {env : ProgramEnv α ρ} {p : Progress β ρ}

theorem run_ask {i : ProgramExpr α ρ} {a : Word} (h : i.eval env p.cells = .ok a) :
    (Program.ask (β := β) i).run env p = .ok ((p.setCell a (env.outside p.asks)).add .asked) := by
  simp [Program.run, h]

theorem run_askAll (env : ProgramEnv α ρ) (k : Nat) : (askAll (β := β) k).run env Progress.start =
    .ok { effects := List.replicate k .asked, cells := outsideCells env.outside k } := by
  induction k with
  | zero => rfl
  | succ k ih =>
    have hasks : Progress.asks
        { effects := List.replicate k (.asked : Effect β ρ), cells := outsideCells env.outside k } = k := by
      simp [Progress.asks, List.countP_replicate, Effect.isAsked]
    rw [askAll, Program.run_seq ih, run_ask (ProgramExpr.eval_const _ _ _), hasks]
    simp [Progress.add, Progress.setCell, List.replicate_succ', outsideCells]

theorem run_emitOne {e : Effect β ρ} (he : e ≠ .asked) : (emitOne e).run env p = .ok (p.add e) := by
  cases e with
  | set t v => exact Program.run_set (ProgramExpr.eval_const _ _ _)
  | store r a v => exact Program.run_store (ProgramExpr.eval_const _ _ _) (ProgramExpr.eval_const _ _ _)
  | asked => exact absurd rfl he

/-- A fixed list of effects is a list of commands. -/
theorem run_emitAll {es : List (Effect β ρ)} (hes : .asked ∉ es) :
    (inOrder (es.map emitOne)).run env p = .ok (addAll p es) := by
  induction es generalizing p with
  | nil => simp [inOrder, addAll]
  | cons e es ih =>
    simp only [List.mem_cons, not_or] at hes
    obtain ⟨he, hrest⟩ := hes
    rw [List.map_cons, inOrder, Program.run_seq (run_emitOne (Ne.symm he)), ih hrest]
    simp [addAll, Progress.add]

/-- The switch takes the branch of the value. -/
theorem run_switchBelow {e : ProgramExpr α ρ} {branch : Word → Program α β ρ} {v : Word}
    (he : e.eval env p.cells = .ok v) {n : Nat} (hn : n ≤ 2 ^ 16) (hv : v.toNat < n) :
    (switchBelow e branch n).run env p = (branch v).run env p := by
  induction n with
  | zero => omega
  | succ n ih =>
    rw [switchBelow, Program.run_cond (ProgramExpr.eval_op .equal he (ProgramExpr.eval_const _ _ _))]
    have hnat : (BitVec.ofNat 16 n).toNat = n := by
      rw [BitVec.toNat_ofNat]
      omega
    by_cases heq : v = BitVec.ofNat 16 n
    · simp [Operator.apply, conditionWord, heq]
    · have hne : v.toNat ≠ n := fun h => heq (BitVec.eq_of_toNat_eq (h.trans hnat.symm))
      simpa [Operator.apply, conditionWord, heq] using ih (by omega) (by omega)

/-- A tabulated function has exactly the effects the function gives, or refuses. -/
theorem run_tabulate {inputs : List (ProgramExpr α ρ)} {f : List Word → Option (List (Effect β ρ))}
    (hf : ∀ vs es, f vs = some es → .asked ∉ es) {vs : List Word}
    (hinputs : inputs.map (fun e => e.eval env p.cells) = vs.map .ok) :
    (∀ es, f vs = some es → (tabulate inputs f).run env p = .ok (addAll p es)) ∧
    (f vs = none → (tabulate inputs f).run env p = .error env.refusal) := by
  induction inputs generalizing f vs with
  | nil =>
    obtain rfl : vs = [] := by simpa using hinputs.symm
    constructor
    · intro es hes
      simp only [tabulate, hes]
      exact run_emitAll (hf [] es hes)
    · intro hnone
      simp only [tabulate, hnone, Program.run_refuse]
  | cons e inputs ih =>
    cases vs with
    | nil => cases hinputs
    | cons v vs =>
      obtain ⟨he, hrest⟩ := List.cons.inj hinputs
      rw [tabulate, run_switchBelow he le_rfl v.isLt]
      exact ih (fun vs es h => hf (v :: vs) es h) hrest

end Tabulate

/-- Take the values from outside, then tabulate: every such function of fixed inputs is a program. -/
theorem exists_program {α β ρ : Type} (k : Nat) (inputs : List (ProgramExpr α ρ))
    (f : List Word → Option (List (Effect β ρ))) (hf : ∀ vs es, f vs = some es → Effect.asked ∉ es) :
    ∃ p : Program α β ρ, ∀ (env : ProgramEnv α ρ) (vs : List Word),
      inputs.map (fun e => e.eval env (outsideCells env.outside k)) = vs.map .ok →
      (∀ es, f vs = some es → p.effects env = .ok (List.replicate k .asked ++ es)) ∧
      (f vs = none → p.effects env = .error env.refusal) := by
  refine ⟨.seq (askAll k) (tabulate inputs f), fun env vs hinputs => ?_⟩
  obtain ⟨hsome, hnone⟩ := run_tabulate (env := env)
    (p := { effects := List.replicate k .asked, cells := outsideCells env.outside k }) hf hinputs
  constructor
  · intro es hes
    rw [Program.effects, Program.run_seq (run_askAll env k), hsome es hes]
    rfl
  · intro hes
    rw [Program.effects, Program.run_seq (run_askAll env k), hnone hes]

/-- A program of the environment reads every storage byte (R201, R44). -/
theorem peekStorage_storage (s : State) (refusal : Stop) {a : Word} (ha : a.toNat < 0xF000) :
    ∃ x : Word, x.toNat = byteValue s a.toNat ∧ s.peekStorage refusal a = .ok x := by
  refine ⟨(s.byteAt a).setWidth 16, BitVec.toNat_setWidth_of_le (by decide), ?_⟩
  simp [State.peekStorage, (not_inMmio_iff a).mpr ha]

/-- A service reads a register where any instruction may, and stops where none may (R201, R247). -/
theorem serviceEnv_reg (svc : BitVec 10) (s : State) (r : Reg) :
    (CanRead s [r] → (serviceEnv svc s).source (.reg r) = .ok (s.reg r)) ∧
    (¬ CanRead s [r] → (serviceEnv svc s).source (.reg r) = .error (.fault (.undefinedRegisterRead s.pc r))) := by
  rw [canRead_single_iff]
  constructor <;> intro h <;> simp [serviceEnv, h]

/-- Settles O50: the tabulating program, and what each environment reads. -/
theorem environmentProgramsExpressEveryAction : Obligations.EnvironmentProgramsExpressEveryAction := by
  refine ⟨fun α β ρ => exists_program, fun svc s cells => ?service, fun s addr n v cells => ?device⟩
  case service =>
    exact ⟨fun r => (serviceEnv_reg svc s r).1, fun r => (serviceEnv_reg svc s r).2, rfl,
      fun a ha => peekStorage_storage s _ ha⟩
  case device =>
    refine ⟨rfl, ?width, rfl, fun i => rfl, fun a ha => peekStorage_storage s _ ha⟩
    case width => cases n <;> rfl

end Sys2Proof.Proofs
